-- ==== Sys2Proof/Word.lean ====
section
/-! DEFINITION. The word types of the block: bytes and arrays of four bytes (spec/00_scope.md R12, R16). -/

namespace Sys2Proof

/-- A byte, bit 7 most significant (R12). -/
abbrev Byte := BitVec 8

/-- An array of four bytes, one per attenuator channel (R25, R31, R32). -/
abbrev Quad := Vector Byte 4

end Sys2Proof
end

