-- ==== Sys2Proof/Syntax.lean ====
section
/-! DEFINITION. The commands of the block and their operand types (spec/30_encoding.md R85 to R90, spec/00_scope.md R16). -/

namespace Sys2Proof

/-- The four logical RF paths, in the order of their numbers 0 to 3 (R16, R103). -/
inductive Channel
  | in0 | out0 | in1 | out1
deriving DecidableEq, Repr, Inhabited

/-- The 16 logical pins, in the order of their ordinals (R101). -/
inductive GpioPin
  | led4Green | led5Red | led6Green | led7Red | led8Green | led9Red
  | detPwrdown0 | detPwrdown1
  | attLe0 | attLe1 | attLe2 | attLe3
  | ddsReset | attRstN | oscEnN | extClkSel
deriving DecidableEq, Repr, Inhabited

/-- Direction of an expander pin (R16). -/
inductive Dir
  | input | output
deriving DecidableEq, Repr, Inhabited

/-- Level of a line or a latch (R16). -/
inductive Level
  | low | high
deriving DecidableEq, Repr, Inhabited

/-- The two modes of the DDS encoder (R16, R23). -/
inductive Mode
  | narrowCompat | native
deriving DecidableEq, Repr, Inhabited

/-- The nine opcodes (R85). -/
inductive Opcode
  | init | gpioSetDirection | gpioSetLevel | ddsConfigureMode | ddsWrite | ddsRead | ddsStartStream | attSet | attGet
deriving DecidableEq, Repr, Inhabited

/-- The nine commands, one constructor per row of spec/opcode_table.json, with typed operands (R85, R88). -/
inductive Instr
  /-- `INIT` (R166). -/
  | init
  /-- `GPIO_SET_DIRECTION pin, dir` (R111). -/
  | gpioSetDirection (pin : GpioPin) (dir : Dir)
  /-- `GPIO_SET_LEVEL pin, level` (R112). -/
  | gpioSetLevel (pin : GpioPin) (level : Level)
  /-- `DDS_CONFIGURE_MODE mode` (R126). -/
  | ddsConfigureMode (mode : Mode)
  /-- `DDS_WRITE addr, P` (R128); the payload's length is `n`. -/
  | ddsWrite (addr : Byte) (payload : List Byte)
  /-- `DDS_READ addr, n` (R135). -/
  | ddsRead (addr : Byte) (n : Nat)
  /-- `DDS_START_STREAM` (R138). -/
  | ddsStartStream
  /-- `ATT_SET channel, x` with `x` a binary32 datum (R150, R90). -/
  | attSet (channel : Channel) (x : BitVec 32)
  /-- `ATT_GET channel` (R155). -/
  | attGet (channel : Channel)
deriving DecidableEq, Repr

end Sys2Proof
end

