-- ==== Sys2Proof/Config.lean ====
section
/-! DEFINITION. What the machine is fixed to (the OPEN parameters of spec/00_scope.md R11) and the free values: constants
with no body, of which nothing can be proved but their type. -/

namespace Sys2Proof

/-- The two expander variants (R16, R110). -/
inductive Variant
  | a | b
deriving DecidableEq, Repr, Inhabited

/-- How a bus transaction ends: the three outcomes of R58. -/
inductive BusOutcome
  | ok | error | stalled
deriving DecidableEq, Repr, Inhabited

/-- The whole state of the DDS chip.
The spec gives it no structure (R39), so it is an uninterpreted token: only its identity matters (log 14). -/
structure DdsChip where
  token : Nat
deriving DecidableEq, Repr, Inhabited

/-- One answer of the environment to one bus primitive: the outcome, and every value the spec leaves unspecified there.
Each field is a draw in the sense of R45; a primitive reads the fields that concern it (log 3). -/
structure Draw where
  /-- How the transaction ends (R58). -/
  outcome : BusOutcome
  /-- What the 4-wire peripheral reports as busy when it is sampled, or while a transaction is stalled (R40, U21). -/
  busy : Bool
  /-- After an error or a stall of an expander write: whether the element named took the new value (R58). -/
  takes : Bool
  /-- Whether a latch line that goes from undriven to `High` latches (R34, U9). -/
  edge : Bool
  /-- Whether a reset line takes its active level where its level before or after a write of its pin is not known (R37, R42; log 9,
  30). -/
  drops : Bool
  /-- The driver error a failing 4-wire transaction carries (R91, U13). -/
  driver : Byte
  /-- The bytes a 4-wire read delivers (R135, U14). -/
  data : List Byte
  /-- The bytes a chain transfer returns where the attenuators are not known to be out of reset (R35, R37, U10). -/
  rx : Quad
  /-- The staging bytes where they are left unspecified (R33, R35, R58). -/
  staging : Quad
  /-- The output bytes where they are left unspecified (R35, U10). -/
  output : Quad
  /-- The pin directions after a probe that a fitted chip has not completed without error (R58, D29; log 31). -/
  xdir : Vector Dir 16
  /-- The pin latches after such a probe (R58, D29; log 31). -/
  xlat : Vector Level 16
  /-- The DDS chip after a 4-wire transaction, and at every answer while it streams (R39, U14; log 29). -/
  chip : DdsChip
deriving DecidableEq, Repr, Inhabited

/-- The parameters of one board, plain data: the OPEN parameters of R11, the fitted chip (R36) and the power-on state of
the DDS chip (R39).
No step changes them (log 7). -/
structure Board where
  /-- The expander chip that is fitted, if any (R36, R114, R115; log 8). -/
  fitted : Option Variant
  /-- `IDX_A`, by pin ordinal (R104). -/
  idxA : Vector (Fin 16) 16
  /-- `IDX_B`, by pin ordinal (R104). -/
  idxB : Vector (Fin 16) 16
  /-- `ATT_RST_ACTIVE` (R11). -/
  attRstActive : Level
  /-- `DDS_RST_ACTIVE` (R11). -/
  ddsRstActive : Level
  /-- `ATT_RESET_BYTE` (R11). -/
  attResetByte : Byte
  /-- The state of the DDS chip after its reset (R39). -/
  ddsPowerOn : DdsChip
deriving DecidableEq, Repr

/-- The admissible boards: both index maps are bijections of 16 pins onto 16 indices (R11, R104), which for maps of 16 onto
16 is that no two pins collide. -/
abbrev Board.admissible (b : Board) : Prop := b.idxA.toList.Nodup ∧ b.idxB.toList.Nodup

namespace Config

/-- The environment's `k`-th answer where no scripted answer stands: a free value (log 3). -/
opaque freeDraw : Nat → Draw

/-- A byte of read data that the answer does not hold: a free value, by answer number and position (log 15). -/
opaque freeByte : Nat → Nat → Byte

/-- `IDX_A` as a permutation of ordinals (R11, log 7). -/
opaque idxAPerm : Equiv.Perm (Fin 16)

/-- `IDX_B` as a permutation of ordinals (R11, log 7). -/
opaque idxBPerm : Equiv.Perm (Fin 16)

/-- `ATT_RST_ACTIVE` (R11). -/
opaque attRstActive : Level

/-- `DDS_RST_ACTIVE` (R11). -/
opaque ddsRstActive : Level

/-- `ATT_RESET_BYTE` (R11, R45). -/
opaque attResetByte : Byte

/-- The fitted expander chip (R36, log 8). -/
opaque fitted : Option Variant

/-- The power-on state of the DDS chip (R39). -/
opaque ddsPowerOn : DdsChip

/-- `EXP_RESET_DIR` (R11, R43). -/
opaque expResetDir : Vector Dir 16

/-- `EXP_RESET_LAT` (R11, R43). -/
opaque expResetLat : Vector Level 16

/-- `S` at block reset, unspecified (R43, log 5). -/
opaque resetStaging : Quad

/-- `O` at block reset, unspecified (R43, log 5). -/
opaque resetOutput : Quad

/-- `QBUSY` at block reset, an environment input (R43, log 5). -/
opaque resetBusy : Bool

/-- `DDSCHIP` at block reset, unspecified (R43, log 5). -/
opaque resetDdsChip : DdsChip

/-- `BUF` at block reset, unspecified (R43, log 6). -/
opaque resetBuf : Quad

/-- `CAP` at block reset, unspecified (R43, log 6). -/
opaque resetCap : Quad

/-- `ENC` at block reset, unspecified (R43, log 6). -/
opaque resetEnc : Vector Byte 12

/-- The board the machine is on: every parameter one of the constants above. -/
def board : Board where
  fitted := fitted
  idxA := Vector.ofFn idxAPerm
  idxB := Vector.ofFn idxBPerm
  attRstActive := attRstActive
  ddsRstActive := ddsRstActive
  attResetByte := attResetByte
  ddsPowerOn := ddsPowerOn

end Config

end Sys2Proof
end

