-- ==== Sys2Proof/WellFormed.lean ====
section
/-! DEFINITION. Which terms of Instr a command can carry: the two lengths fit the length byte (spec/30_encoding.md R87, R88). -/

namespace Sys2Proof

/-- The payload length and the read length are 0 to 255 (R88, row `n`); every other operand is legal by its type. -/
def Instr.wellFormed : Instr → Bool
  | .init => true
  | .gpioSetDirection _ _ => true
  | .gpioSetLevel _ _ => true
  | .ddsConfigureMode _ => true
  | .ddsWrite _ payload => decide (payload.length ≤ 255)
  | .ddsRead _ n => decide (n ≤ 255)
  | .ddsStartStream => true
  | .attSet _ _ => true
  | .attGet _ => true

end Sys2Proof
end

