-- ==== Sys2Proof/Decode.lean ====
section
/-! DEFINITION. The command port (spec/30_encoding.md Part B): the decoder, total on byte strings and rejecting by name, and
after it the encoder, both written from R85 to R90. -/

namespace Sys2Proof

/-! ## Numbers of the enumerations -/

/-- `chan_index`: the numeric value of a channel (spec/40_addressing.md R103). -/
def chanIndex : Channel → Fin 4
  | .in0 => 0
  | .out0 => 1
  | .in1 => 2
  | .out1 => 3

/-- The four channels in the order of their numbers (R103). -/
def allChannels : List Channel := [.in0, .out0, .in1, .out1]

/-- The ordinal of a logical pin (spec/40_addressing.md R101). -/
def pinOrdinal : GpioPin → Fin 16
  | .led4Green => 0
  | .led5Red => 1
  | .led6Green => 2
  | .led7Red => 3
  | .led8Green => 4
  | .led9Red => 5
  | .detPwrdown0 => 6
  | .detPwrdown1 => 7
  | .attLe0 => 8
  | .attLe1 => 9
  | .attLe2 => 10
  | .attLe3 => 11
  | .ddsReset => 12
  | .attRstN => 13
  | .oscEnN => 14
  | .extClkSel => 15

/-- The 16 logical pins in the order of their ordinals (R101). -/
def allPins : List GpioPin :=
  [.led4Green, .led5Red, .led6Green, .led7Red, .led8Green, .led9Red, .detPwrdown0, .detPwrdown1,
   .attLe0, .attLe1, .attLe2, .attLe3, .ddsReset, .attRstN, .oscEnN, .extClkSel]

/-! ## Opcodes (R85) -/

/-- The opcode byte (R85). -/
def opcodeByte : Opcode → Byte
  | .init => 0x00
  | .gpioSetDirection => 0x10
  | .gpioSetLevel => 0x11
  | .ddsConfigureMode => 0x20
  | .ddsWrite => 0x21
  | .ddsRead => 0x22
  | .ddsStartStream => 0x23
  | .attSet => 0x30
  | .attGet => 0x31

/-- The nine opcodes in the order of the table (R85). -/
def allOpcodes : List Opcode :=
  [.init, .gpioSetDirection, .gpioSetLevel, .ddsConfigureMode, .ddsWrite, .ddsRead, .ddsStartStream, .attSet, .attGet]

/-- The opcode a byte 0 names, none for a byte that is not one of the nine (R85, R93). -/
def opcodeOfByte (b : Byte) : Option Opcode := allOpcodes.find? fun op => opcodeByte op = b

/-! ## Operand bytes (R88) -/

/-- The `channel` operand: 0 to 3 (R88). -/
def channelOfByte (b : Byte) : Option Channel := allChannels[b.toNat]?

/-- The `pin` operand: 0 to 15 (R88). -/
def pinOfByte (b : Byte) : Option GpioPin := allPins[b.toNat]?

/-- The `dir` operand: 0 is `Input`, 1 is `Output` (R88). -/
def dirOfByte (b : Byte) : Option Dir :=
  if b = 0 then some .input else if b = 1 then some .output else none

/-- The `level` operand: 0 is `Low`, every other value is `High` (R89). -/
def levelOfByte (b : Byte) : Level := if b = 0 then .low else .high

/-- The `mode` operand: 0 is `NarrowCompat`, 1 is `Native` (R88). -/
def modeOfByte (b : Byte) : Option Mode :=
  if b = 0 then some .narrowCompat else if b = 1 then some .native else none

/-- The binary32 operand from its four bytes, most significant first (R87, R90). -/
def word32OfBytes (f3 f2 f1 f0 : Byte) : BitVec 32 :=
  BitVec.ofNat 32 (0x1000000 * f3.toNat + 0x10000 * f2.toNat + 0x100 * f1.toNat + f0.toNat)

/-- The four bytes of a 32-bit word, most significant first (R87, R91). -/
def bytesOfWord32 (x : BitVec 32) : List Byte :=
  [x.extractLsb' 24 8, x.extractLsb' 16 8, x.extractLsb' 8 8, x.extractLsb' 0 8]

/-! ## The decoder -/

/-- Why a byte string is no command (R93). -/
inductive DecodeError
  /-- The string has no opcode byte. -/
  | empty
  /-- Byte 0 is none of the nine opcodes (R85). -/
  | unknownOpcode (op : Byte)
  /-- The string is shorter or longer than its format (R87). -/
  | wrongLength (op : Opcode)
  /-- `channel` over 3. -/
  | badChannel (b : Byte)
  /-- `pin` over 15. -/
  | badPin (b : Byte)
  /-- `dir` over 1. -/
  | badDir (b : Byte)
  /-- `mode` over 1. -/
  | badMode (b : Byte)
deriving DecidableEq, Repr

/-- Format `Z` (R87). -/
def decodeNone (op : Opcode) (i : Instr) : List Byte → Except DecodeError Instr
  | [] => .ok i
  | _ => .error (.wrongLength op)

/-- Format `E2` with a pin and a direction (R87). -/
def decodeSetDirection : List Byte → Except DecodeError Instr
  | [p, e] =>
    match pinOfByte p, dirOfByte e with
    | some pin, some dir => .ok (.gpioSetDirection pin dir)
    | none, _ => .error (.badPin p)
    | some _, none => .error (.badDir e)
  | _ => .error (.wrongLength .gpioSetDirection)

/-- Format `E2` with a pin and a level (R87, R89). -/
def decodeSetLevel : List Byte → Except DecodeError Instr
  | [p, e] =>
    match pinOfByte p with
    | some pin => .ok (.gpioSetLevel pin (levelOfByte e))
    | none => .error (.badPin p)
  | _ => .error (.wrongLength .gpioSetLevel)

/-- Format `E1` with a mode (R87). -/
def decodeConfigureMode : List Byte → Except DecodeError Instr
  | [e] =>
    match modeOfByte e with
    | some mode => .ok (.ddsConfigureMode mode)
    | none => .error (.badMode e)
  | _ => .error (.wrongLength .ddsConfigureMode)

/-- Format `A` with a payload of exactly `n` bytes (R87). -/
def decodeDdsWrite : List Byte → Except DecodeError Instr
  | addr :: n :: payload =>
    if payload.length = n.toNat then .ok (.ddsWrite addr payload) else .error (.wrongLength .ddsWrite)
  | _ => .error (.wrongLength .ddsWrite)

/-- Format `A` without payload (R87). -/
def decodeDdsRead : List Byte → Except DecodeError Instr
  | [addr, n] => .ok (.ddsRead addr n.toNat)
  | _ => .error (.wrongLength .ddsRead)

/-- Format `F` (R87). -/
def decodeAttSet : List Byte → Except DecodeError Instr
  | [c, f3, f2, f1, f0] =>
    match channelOfByte c with
    | some channel => .ok (.attSet channel (word32OfBytes f3 f2 f1 f0))
    | none => .error (.badChannel c)
  | _ => .error (.wrongLength .attSet)

/-- Format `E1` with a channel (R87). -/
def decodeAttGet : List Byte → Except DecodeError Instr
  | [c] =>
    match channelOfByte c with
    | some channel => .ok (.attGet channel)
    | none => .error (.badChannel c)
  | _ => .error (.wrongLength .attGet)

/-- The command of an opcode and its operand bytes (R87). -/
def decodeOperands (op : Opcode) (args : List Byte) : Except DecodeError Instr :=
  match op with
  | .init => decodeNone .init .init args
  | .gpioSetDirection => decodeSetDirection args
  | .gpioSetLevel => decodeSetLevel args
  | .ddsConfigureMode => decodeConfigureMode args
  | .ddsWrite => decodeDdsWrite args
  | .ddsRead => decodeDdsRead args
  | .ddsStartStream => decodeNone .ddsStartStream .ddsStartStream args
  | .attSet => decodeAttSet args
  | .attGet => decodeAttGet args

/-- A command from its byte string: byte 0 tells the command, the rest are its operands (R85, R87, R92, R93). -/
def decode : List Byte → Except DecodeError Instr
  | [] => .error .empty
  | b :: args =>
    match opcodeOfByte b with
    | some op => decodeOperands op args
    | none => .error (.unknownOpcode b)

/-! ## The encoder -/

/-- The opcode of a command (R85). -/
def opcode : Instr → Opcode
  | .init => .init
  | .gpioSetDirection _ _ => .gpioSetDirection
  | .gpioSetLevel _ _ => .gpioSetLevel
  | .ddsConfigureMode _ => .ddsConfigureMode
  | .ddsWrite _ _ => .ddsWrite
  | .ddsRead _ _ => .ddsRead
  | .ddsStartStream => .ddsStartStream
  | .attSet _ _ => .attSet
  | .attGet _ => .attGet

/-- The operand byte of a channel (R88). -/
def byteOfChannel (c : Channel) : Byte := BitVec.ofNat 8 (chanIndex c).val

/-- The operand byte of a pin (R88). -/
def byteOfPin (p : GpioPin) : Byte := BitVec.ofNat 8 (pinOrdinal p).val

/-- The operand byte of a direction (R88). -/
def byteOfDir : Dir → Byte
  | .input => 0
  | .output => 1

/-- The operand byte of a level: 1 stands for `High` among the 255 bytes that do (R89). -/
def byteOfLevel : Level → Byte
  | .low => 0
  | .high => 1

/-- The operand byte of a mode (R88). -/
def byteOfMode : Mode → Byte
  | .narrowCompat => 0
  | .native => 1

/-- The operand bytes of a command, in the order of its format (R87). -/
def operandBytes : Instr → List Byte
  | .init => []
  | .gpioSetDirection pin dir => [byteOfPin pin, byteOfDir dir]
  | .gpioSetLevel pin level => [byteOfPin pin, byteOfLevel level]
  | .ddsConfigureMode mode => [byteOfMode mode]
  | .ddsWrite addr payload => addr :: BitVec.ofNat 8 payload.length :: payload
  | .ddsRead addr n => [addr, BitVec.ofNat 8 n]
  | .ddsStartStream => []
  | .attSet channel x => byteOfChannel channel :: bytesOfWord32 x
  | .attGet channel => [byteOfChannel channel]

/-- The byte string of a well-formed command (R85, R87). -/
def encode (i : Instr) : List Byte := opcodeByte (opcode i) :: operandBytes i

/-! ## Length, and commands numbered as the opcode table numbers them -/

/-- The length of a command with opcode `op`, known but for `DDS_WRITE`, where it is `3 + n` with `n` in byte 2 (R87, R94). -/
def formatLength (op : Opcode) (args : List Byte) : Option Nat :=
  match op with
  | .init => some 1
  | .gpioSetDirection => some 3
  | .gpioSetLevel => some 3
  | .ddsConfigureMode => some 2
  | .ddsWrite => (args[1]?).map fun n => 3 + n.toNat
  | .ddsRead => some 3
  | .ddsStartStream => some 1
  | .attSet => some 6
  | .attGet => some 2

/-- The length of a command, known from byte 0 and, for `DDS_WRITE`, byte 2 (R87, R94). -/
def commandLength : List Byte → Option Nat
  | [] => none
  | b :: args => (opcodeOfByte b).bind fun op => formatLength op args

/-- The `k` lowest bytes of a number, lowest first: byte 0 of a command holds bits 7 to 0. -/
def wordBytes : Nat → Nat → List Byte
  | 0, _ => []
  | k + 1, w => BitVec.ofNat 8 w :: wordBytes k (w / 256)

/-- The byte string of the command whose bits are `w` (numbered as the opcode table numbers them, `nbits` of them given and
every later bit 0): as many bytes as its format has, or the bytes given where byte 0 is no opcode.
The longest command has 258 bytes. -/
def tableCommand (nbits w : Nat) : List Byte :=
  let bytes := wordBytes 258 (w % 2 ^ nbits)
  bytes.take ((commandLength bytes).getD ((nbits + 7) / 8))

/-- What the decoder reads from the command whose bits are `w`. -/
def decodeTableWord (nbits w : Nat) : Option Instr :=
  match decode (tableCommand nbits w) with
  | .ok i => some i
  | .error _ => none

end Sys2Proof
end

