-- ==== Sys2Proof/Machine/Lines.lean ====
section
/-! DEFINITION. The lines of the expander's pins: which physical pin a logical one is (spec/40_addressing.md R104), the level its
line has (spec/10_state.md R37), and when a reset line takes its active level (R35, R39). -/

namespace Sys2Proof.Machine

/-- `idx(v, p)`: the physical index of a pin on a variant's chip (R104). -/
def idx (b : Board) (v : Variant) (p : GpioPin) : Fin 16 :=
  match v with
  | .a => b.idxA[pinOrdinal p]
  | .b => b.idxB[pinOrdinal p]

/-- The other level: a pulse is a level, then the other (R169, R170). -/
def otherLevel : Level → Level
  | .low => .high
  | .high => .low

/-- The level of a line whose pin has direction `x` and latch `l`, none when undriven (R37). -/
def lineOf (x : Dir) (l : Level) : Option Level :=
  match x with
  | .output => some l
  | .input => none

/-- The level of the line of pin `p` of the fitted chip (R37, R38); none when it is undriven, or when no chip is there to drive
it. -/
def pinLine (b : Board) (p : GpioPin) (xdir : Vector Dir 16) (xlat : Vector Level 16) : Option Level :=
  match b.fitted with
  | some v => lineOf xdir[idx b v p] xlat[idx b v p]
  | none => none

/-- Whether a reset line that has gone from `before` to `after` has taken its active level, which resets what it is wired to; `none`
is a level that is not known, the line being undriven (R37) or INIT not having ended (R42).
Known before and after: when it is there now and was not before (R35, R61, R112; log 9).
Driven active from a level not known: it takes the level (R111, R44; log 9, 30).
A line that is made undriven, or driven inactive from a level not known, may have taken the active level or not: the answer's
`drops` says which (log 9, 30). -/
def takesActive (active : Level) (drops : Bool) (before after : Option Level) : Bool :=
  match before, after with
  | none, none => false
  | none, some l => decide (l = active) || drops
  | some _, none => drops
  | some k, some l => decide (l = active) && decide (k ≠ active)

end Sys2Proof.Machine
end

