-- ==== Sys2Proof/Machine/State.lean ====
section
/-! DEFINITION. The state of the machine (spec/10_state.md R20), the reasons a step can stop, and the state after block
reset (R43). -/

namespace Sys2Proof.Machine

/-- `PHASE` (R21). -/
inductive Phase
  | uninit | ready | failed
deriving DecidableEq, Repr, Inhabited

/-- The error kinds of a response (spec/60_exceptions.md R180). -/
inductive ErrorKind
  | spi | i2c | qspi | bounds | invalidAddress | invalidChannel | adc | invalidState
deriving DecidableEq, Repr, Inhabited

/-- One bus primitive as it was issued, with its operands and how it ended (spec/00_scope.md R8, R14). -/
inductive BusEvent
  /-- `QspiWrite(a, P)`. -/
  | qspiWrite (a : Byte) (payload : List Byte) (outcome : BusOutcome)
  /-- `QspiRead(a, n)`; `data` is what it returned, empty unless it ended ok. -/
  | qspiRead (a : Byte) (n : Nat) (outcome : BusOutcome) (data : List Byte)
  /-- `QspiBusy()` and what it returned. -/
  | qspiBusy (busy : Bool)
  /-- `QspiStreamOverride()`. -/
  | qspiStreamOverride
  /-- `SpiXfer(W)`; `rx` is what it returned, none unless it ended ok. -/
  | spiXfer (w : Quad) (outcome : BusOutcome) (rx : Option Quad)
  /-- `ExpProbe(v)`. -/
  | expProbe (v : Variant) (outcome : BusOutcome)
  /-- `ExpLevel(v, i, l)`. -/
  | expLevel (v : Variant) (i : Fin 16) (l : Level) (outcome : BusOutcome)
  /-- `ExpDir(v, i, d)`. -/
  | expDir (v : Variant) (i : Fin 16) (d : Dir) (outcome : BusOutcome)
deriving DecidableEq, Repr

/-- The block's own registers (R20, first eight). -/
structure Block where
  /-- `PHASE` (R21). -/
  phase : Phase
  /-- `VARIANT`; none is the spec's value `None`, before detection (R22). -/
  variant : Option Variant
  /-- `MODE` (R23). -/
  mode : Mode
  /-- `STREAMING` (R24). -/
  streaming : Bool
  /-- `BUF[0..3]` (R25). -/
  buf : Quad
  /-- `CAP[0..3]` (R25). -/
  cap : Quad
  /-- `ENC[0..11]` (R25). -/
  enc : Vector Byte 12
  /-- `STEP`: 0 when idle, else the number of the micro-step to be made or waited for (R26). -/
  stepIx : BitVec 6
deriving DecidableEq, Repr

/-- The registers of the external devices (R20, last seven). -/
structure Devices where
  /-- `S[0..3]` (R31). -/
  staging : Quad
  /-- `O[0..3]` (R32). -/
  output : Quad
  /-- `XDIR[0..15]`, by physical index (R36). -/
  xdir : Vector Dir 16
  /-- `XLAT[0..15]`, by physical index (R36). -/
  xlat : Vector Level 16
  /-- `QBUSY` (R40). -/
  qbusy : Bool
  /-- `QSTREAM` (R40). -/
  qstream : Bool
  /-- `DDSCHIP` (R39). -/
  ddsChip : DdsChip
deriving DecidableEq, Repr

/-- What passes between the block and its surroundings: the model's own fields, not registers of the spec (log 3, 4, 22). -/
structure Ports where
  /-- The commands the host has still to present, next first (R6). -/
  host : List (List Byte)
  /-- The environment's next answers, next first; after them come the free answers (R7). -/
  env : List Draw
  /-- How many answers have been used. -/
  draws : Nat
  /-- The bus primitives issued so far, oldest first (R8). -/
  trace : List BusEvent
  /-- The responses returned so far, oldest first (R8, R91). -/
  responses : List (List Byte)
deriving DecidableEq, Repr

/-- The state of the machine: block, devices, the parameters of the board, and the ports. -/
structure State where
  blk : Block
  dev : Devices
  board : Board
  io : Ports
deriving DecidableEq, Repr

/-- The reasons a step stops with a fault.
The errors of the spec are none of these: they end a command with a response, and the machine goes on (R184). -/
inductive Fault
  /-- A command that acts on the expander runs in `PHASE = Ready` while `VARIANT = None`.
  Raised by GPIO_SET_DIRECTION, GPIO_SET_LEVEL and ATT_SET; no run reaches such a state, so it is safe (log 20). -/
  | variantUndetermined
deriving DecidableEq, Repr

/-- The refusals of spec/60_exceptions.md R191: commands the spec gives no meaning. -/
inductive Refusal
  /-- The command has no meaning in this model yet; raised by exec's arm only, safe. -/
  | notModelled (mnemonic : String)
  /-- A malformed byte string (R93); raised by step, safe. -/
  | malformed (reason : DecodeError)
  /-- The command is not accepted in this `PHASE`: any command but INIT unless `Ready`, INIT unless `Uninit` (R191); raised by
  every meaning, safe. -/
  | wrongPhase (phase : Phase)
  /-- `DDS_READ` while streaming with a legal address in native mode (R137); raised by DDS_READ, safe. -/
  | readWhileStreaming
  /-- A second command before the first has answered (R223, U19); raised by every meaning when `STEP` is not 0, safe.
  `step` never reaches it: it waits instead (R190). -/
  | commandInProgress
deriving DecidableEq, Repr

/-- The state right after block reset (R43, R205): the values the spec gives, and for what it leaves unspecified constants of
which nothing is known, each under no law (R45; log 5, 6, 7). -/
def State.reset : State where
  blk :=
    { phase := .uninit
      variant := none
      mode := .narrowCompat
      streaming := false
      buf := Config.resetBuf
      cap := Config.resetCap
      enc := Config.resetEnc
      stepIx := 0 }
  dev :=
    { staging := Config.resetStaging
      output := Config.resetOutput
      xdir := Config.expResetDir
      xlat := Config.expResetLat
      qbusy := Config.resetBusy
      qstream := false
      ddsChip := Config.resetDdsChip }
  board := Config.board
  io := { host := [], env := [], draws := 0, trace := [], responses := [] }

end Sys2Proof.Machine
end

