-- ==== Sys2Proof/Machine/Operands.lean ====
section
/-! DEFINITION. The pure functions of the block: pin and channel maps (spec/40_addressing.md), wire formats
(spec/30_encoding.md Part A), the binary32 attenuation operand and the attenuator byte (spec/43_attenuator.md). -/

namespace Sys2Proof.Machine

/-! ## Parameters the spec fixes (spec/00_scope.md R9, R10) -/

/-- `NARROW_MAX_PAYLOAD`: the most raw payload bytes of a narrow-compatibility write (R9, R77). -/
def narrowMaxPayload : Nat := 2

/-- `READ_FLAG`: bit 7 of the address byte (R10, R79). -/
def readFlag : Byte := 0x80

/-- `ATT_XFER_FILL`: the byte sent in each position of a read transfer (R10, R150). -/
def attXferFill : Quad := #v[0x00, 0x00, 0x00, 0x00]

/-- `BUS_LINES`: the 4-wire bus is always operated at four lines (R10, R141). -/
def busLines : Nat := 4

/-! ## Addressing (spec/40_addressing.md) -/

/-- `latch_pin`: the latch pin of a channel (R102). -/
def latchPin : Channel → GpioPin
  | .in0 => .attLe0
  | .out0 => .attLe1
  | .in1 => .attLe2
  | .out1 => .attLe3

/-- `chan_of`: the partial inverse of `latch_pin` (R105). -/
def chanOf : GpioPin → Option Channel
  | .attLe0 => some .in0
  | .attLe1 => some .out0
  | .attLe2 => some .in1
  | .attLe3 => some .out1
  | _ => none

/-- `pin_of(v, i)`: the pin with physical index `i`, the inverse of `idx(v, .)` (R105); it also names the board function a
physical line is wired to (R38). -/
def pinOf (b : Board) (v : Variant) (i : Fin 16) : Option GpioPin :=
  allPins.find? fun p => idx b v p = i

/-! ## Narrow-compatibility encoding (spec/30_encoding.md A.1) -/

/-- The bit of a byte as a byte, 0 or 1 (R12). -/
def bitByte (b : Byte) (n : Nat) : Byte := if b.getLsbD n then 1 else 0

/-- The encoded byte that carries bit pair `k`, raw bits `2k+1` and `2k` (R72). -/
def encPair (b : Byte) (k : Nat) : Byte := (bitByte b (2 * k + 1) <<< 4) ||| bitByte b (2 * k)

/-- `enc4`: the four encoded bytes of a raw byte, pair `k` in element `3 - k` (R71). -/
def enc4 (b : Byte) : List Byte := [encPair b 3, encPair b 2, encPair b 1, encPair b 0]

/-- The frame of an address byte and a payload (R73). -/
def narrowFrame (a : Byte) (payload : List Byte) : List Byte := enc4 a ++ payload.flatMap enc4

/-- The raw bit pair an encoded byte carries, at its place `k` in the raw byte (R76). -/
def decPair (e : Byte) (k : Nat) : Byte := (bitByte e 4 <<< (2 * k + 1)) ||| (bitByte e 0 <<< (2 * k))

/-- `dec4`: the raw byte of four encoded bytes (R76). -/
def dec4 (e0 e1 e2 e3 : Byte) : Byte := decPair e0 3 ||| decPair e1 2 ||| decPair e2 1 ||| decPair e3 0

/-- The raw bytes of a frame: the test function of the source, which the block itself never uses (R76, R136). -/
def decodeFrame : List Byte → List Byte
  | e0 :: e1 :: e2 :: e3 :: rest => dec4 e0 e1 e2 e3 :: decodeFrame rest
  | _ => []

/-- A frame written into the scratch buffer from element 0 on, the later elements kept (R73). -/
def writeEnc (enc : Vector Byte 12) (frame : List Byte) : Vector Byte 12 :=
  Vector.ofFn fun i => frame.getD i.val enc[i]

/-- `ENC[0 .. n-1]` (R12, R128). -/
def readEnc (enc : Vector Byte 12) (n : Nat) : List Byte := enc.toList.take n

/-! ## The lines of the 4-wire bus (spec/20_memory.md R56, spec/30_encoding.md R75) -/

/-- The two nibbles of each byte in the order they go out, high nibble first (R56). -/
def busCycles (bytes : List Byte) : List (BitVec 4) :=
  bytes.flatMap fun b => [b.extractLsb' 4 4, b.extractLsb' 0 4]

/-- What line `IOj` carries, cycle by cycle (R56). -/
def lineBits (j : Nat) (bytes : List Byte) : List Bool := (busCycles bytes).map fun n => n.getLsbD j

/-- The bits of a byte, most significant first (R75). -/
def bitsMsbFirst (b : Byte) : List Bool := (List.range 8).map fun n => b.getLsbD (7 - n)

/-! ## DDS addresses (R51, R79) -/

/-- Bit 7 of a host address, which makes it illegal (R129). -/
def addressIllegal (addr : Byte) : Bool := addr.getLsbD 7

/-- The address byte of a read transaction (R79). -/
def readAddress (addr : Byte) : Byte := addr ||| readFlag

/-! ## The binary32 attenuation operand (R90, R146) -/

/-- The exponent field of a binary32 datum, bits 30:23 (R90). -/
def f32Exponent (x : BitVec 32) : Nat := (x.extractLsb' 23 8).toNat

/-- The fraction field of a binary32 datum, bits 22:0 (R90). -/
def f32Fraction (x : BitVec 32) : Nat := (x.extractLsb' 0 23).toNat

/-- Neither a NaN nor an infinity (R146). -/
def f32Finite (x : BitVec 32) : Bool := decide (f32Exponent x ≠ 255)

/-- The sign bit (R90). -/
def f32Negative (x : BitVec 32) : Bool := x.msb

/-- The magnitude of a finite datum in units of `2^-149`, the weight of the last bit of a subnormal: exact (R90, log 19). -/
def f32Units (x : BitVec 32) : Nat :=
  if f32Exponent x = 0 then f32Fraction x
  else (2 ^ 23 + f32Fraction x) * 2 ^ (f32Exponent x - 1)

/-- `val(x)`: the number a finite datum denotes (R16, R90). -/
def f32Val (x : BitVec 32) : ℚ := (if f32Negative x then -1 else 1) * (f32Units x : ℚ) / 2 ^ 149

/-- The operand check of `ATT_SET`: finite and `0 <= val(x) <= 31.5`, negative zero included (R146).
31.5 is `63 * 2^148` units. -/
def attValid (x : BitVec 32) : Bool :=
  f32Finite x && (!f32Negative x || decide (f32Units x = 0)) && decide (f32Units x ≤ 63 * 2 ^ 148)

/-- `code = floor(2 * val(x))` of a valid operand: a half is `2^148` units (R148). -/
def attCode (x : BitVec 32) : Nat := f32Units x / 2 ^ 148

/-! ## The attenuator byte (R80, R147, R148) -/

/-- `byte_of(code) = ~(code << 2)` on 8 bits (R148). -/
def byteOf (code : Nat) : Byte := ~~~(BitVec.ofNat 8 code <<< 2)

/-- `(~byte) >> 2` on 8 bits: the code of a byte, that is twice its attenuation in dB (R147, R155). -/
def codeOf (b : Byte) : Nat := ((~~~b) >>> 2).toNat

/-- `att_of(byte)` in dB (R147). -/
def attOf (b : Byte) : ℚ := (codeOf b : ℚ) / 2

/-- `code / 2` as a binary32 datum, exact for codes 0 to 63 (R150, R155). -/
def f32OfHalf (code : Nat) : BitVec 32 :=
  if code = 0 then 0
  else BitVec.ofNat 32 ((126 + code.log2) * 2 ^ 23 + (code - 2 ^ code.log2) * 2 ^ (23 - code.log2))

/-! ## Levels (R83) -/

/-- The translation of a level to the variant's vocabulary: what is not `Low` is `High` (R83, R112). -/
def translateLevel (l : Level) : Level := if l = .low then .low else .high

end Sys2Proof.Machine
end

