-- ==== Sys2Proof/Machine/Flags.lean ====
section
/-! DEFINITION. The block has no status flags and no condition codes (spec/10_state.md R27); the one thing a command reports is
the status byte of its response (spec/30_encoding.md R91), with the codes of spec/60_exceptions.md R180. -/

namespace Sys2Proof.Machine

/-- The status byte of an error kind (R180). -/
def errorCode : ErrorKind → Byte
  | .spi => 0x01
  | .i2c => 0x02
  | .qspi => 0x03
  | .bounds => 0x04
  | .invalidAddress => 0x05
  | .invalidChannel => 0x06
  | .adc => 0x07
  | .invalidState => 0x08

/-- A success response: status 0, then the result bytes (R91). -/
def successResponse (result : List Byte) : List Byte := 0x00 :: result

/-- An error response: the code, then the driver byte where the kind carries one (R91). -/
def errorResponse (k : ErrorKind) (info : List Byte) : List Byte := errorCode k :: info

/-- The result bytes of `ATT_SET` and `ATT_GET`: `code / 2` as binary32, most significant byte first (R91). -/
def attResult (code : Nat) : List Byte := bytesOfWord32 (f32OfHalf code)

end Sys2Proof.Machine
end

