-- ==== Sys2Proof/Machine/Ops.lean ====
section
/-! DEFINITION. The shared operations: accepting a command, ending it with a response or an error, the environment's answers,
what a moving line does to the devices, and the bus primitives (spec/00_scope.md R14, R15; spec/10_state.md R33 to R40;
spec/20_memory.md R58; spec/60_exceptions.md R184). -/

namespace Sys2Proof.Machine

/-! ## Updates of State -/

/-- `STEP <- 1`: a command is accepted (R26). -/
def State.accept (s : State) : State := { s with blk := { s.blk with stepIx := 1 } }

/-- A micro-step has completed: `STEP` advances by one (R26). -/
def State.advance (s : State) : State := { s with blk := { s.blk with stepIx := s.blk.stepIx + 1 } }

/-- A bus primitive has been issued and has ended (R8). -/
def State.record (e : BusEvent) (s : State) : State := { s with io := { s.io with trace := s.io.trace ++ [e] } }

/-- `PHASE <- p` (R21). -/
def State.setPhase (p : Phase) (s : State) : State := { s with blk := { s.blk with phase := p } }

/-- `VARIANT <- v` (R22). -/
def State.setVariant (v : Variant) (s : State) : State := { s with blk := { s.blk with variant := some v } }

/-- `MODE <- m` (R23). -/
def State.setMode (m : Mode) (s : State) : State := { s with blk := { s.blk with mode := m } }

/-- `STREAMING <- true`: no command writes false (R24, R140). -/
def State.setStreaming (s : State) : State := { s with blk := { s.blk with streaming := true } }

/-- `BUF <- w` (R25). -/
def State.setBuf (w : Quad) (s : State) : State := { s with blk := { s.blk with buf := w } }

/-- `CAP <- w` (R25). -/
def State.setCap (w : Quad) (s : State) : State := { s with blk := { s.blk with cap := w } }

/-- `ENC <- e` (R25). -/
def State.setEnc (e : Vector Byte 12) (s : State) : State := { s with blk := { s.blk with enc := e } }

/-- The devices hold new values. -/
def State.withDev (d : Devices) (s : State) : State := { s with dev := d }

/-- The command ends: `STEP <- 0`, and its response is returned (R26, R91). -/
def State.respond (r : List Byte) (s : State) : State :=
  { s with blk := { s.blk with stepIx := 0 }, io := { s.io with responses := s.io.responses ++ [r] } }

/-! ## Ending a command (R15, R184, R187) -/

/-- `raise K(info)`, the one way an error is taken: no later micro-step is made, the response carries the kind, `STEP <- 0`,
every earlier effect stays, and nothing is saved anywhere (R15, R184). -/
def State.raise (k : ErrorKind) (info : List Byte) (s : State) : State := s.respond (errorResponse k info)

/-- `return v`: the command ends with a success response (R15).
There is no return from an error beside it: the block is idle after either (R187). -/
def State.succeed (result : List Byte) (s : State) : State := s.respond (successResponse result)

/-- How far a sequence of micro-steps has come: it goes on with a value, it has raised, or a transaction never completes. -/
inductive Flow (α : Type)
  | done (a : α) (s : State)
  | raised (k : ErrorKind) (info : List Byte) (s : State)
  | stalled (s : State)

/-- `try P`, then the rest: an error or a stall ends the sequence (R14). -/
def Flow.bind {α β : Type} (f : Flow α) (g : α → State → Flow β) : Flow β :=
  match f with
  | .done a s => g a s
  | .raised k info s => .raised k info s
  | .stalled s => .stalled s

/-- The state a command leaves: a success response, an error response, or, where a transaction never completes, no response and
`STEP` still at its micro-step (R184, R190; log 2). -/
def Flow.finish (f : Flow (List Byte)) : State :=
  match f with
  | .done result s => s.succeed result
  | .raised k info s => s.raise k info
  | .stalled s => s

/-! ## Accepting a command (R85, R191) -/

/-- A command that needs `PHASE = p`: refused while another command is in progress or in another phase, else accepted. -/
def inPhase (p : Phase) (s : State) (run : State → Host.Outcome State Fault Refusal) :
    Host.Outcome State Fault Refusal :=
  if s.blk.stepIx ≠ 0 then .refused .commandInProgress
  else if s.blk.phase ≠ p then .refused (.wrongPhase s.blk.phase)
  else run s.accept

/-- The selected variant, which every expander micro-step needs (R22, R116; log 20). -/
def withVariant (s : State) (run : Variant → Host.Outcome State Fault Refusal) : Host.Outcome State Fault Refusal :=
  match s.blk.variant with
  | some v => run v
  | none => .fault .variantUndetermined

/-! ## The environment's answers (R7, R58; log 3) -/

/-- The answer the environment will give `k` primitives from now. -/
def State.upcoming (s : State) (k : Nat) : Draw := (s.io.env[k]?).getD (Config.freeDraw (s.io.draws + k))

/-- `k` answers have been used. -/
def State.drawn (k : Nat) (s : State) : State :=
  { s with io := { s.io with env := s.io.env.drop k, draws := s.io.draws + k } }

/-- What the fitted chip, or its absence, makes of an answer: a chip that is not there never acknowledges, so a transaction
with it does not end ok (R114, R115; log 8). -/
def chipAnswer (b : Board) (v : Variant) (r : BusOutcome) : BusOutcome :=
  if b.fitted = some v then r
  else match r with
    | .ok => .error
    | .error => .error
    | .stalled => .stalled

/-- The DDS chip at an answer: while it streams it may become anything, of itself (R39, U14; log 29). -/
def streamedChip (draw : Draw) (d : Devices) : DdsChip := if d.qstream then draw.chip else d.ddsChip

/-- What every bus transaction does to the 4-wire devices once its own effect is made: `QBUSY` is false once it has completed,
whatever its bus, and anything while it never does (R40; log 13); a streaming DDS chip may have become anything (log 29). -/
def settleDevices (r : BusOutcome) (draw : Draw) (d : Devices) : Devices :=
  { d with
    qbusy := match r with
      | .ok => false
      | .error => false
      | .stalled => draw.busy
    ddsChip := streamedChip draw d }

/-! ## Lines, latches and resets (R34 to R39) -/

/-- The level of the line of a physical pin, none when undriven (R37). -/
def lineLevel (d : Devices) (i : Fin 16) : Option Level := lineOf d.xdir[i] d.xlat[i]

/-- Whether the levels the lines have had are known: not before INIT has ended, since "the initial level cannot be trusted" (R42,
R43; log 9). -/
def State.trusted (s : State) : Bool := decide (s.blk.phase ≠ .uninit)

/-- The level a line had before a write of its pin, none where it is not known (R37; log 9). -/
def lineBefore (trusted : Bool) (d : Devices) (i : Fin 16) : Option Level := if trusted then lineLevel d i else none

/-- The attenuators are known to be out of reset: the line of `AttRstN` is driven at the other level than `ATT_RST_ACTIVE` (R35,
R38).
Where it is not, at the active level or undriven, a transfer or a latch edge may give anything (R35, R37, U10; log 12, 30). -/
def attReleased (b : Board) (d : Devices) : Bool :=
  decide (pinLine b .attRstN d.xdir d.xlat = some (otherLevel b.attRstActive))

/-- Whether a latch line that moved latches: a rising edge does; from undriven to `High` either may be (R34, U9; log 11).
DEDUCED, unsafe: a line made undriven never latches, from `Low` either, though R37 knows no level of it then (log 33). -/
def latchEdge (before after : Option Level) (draw : Draw) : Bool :=
  match before, after with
  | some .low, some .high => true
  | none, some .high => draw.edge
  | _, _ => false

/-- A latch edge of channel `c`: `O[k] <- S[k]`, or anything where the attenuators are not known to be out of reset (R34, R35,
U10; log 12, 30). -/
def latchOutput (b : Board) (draw : Draw) (c : Channel) (d : Devices) : Devices :=
  if attReleased b d then { d with output := d.output.set (chanIndex c) d.staging[chanIndex c] }
  else { d with staging := draw.staging, output := draw.output }

/-- The attenuator reset (R35). -/
def resetAttenuators (b : Board) (d : Devices) : Devices :=
  { d with staging := Vector.replicate 4 b.attResetByte, output := Vector.replicate 4 b.attResetByte }

/-- The DDS chip's reset (R39). -/
def resetDds (b : Board) (d : Devices) : Devices := { d with ddsChip := b.ddsPowerOn }

/-- What the board function wired to pin `p` does when its line has gone from `before` to `after` (R34, R35, R38, R39). -/
def lineMoved (b : Board) (draw : Draw) (p : GpioPin) (before after : Option Level) (d : Devices) : Devices :=
  match p with
  | .attRstN => if takesActive b.attRstActive draw.drops before after then resetAttenuators b d else d
  | .ddsReset => if takesActive b.ddsRstActive draw.drops before after then resetDds b d else d
  | p =>
    match chanOf p with
    | some c => if latchEdge before after draw then latchOutput b draw c d else d
    | none => d

/-- The pin registers of the fitted variant have become those of `d'` by a write of physical pin `i`, whose line was at `before`:
the devices with what the line does (R36, R38). -/
def movePin (b : Board) (draw : Draw) (v : Variant) (i : Fin 16) (before : Option Level) (d' : Devices) : Devices :=
  match pinOf b v i with
  | some p => lineMoved b draw p before (lineLevel d' i) d'
  | none => d'

/-- `XLAT[i] <- l` with what the line does (R36, R112). -/
def driveLevel (b : Board) (draw : Draw) (trusted : Bool) (v : Variant) (i : Fin 16) (l : Level) (d : Devices) : Devices :=
  movePin b draw v i (lineBefore trusted d i) { d with xlat := d.xlat.set i l }

/-- `XDIR[i] <- x` with what the line does; setting the direction a pin already has changes nothing (R36, R111). -/
def driveDir (b : Board) (draw : Draw) (trusted : Bool) (v : Variant) (i : Fin 16) (x : Dir) (d : Devices) : Devices :=
  if d.xdir[i] = x then d else movePin b draw v i (lineBefore trusted d i) { d with xdir := d.xdir.set i x }

/-- The devices after an expander write that ended `r`: ok made it; an error or a stall made it or not, and never on a chip
that is not fitted (R36, R58; log 10).
DEDUCED, unsafe: the other fifteen pins keep their values after an error or a stall too, as R58, R60 and R119 speak of the pin named
alone, where 91_not_in_source.md N7 and D29 would let them be anything (log 32). -/
def afterExpander (b : Board) (v : Variant) (r : BusOutcome) (draw : Draw) (old new : Devices) : Devices :=
  match r with
  | .ok => new
  | .error => if b.fitted = some v && draw.takes then new else old
  | .stalled => if b.fitted = some v && draw.takes then new else old

/-- The devices after a probe that ended `r`: ok changes nothing; an error or a stall of a chip that is fitted leaves its pin
registers, and so the devices behind its lines, anything, and touches nothing where no such chip is there.
DESIGN CHOICE, safe: R58 gives the probe no effect and D29 leaves the addressed device unspecified (log 31). -/
def afterProbe (b : Board) (v : Variant) (r : BusOutcome) (draw : Draw) (d : Devices) : Devices :=
  if b.fitted = some v ∧ r ≠ .ok then
    { d with xdir := draw.xdir, xlat := draw.xlat, staging := draw.staging, output := draw.output, ddsChip := draw.chip }
  else d

/-! ## The bus primitives (R14) -/

/-- Go on, raise `k`, or never complete, by the outcome of a transaction (R14, R58). -/
def settle {α : Type} (r : BusOutcome) (k : ErrorKind) (info : List Byte) (a : α) (s : State) : Flow α :=
  match r with
  | .ok => .done a s.advance
  | .error => .raised k info s
  | .stalled => .stalled s

/-- `try ExpLevel(v, i, l)` (R14, R36, R117). -/
def expLevel (v : Variant) (i : Fin 16) (l : Level) (s : State) : Flow Unit :=
  let draw := s.upcoming 0
  let r := chipAnswer s.board v draw.outcome
  let dev := afterExpander s.board v r draw s.dev (driveLevel s.board draw s.trusted v i l s.dev)
  settle r .i2c [] () (((s.drawn 1).withDev (settleDevices r draw dev)).record (.expLevel v i l r))

/-- `try ExpDir(v, i, d)` (R14, R36, R117). -/
def expDir (v : Variant) (i : Fin 16) (x : Dir) (s : State) : Flow Unit :=
  let draw := s.upcoming 0
  let r := chipAnswer s.board v draw.outcome
  let dev := afterExpander s.board v r draw s.dev (driveDir s.board draw s.trusted v i x s.dev)
  settle r .i2c [] () (((s.drawn 1).withDev (settleDevices r draw dev)).record (.expDir v i x r))

/-- `ExpProbe(v)`: true where the probe read completes without a bus error, false where it completes with one (R114). -/
def expProbe (v : Variant) (s : State) : Flow Bool :=
  let draw := s.upcoming 0
  let r := chipAnswer s.board v draw.outcome
  let s' := ((s.drawn 1).withDev (settleDevices r draw (afterProbe s.board v r draw s.dev))).record (.expProbe v r)
  match r with
  | .ok => .done true s'.advance
  | .error => .done false s'.advance
  | .stalled => .stalled s'

/-- What a chain transfer returns: the staging bytes, or anything where the attenuators are not known to be out of reset (R33, R35,
U10; log 12, 30). -/
def spiReturned (b : Board) (draw : Draw) (d : Devices) : Quad := if attReleased b d then d.staging else draw.rx

/-- The devices after a chain transfer of `w` (R33, R35, R58, U10; log 12, 30). -/
def afterTransfer (b : Board) (r : BusOutcome) (draw : Draw) (w : Quad) (d : Devices) : Devices :=
  if attReleased b d then
    match r with
    | .ok => { d with staging := w }
    | .error => { d with staging := draw.staging }
    | .stalled => { d with staging := draw.staging }
  else { d with staging := draw.staging, output := draw.output }

/-- `try SpiXfer(W)` (R14, R33, R149). -/
def spiXfer (w : Quad) (s : State) : Flow Quad :=
  let draw := s.upcoming 0
  let r := draw.outcome
  let rx := spiReturned s.board draw s.dev
  let dev := settleDevices r draw (afterTransfer s.board r draw w s.dev)
  settle r .spi [] rx
    (((s.drawn 1).withDev dev).record (.spiXfer w r (match r with | .ok => some rx | .error => none | .stalled => none)))

/-- `try QspiWrite(a, P)`: the DDS chip may change in any way, whatever the outcome (R14, R39, R58). -/
def qspiWrite (a : Byte) (payload : List Byte) (s : State) : Flow Unit :=
  let draw := s.upcoming 0
  let r := draw.outcome
  settle r .qspi [draw.driver] ()
    (((s.drawn 1).withDev (settleDevices r draw { s.dev with ddsChip := draw.chip })).record (.qspiWrite a payload r))

/-- The `n` bytes a read delivers: those of the answer, and where it holds too few, free bytes (R135, log 15). -/
def readData (draw : Draw) (k n : Nat) : List Byte := (List.range n).map fun j => draw.data.getD j (Config.freeByte k j)

/-- `try QspiRead(a, n)` (R14, R39, R61). -/
def qspiRead (a : Byte) (n : Nat) (s : State) : Flow (List Byte) :=
  let draw := s.upcoming 0
  let r := draw.outcome
  let data := readData draw s.io.draws n
  settle r .qspi [draw.driver] data
    (((s.drawn 1).withDev (settleDevices r draw { s.dev with ddsChip := draw.chip })).record
      (.qspiRead a n r (match r with | .ok => data | .error => [] | .stalled => [])))

/-- `QspiBusy()`: the environment sets `QBUSY` as it likes, and the sample returns it; it has no effect of its own, and a
streaming chip goes on (R14, R40, R61; log 13, 29). -/
def qspiBusy (s : State) : Flow Bool :=
  let draw := s.upcoming 0
  .done draw.busy
    (((s.drawn 1).withDev { s.dev with qbusy := draw.busy, ddsChip := streamedChip draw s.dev }).record
      (.qspiBusy draw.busy)).advance

/-- `QspiStreamOverride()`: it cannot fail, and from then on the DDS chip may become anything (R14, R40, U14; log 29). -/
def qspiStreamOverride (s : State) : Flow Unit :=
  .done () (((s.drawn 1).withDev { s.dev with qstream := true, ddsChip := (s.upcoming 0).chip }).record
    .qspiStreamOverride).advance

end Sys2Proof.Machine
end

