-- ==== Sys2Proof/Machine/Expander.lean ====
section
/-! DEFINITION. The GPIO expander dispatcher (spec/41_gpio_expander.md): `GPIO_SET_DIRECTION`, `GPIO_SET_LEVEL`, and the
micro-sequence `EXP_DETECT`. -/

namespace Sys2Proof.Machine

/-- `ExpLevel` on a logical pin: the variant and its index map (R104, R116). -/
def pinLevel (v : Variant) (p : GpioPin) (l : Level) (s : State) : Flow Unit := expLevel v (idx s.board v p) l s

/-- `ExpDir` on a logical pin (R104, R116). -/
def pinDir (v : Variant) (p : GpioPin) (x : Dir) (s : State) : Flow Unit := expDir v (idx s.board v p) x s

/-- A pulse on a logical pin: a level, then the other (R153, R169, R170). -/
def pinPulse (v : Variant) (p : GpioPin) (first : Level) (s : State) : Flow Unit :=
  (pinLevel v p first s).bind fun _ s => pinLevel v p (otherLevel first) s

/-- `EXP_DETECT`: probe Variant A, else take Variant B without a transaction; `VARIANT` is written (R113, R115). -/
def expDetect (s : State) : Flow Variant :=
  (expProbe .a s).bind fun found s =>
    let v : Variant := if found then .a else .b
    .done v (s.setVariant v)

/-- `GPIO_SET_DIRECTION pin, dir` (R111). -/
def execGpioSetDirection (pin : GpioPin) (dir : Dir) (s : State) : Host.Outcome State Fault Refusal :=
  inPhase .ready s fun s =>
    withVariant s fun v => .next (((pinDir v pin dir s).bind fun _ s => .done [] s).finish)

/-- `GPIO_SET_LEVEL pin, level` (R112). -/
def execGpioSetLevel (pin : GpioPin) (level : Level) (s : State) : Host.Outcome State Fault Refusal :=
  inPhase .ready s fun s =>
    withVariant s fun v => .next (((pinLevel v pin (translateLevel level) s).bind fun _ s => .done [] s).finish)

end Sys2Proof.Machine
end

