-- ==== Sys2Proof/Machine/Attenuator.lean ====
section
/-! DEFINITION. The attenuator sequencer (spec/43_attenuator.md): `ATT_SET`, `ATT_GET`, and the micro-sequences `ATT_XFER`
and `ATT_LATCH`. -/

namespace Sys2Proof.Machine

/-- `ATT_XFER(W)` (R149). -/
def attXfer (w : Quad) (s : State) : Flow Quad := spiXfer w s

/-- `ATT_LATCH(channel)`: the latch pin low, then high (R153). -/
def attLatch (v : Variant) (c : Channel) (s : State) : Flow Unit := pinPulse v (latchPin c) .low s

/-- The four micro-steps of `ATT_SET`: read all four bytes, replace one, write all four back, latch (R150). -/
def attSetSteps (v : Variant) (c : Channel) (code : Nat) (s : State) : Flow (List Byte) :=
  (attXfer attXferFill s).bind fun rx s =>
    let w := rx.set (chanIndex c) (byteOf code)
    (attXfer w (s.setBuf w)).bind fun _ s =>
      (attLatch v c s).bind fun _ s => .done (attResult code) s

/-- The two micro-steps of `ATT_GET`: shift the staging bytes out, capture them, shift them back (R155). -/
def attGetSteps (c : Channel) (s : State) : Flow (List Byte) :=
  (attXfer attXferFill s).bind fun rx s =>
    (attXfer rx ((s.setBuf rx).setCap rx)).bind fun _ s =>
      .done (attResult (codeOf s.blk.cap[chanIndex c])) s

/-- `ATT_SET channel, x`: the operand check, then the steps (R146, R150). -/
def execAttSet (c : Channel) (x : BitVec 32) (s : State) : Host.Outcome State Fault Refusal :=
  inPhase .ready s fun s =>
    if attValid x then withVariant s fun v => .next ((attSetSteps v c (attCode x) s).finish)
    else .next (s.raise .bounds [])

/-- `ATT_GET channel` (R155). -/
def execAttGet (c : Channel) (s : State) : Host.Outcome State Fault Refusal :=
  inPhase .ready s fun s => .next ((attGetSteps c s).finish)

end Sys2Proof.Machine
end

