-- ==== Sys2Proof/Machine/Dds.lean ====
section
/-! DEFINITION. The DDS protocol encoder (spec/42_dds_encoder.md): `DDS_CONFIGURE_MODE`, `DDS_WRITE`, `DDS_READ`,
`DDS_START_STREAM`. -/

namespace Sys2Proof.Machine

/-- `DDS_CONFIGURE_MODE mode`: one micro-step without a transaction (R126). -/
def execDdsConfigureMode (mode : Mode) (s : State) : Host.Outcome State Fault Refusal :=
  inPhase .ready s fun s => .next (((s.setMode mode).advance.succeed []))

/-- The narrow-compatibility path: the frame is laid over `ENC` and sent from there (R73, R74, R131).
`ENC` takes its value at the end of the micro-step, once the transaction has completed ok (R13, R185; log 17). -/
def narrowWrite (addr : Byte) (payload : List Byte) (s : State) : Flow Unit :=
  let enc := writeEnc s.blk.enc (narrowFrame addr payload)
  match readEnc enc (4 * payload.length + 4) with
  | first :: rest => (qspiWrite first rest s).bind fun _ s => .done () (s.setEnc enc)
  | [] => .done () s

/-- The transaction of a `DDS_WRITE` whose checks have passed, by mode (R128). -/
def ddsTransmit (addr : Byte) (payload : List Byte) (s : State) : Flow Unit :=
  match s.blk.mode with
  | .narrowCompat => narrowWrite addr payload s
  | .native => qspiWrite addr payload s

/-- `DDS_WRITE addr, P`: address, then streaming, then length, then the transaction (R127, R128). -/
def execDdsWrite (addr : Byte) (payload : List Byte) (s : State) : Host.Outcome State Fault Refusal :=
  inPhase .ready s fun s =>
    if addressIllegal addr then .next (s.raise .invalidAddress [])
    else if s.blk.streaming then .next (s.raise .invalidState [])
    else if s.blk.mode = .narrowCompat ∧ narrowMaxPayload < payload.length then .next (s.raise .bounds [])
    else .next (((ddsTransmit addr payload s).bind fun _ s => .done [] s).finish)

/-- `DDS_READ addr, n`: address, then mode, then the refusal while streaming, then the transaction (R127, R135, R137). -/
def execDdsRead (addr : Byte) (n : Nat) (s : State) : Host.Outcome State Fault Refusal :=
  inPhase .ready s fun s =>
    if addressIllegal addr then .next (s.raise .invalidAddress [])
    else if s.blk.mode ≠ .native then .next (s.raise .invalidState [])
    else if s.blk.streaming then .refused .readWhileStreaming
    else .next ((qspiRead (readAddress addr) n s).finish)

/-- `STREAMING <- true` after the override (R138). -/
def enterStreaming (s : State) : Flow (List Byte) :=
  (qspiStreamOverride s).bind fun _ s => .done [] s.setStreaming

/-- `DDS_START_STREAM`: the busy check, then the override (R138). -/
def execDdsStartStream (s : State) : Host.Outcome State Fault Refusal :=
  inPhase .ready s fun s =>
    .next (((qspiBusy s).bind fun busy s => if busy then .raised .invalidState [] s else enterStreaming s).finish)

end Sys2Proof.Machine
end

