-- ==== Sys2Proof/Machine/Initialisation.lean ====
section
/-! DEFINITION. The initialisation sequence (spec/44_init_sequence.md): `INIT` and its two reset pulses. -/

namespace Sys2Proof.Machine

/-- `ATT_RESET_PULSE` (R169). -/
def attResetPulse (v : Variant) (s : State) : Flow Unit := pinPulse v .attRstN s.board.attRstActive s

/-- `DDS_RESET_PULSE` (R170). -/
def ddsResetPulse (v : Variant) (s : State) : Flow Unit := pinPulse v .ddsReset s.board.ddsRstActive s

/-- One pin of the pin phase: the level first, then the direction (R168). -/
def pinLowOut (v : Variant) (p : GpioPin) (s : State) : Flow Unit :=
  (pinLevel v p .low s).bind fun _ s => pinDir v p .output s

/-- The pin phase over a list of pins, each finished before the next is begun (R168). -/
def pinPhase (v : Variant) : List GpioPin → State → Flow Unit
  | [], s => .done () s
  | p :: rest, s => (pinLowOut v p s).bind fun _ s => pinPhase v rest s

/-- The 37 micro-steps of `INIT` (R166, R167). -/
def initSteps (s : State) : Flow (List Byte) :=
  (expDetect s).bind fun v s =>
    (pinPhase v allPins s).bind fun _ s =>
      (attResetPulse v s).bind fun _ s =>
        (ddsResetPulse v s).bind fun _ s => .done [] (s.setPhase .ready)

/-- On any raise: `PHASE <- Failed` (R166, R173). -/
def failInit (f : Flow (List Byte)) : Flow (List Byte) :=
  match f with
  | .done a s => .done a s
  | .raised k info s => .raised k info (s.setPhase .failed)
  | .stalled s => .stalled s

/-- `INIT` (R166, R174). -/
def execInit (s : State) : Host.Outcome State Fault Refusal :=
  inPhase .uninit s fun s => .next (failInit (initSteps s)).finish

end Sys2Proof.Machine
end

