-- ==== Sys2Proof/Machine/Dispatch.lean ====
section
/-! DEFINITION. The dispatcher: one arm per command of spec/opcode_table.json. -/

namespace Sys2Proof.Machine

def exec (i : Instr) (s : State) : Host.Outcome State Fault Refusal :=
  match i with
  | .init => Sys2Proof.Machine.execInit s
  | .gpioSetDirection pin dir => Sys2Proof.Machine.execGpioSetDirection pin dir s
  | .gpioSetLevel pin level => Sys2Proof.Machine.execGpioSetLevel pin level s
  | .ddsConfigureMode mode => Sys2Proof.Machine.execDdsConfigureMode mode s
  | .ddsWrite addr payload => Sys2Proof.Machine.execDdsWrite addr payload s
  | .ddsRead addr n => Sys2Proof.Machine.execDdsRead addr n s
  | .ddsStartStream => Sys2Proof.Machine.execDdsStartStream s
  | .attSet channel x => Sys2Proof.Machine.execAttSet channel x s
  | .attGet channel => Sys2Proof.Machine.execAttGet channel s

end Sys2Proof.Machine
end

