-- ==== Sys2Proof/Machine/Step.lean ====
section
/-! DEFINITION. One step of the machine: the host's next command, decoded and executed to completion (spec/00_scope.md R5,
spec/30_encoding.md R85). -/

namespace Sys2Proof.Machine

/-- One step: a block whose transaction never completes waits for ever (R190); an idle block with nothing presented waits for
the host (R205); else the next command is taken from the host and executed, or refused as malformed (R85, R93). -/
def step (s : State) : Host.Outcome State Fault Refusal :=
  if s.blk.stepIx ≠ 0 then .next s
  else
    match s.io.host with
    | [] => .next s
    | command :: rest =>
      match decode command with
      | .ok i => exec i { s with io := { s.io with host := rest } }
      | .error reason => .refused (.malformed reason)

/-- `s` with the command whose bits are `w` presented next by the host, and the block idle so that it takes it (log 4). -/
def State.withFetchWord (s : State) (nbits w : Nat) : State :=
  { s with blk := { s.blk with stepIx := 0 }, io := { s.io with host := tableCommand nbits w :: s.io.host } }

end Sys2Proof.Machine
end

