-- ==== Sys2Proof/Safety.lean ====
section
/-! DEFINITION. What statements about runs are written in: the states a command is accepted in, transactions that complete,
synchronisation, the writes of INIT, and the invariant of the machine. -/

namespace Sys2Proof.Machine

/-- Idle and initialised: every command but INIT is accepted (spec/60_exceptions.md R191). -/
abbrev State.Accepting (s : State) : Prop := s.blk.stepIx = 0 ∧ s.blk.phase = .ready

/-- Variant `v` is selected and its chip is the one fitted (spec/10_state.md R36). -/
abbrev State.Selected (s : State) (v : Variant) : Prop := s.blk.variant = some v ∧ s.board.fitted = some v

/-- The next `k` transactions complete without error: the premise of spec/70_reset_and_hazards.md R221. -/
abbrev State.NextOk (s : State) (k : Nat) : Prop := ∀ j < k, (s.upcoming j).outcome = .ok

/-- The pin is an output of the fitted chip (spec/10_state.md R37). -/
abbrev State.PinOutput (s : State) (v : Variant) (p : GpioPin) : Prop := s.dev.xdir[idx s.board v p] = .output

/-- The attenuators are known to be out of reset: the line of `AttRstN` is driven at its inactive level.
Elsewhere the spec leaves transfers and latches unspecified (R35, R37, U10; log 12, 30). -/
abbrev State.AttRunning (s : State) : Prop := attReleased s.board s.dev = true

/-- The 4-wire peripheral is not in its streaming phase, in which the DDS chip may become anything (R40, U14; log 29). -/
abbrev State.NotStreaming (s : State) : Prop := s.dev.qstream = false

/-- The chain is synchronised: `S[k] = O[k]` for every `k` (R41). -/
abbrev State.Synchronised (s : State) : Prop := s.dev.staging = s.dev.output

/-- The 36 writes INIT makes with variant `v` once the probe has ended, in order, each completed (R166). -/
def initWrites (b : Board) (v : Variant) : List BusEvent :=
  allPins.flatMap (fun p => [.expLevel v (idx b v p) .low .ok, .expDir v (idx b v p) .output .ok]) ++
    [.expLevel v (idx b v .attRstN) b.attRstActive .ok, .expLevel v (idx b v .attRstN) (otherLevel b.attRstActive) .ok,
      .expLevel v (idx b v .ddsReset) b.ddsRstActive .ok, .expLevel v (idx b v .ddsReset) (otherLevel b.ddsRstActive) .ok]

/-- An expander write as it would stand in the trace had it completed: variant, index and value without the outcome. -/
def BusEvent.asCompleted : BusEvent → BusEvent
  | .expLevel v i l _ => .expLevel v i l .ok
  | .expDir v i x _ => .expDir v i x .ok
  | .expProbe v r => .expProbe v r
  | .qspiWrite a p r => .qspiWrite a p r
  | .qspiRead a n r d => .qspiRead a n r d
  | .qspiBusy b => .qspiBusy b
  | .qspiStreamOverride => .qspiStreamOverride
  | .spiXfer w r rx => .spiXfer w r rx

/-- How the transaction of an event ended, none where the event is no bus transaction (R58). -/
def BusEvent.outcome : BusEvent → Option BusOutcome
  | .qspiWrite _ _ r => some r
  | .qspiRead _ _ r _ => some r
  | .qspiBusy _ => none
  | .qspiStreamOverride => none
  | .spiXfer _ r _ => some r
  | .expProbe _ r => some r
  | .expLevel _ _ _ r => some r
  | .expDir _ _ _ r => some r

/-- The flow, begun in `s`, has stopped in a transaction that never completes, with no response and `STEP` where it was (R190). -/
def Flow.Stuck {α : Type} (s : State) (f : Flow α) : Prop :=
  ∃ t, f = .stalled t ∧ t.blk.stepIx = s.blk.stepIx ∧ t.io.responses = s.io.responses

/-- The machine's invariant: the parameters are admissible (R104); the peripheral streams exactly while the block does (R138);
after initialisation the selected variant is the fitted one (R22, R36, R115); before it, and after a failed one, the encoder
holds its reset values (R21, R23, R24); no variant before INIT has begun (R22); a failed INIT leaves the block idle (R184);
`STEP` is at most 37 (R26, R167). -/
structure Inv (s : State) : Prop where
  admissible : s.board.admissible
  streams : s.dev.qstream = s.blk.streaming
  selected : s.blk.phase = .ready → ∃ v, s.Selected v
  bringUp : s.blk.phase ≠ .ready → s.blk.mode = .narrowCompat ∧ s.blk.streaming = false
  undetected : s.blk.phase = .uninit → s.blk.stepIx = 0 → s.blk.variant = none
  failedIdle : s.blk.phase = .failed → s.blk.stepIx = 0 ∧ s.blk.variant ≠ none
  stepBound : s.blk.stepIx.toNat ≤ 37

end Sys2Proof.Machine
end

