-- ==== Sys2Proof/Certificates/Slice0/Obligations.lean ====
section
/-! DEFINITION. The statements about the block, for the provers.
"R<n>" is a rule of spec/, "log <n>" an entry of notes/assumptions/.
The four parts of `io` that statements name (`env`, `draws`, `trace`, `responses`) are the model's own way to hold what passes
between block and surroundings (log 3, 22); every value an answer holds is free, and each statement is for all of them.
The premise `AttRunning` says that the line of `AttRstN` is driven at its inactive level; where it is at the active level or
undriven, transfers and latches may leave anything (R35, R37; log 12, 30).
The premise `NotStreaming` is about `DDSCHIP` alone, which may become anything while the chip streams (R39, U14; log 29).
Where a statement keeps `S`, `O` or `DDSCHIP` in a state in which a reset line is undriven, it speaks of the stored registers, and that
these keep their values then is the model's choice (R37; log 30).
Where a statement has `qbusy := false` after a transaction of the block, that is an inference the spec marks as its own (R40;
log 13). -/

open Sys2Proof Sys2Proof.Machine

/-! ## The command port -/

/-- R85, R87, R88: every well-formed command is read back from the bytes it is encoded to, with every operand. -/
def Obligations.DecodeOfEncodeIsTheCommand : Prop :=
  ∀ i : Instr, i.wellFormed = true → decode (encode i) = .ok i

/-- R87, R88, R89: what the decoder accepts is well-formed, has the length its first bytes tell (R94), and is the encoding of
the command read, but for the level byte, of which 1 to 255 all read as `High`. -/
def Obligations.AcceptedBytesAreAnEncoding : Prop :=
  ∀ (bs : List Byte) (i : Instr), decode bs = .ok i →
    i.wellFormed = true ∧ commandLength bs = some bs.length ∧
      ((∀ p l, i ≠ .gpioSetLevel p l) → encode i = bs) ∧
      (∀ p l, i = .gpioSetLevel p l → ∃ e : Byte, bs = [0x11, byteOfPin p, e] ∧ l = levelOfByte e)

/-- R93: a byte string is no command when its opcode is none of the nine, when it is shorter or longer than its format, or when
an enumeration operand is out of range; the refusal names which.
A DDS_WRITE that ends before its length byte has no length to tell, and has its own clause. -/
def Obligations.MalformedBytesAreRejected : Prop :=
  decode [] = .error .empty ∧
    (∀ (op : Byte) (args : List Byte),
      op.toNat ∉ [0x00, 0x10, 0x11, 0x20, 0x21, 0x22, 0x23, 0x30, 0x31] → decode (op :: args) = .error (.unknownOpcode op)) ∧
    (∀ (bs : List Byte) (n : Nat), commandLength bs = some n → bs.length ≠ n →
      ∃ op : Opcode, bs.head? = some (opcodeByte op) ∧ decode bs = .error (.wrongLength op)) ∧
    (decode [0x21] = .error (.wrongLength .ddsWrite) ∧
      ∀ addr : Byte, decode [0x21, addr] = .error (.wrongLength .ddsWrite)) ∧
    (∀ p e : Byte, 15 < p.toNat → decode [0x10, p, e] = .error (.badPin p) ∧ decode [0x11, p, e] = .error (.badPin p)) ∧
    (∀ p e : Byte, p.toNat ≤ 15 → 1 < e.toNat → decode [0x10, p, e] = .error (.badDir e)) ∧
    (∀ e : Byte, 1 < e.toNat → decode [0x20, e] = .error (.badMode e)) ∧
    (∀ c : Byte, 3 < c.toNat → decode [0x31, c] = .error (.badChannel c) ∧
      ∀ f3 f2 f1 f0 : Byte, decode [0x30, c, f3, f2, f1, f0] = .error (.badChannel c))

/-- R89: the level byte 0 is `Low` and every other value is `High`, so GPIO_SET_LEVEL has no illegal level. -/
def Obligations.LevelByteIsLowOnlyAtZero : Prop :=
  ∀ (p : GpioPin) (e : Byte),
    decode [0x11, byteOfPin p, e] = .ok (.gpioSetLevel p (if e = 0 then .low else .high))

/-- R85, R87, R88, R89: command bytes written out in spec/95_test_vectors.md are the commands they stand for there: `00` and `20 01`
in section 3 (programs P1 and P2, of R166 and R126), the other seven in sections 2.2 to 2.7. -/
def Obligations.WrittenOutCommandsDecode : Prop :=
  decode [0x00] = .ok .init ∧
    decode [0x10, 0x0F, 0x00] = .ok (.gpioSetDirection .extClkSel .input) ∧
    decode [0x11, 0x0A, 0x01] = .ok (.gpioSetLevel .attLe2 .high) ∧
    decode [0x20, 0x01] = .ok (.ddsConfigureMode .native) ∧
    decode [0x21, 0x03, 0x02, 0x12, 0x34] = .ok (.ddsWrite 0x03 [0x12, 0x34]) ∧
    decode [0x22, 0x04, 0x04] = .ok (.ddsRead 0x04 4) ∧
    decode [0x23] = .ok .ddsStartStream ∧
    decode [0x30, 0x02, 0x41, 0x20, 0x00, 0x00] = .ok (.attSet .in1 0x41200000) ∧
    decode [0x31, 0x02] = .ok (.attGet .in1)

/-! ## One step -/

/-- R85, R67: when the block is idle and the next bytes from the host are a command, the step is that command's execution, the
bytes taken from the host. -/
def Obligations.StepRunsTheDecodedCommand : Prop :=
  ∀ (s : State) (bytes : List Byte) (rest : List (List Byte)) (i : Instr),
    s.blk.stepIx = 0 → s.io.host = bytes :: rest → decode bytes = .ok i →
      step s = exec i { s with io := { s.io with host := rest } }

/-- R93, R191: malformed bytes are refused. -/
def Obligations.StepRefusesMalformedBytes : Prop :=
  ∀ (s : State) (bytes : List Byte) (rest : List (List Byte)) (e : DecodeError),
    s.blk.stepIx = 0 → s.io.host = bytes :: rest → decode bytes = .error e → step s = .refused (.malformed e)

/-- R190, R58: a transaction that never completes leaves the block stuck in its micro-step for ever: an execution that does not
end, with no response and no later command taken; it is neither an error nor a success.
The clauses: every bus transaction that never completes stops there; of every command, a transaction has never completed exactly
when the command has answered no response, and then it is the last one made; a command without a response leaves `STEP` at a
micro-step; and from there every number of steps leaves the same state.
R190 and R58 give no more than no response and no later command: that the model writes this as one state with `STEP` left where it
was, and keeps every register and device value in it for ever, is a DESIGN CHOICE (log 2), and what the devices behind a stalled
bus do from then on the spec leaves open. -/
def Obligations.StalledBlockNeverEnds : Prop :=
  (∀ s : State, (s.upcoming 0).outcome = .stalled →
      (∀ w, (spiXfer w s).Stuck s) ∧ (∀ a p, (qspiWrite a p s).Stuck s) ∧ (∀ a n, (qspiRead a n s).Stuck s) ∧
      (∀ v, (expProbe v s).Stuck s) ∧ (∀ v i l, (expLevel v i l s).Stuck s) ∧ ∀ v i x, (expDir v i x s).Stuck s) ∧
    (∀ (i : Instr) (s t : State), exec i s = .next t →
      ∃ added : List BusEvent, t.io.trace = s.io.trace ++ added ∧
        ((∃ e ∈ added, e.outcome = some .stalled) ↔ t.io.responses = s.io.responses) ∧
        (∀ e ∈ added.dropLast, e.outcome ≠ some .stalled) ∧
        (t.io.responses = s.io.responses → t.blk.stepIx ≠ 0)) ∧
    ∀ (s : State) (n : Nat), s.blk.stepIx ≠ 0 → core.run n s = .next s

/-- R205: an idle block waits for the host; after block reset nothing happens until a command is presented. -/
def Obligations.IdleBlockWaitsForTheHost : Prop :=
  (∀ s : State, s.blk.stepIx = 0 → s.io.host = [] → step s = .next s) ∧ ∀ n, core.run n State.reset = .next State.reset

/-- R91, R184: a command that is not refused either returns exactly one response and leaves the block idle, or returns none and
is stuck at a micro-step; whichever, its transactions come after those before it and the host's queue is not touched. -/
def Obligations.OneResponsePerCommand : Prop :=
  ∀ (i : Instr) (s t : State), exec i s = .next t →
    ((t.blk.stepIx = 0 ∧ ∃ r, t.io.responses = s.io.responses ++ [r]) ∨
      (t.blk.stepIx ≠ 0 ∧ t.io.responses = s.io.responses)) ∧
    s.io.trace <+: t.io.trace ∧ t.io.host = s.io.host ∧ t.board = s.board

/-- R21: `PHASE` is written only by INIT, `Ready` when it succeeds and `Failed` when it ends with an error; every command but
INIT is refused unless `Ready`, INIT unless `Uninit`; its reset value is `Uninit`. -/
def Obligations.PhaseIsWrittenByInitOnly : Prop :=
  State.reset.blk.phase = .uninit ∧
    (∀ (i : Instr) (s t : State), exec i s = .next t → i ≠ .init → t.blk.phase = s.blk.phase) ∧
    (∀ s t : State, exec .init s = .next t →
      (t.io.responses = s.io.responses ++ [[0x00]] ∧ t.blk.phase = .ready) ∨
      (t.io.responses = s.io.responses ++ [[0x02]] ∧ t.blk.phase = .failed) ∨
      (t.io.responses = s.io.responses ∧ t.blk.phase = .uninit ∧ t.blk.stepIx ≠ 0)) ∧
    (∀ (i : Instr) (s : State), s.blk.stepIx = 0 → i ≠ .init → s.blk.phase ≠ .ready →
      exec i s = .refused (.wrongPhase s.blk.phase)) ∧
    (∀ s : State, s.blk.stepIx = 0 → s.blk.phase ≠ .uninit → exec .init s = .refused (.wrongPhase s.blk.phase))

/-- R174: INIT with `PHASE = Ready` or `PHASE = Failed` is refused. -/
def Obligations.SecondInitIsRefused : Prop :=
  ∀ s : State, s.blk.stepIx = 0 → (s.blk.phase = .ready ∨ s.blk.phase = .failed) →
    exec .init s = .refused (.wrongPhase s.blk.phase)

/-- R223, U19: a command given while another is in progress is refused; the model has no such move. -/
def Obligations.OverlappingCommandIsRefused : Prop :=
  ∀ (i : Instr) (s : State), s.blk.stepIx ≠ 0 → exec i s = .refused .commandInProgress

/-! ## Addressing -/

/-- R105: `pin_of` inverts `idx`, `chan_of` inverts `latch_pin` and is undefined on the other twelve pins, and the round trip
index, pin, channel closes, on every admissible board. -/
def Obligations.AddressMapsRoundTrip : Prop :=
  ∀ (b : Board) (v : Variant), b.admissible →
    (∀ p, pinOf b v (idx b v p) = some p) ∧
    (∀ i, ∃ p, pinOf b v i = some p ∧ idx b v p = i) ∧
    (∀ c, chanOf (latchPin c) = some c) ∧
    (∀ p, (∀ c, p ≠ latchPin c) → chanOf p = none) ∧
    (∀ c, ((pinOf b v (idx b v (latchPin c))).bind chanOf).map chanIndex = some (chanIndex c))

/-! ## The DDS encoder -/

/-- R71, R72: raw bits `2k+1` and `2k` go to bits 4 and 0 of encoded byte `3 - k`, whose other bits are 0. -/
def Obligations.EncodedBytePlacement : Prop :=
  ∀ (b : Byte) (k : Nat), k < 4 →
    ∃ e : Byte, (enc4 b)[3 - k]? = some e ∧ e.getLsbD 4 = b.getLsbD (2 * k + 1) ∧ e.getLsbD 0 = b.getLsbD (2 * k) ∧
      ∀ j, j ≠ 4 → j ≠ 0 → e.getLsbD j = false

/-- R73, R76: a frame has `4(n+1)` bytes, each of them 00, 01, 10 or 11, and decoding it recovers the address and the payload
(so the encoding is injective). -/
def Obligations.NarrowFrameRoundTrip : Prop :=
  ∀ (a : Byte) (payload : List Byte),
    (narrowFrame a payload).length = 4 * (payload.length + 1) ∧
    (∀ e ∈ narrowFrame a payload, e ∈ ([0x00, 0x01, 0x10, 0x11] : List Byte)) ∧
    decodeFrame (narrowFrame a payload) = a :: payload

/-- R75: the frame drives line IO0 with the raw bits, address first, most significant bit first, and lines IO1, IO2, IO3 with 0,
on `8(n+1)` cycles.
It rests on which line carries which bit of a nibble and on the high nibble going first (R56), and on bit 0 of each nibble
carrying the raw bit (R72): inferences of the spec's own from general knowledge, which the model follows (log 25). -/
def Obligations.NarrowFrameDrivesOneLine : Prop :=
  ∀ (a : Byte) (payload : List Byte),
    lineBits 0 (narrowFrame a payload) = (a :: payload).flatMap bitsMsbFirst ∧
    ∀ j, j = 1 ∨ j = 2 ∨ j = 3 → lineBits j (narrowFrame a payload) = List.replicate (8 * (payload.length + 1)) false

/-- R126: DDS_CONFIGURE_MODE writes `MODE` and nothing else, whatever `STREAMING` is: no bus transaction, no error.
That the stored `DDSCHIP` of a streaming chip is kept, there being no primitive to draw it at, is the model's choice (log 29). -/
def Obligations.ConfigureModeWritesModeOnly : Prop :=
  ∀ (s : State) (m : Mode), s.Accepting →
    exec (.ddsConfigureMode m) s =
      .next { s with
        blk := { s.blk with mode := m }
        io := { s.io with responses := s.io.responses ++ [[0x00]] } }

/-- R127: DDS_WRITE and DDS_READ check the address, then the state, then the length; the first check that fails decides the
error, no bus transaction is issued, and nothing but the response changes (the stored `DDSCHIP` of a streaming chip is kept too, there
being no primitive to draw it at: the model's choice, log 29). -/
def Obligations.DdsChecksInOrder : Prop :=
  ∀ (s : State) (addr : Byte) (payload : List Byte) (n : Nat), s.Accepting →
    let answer : Byte → Host.Outcome State Fault Refusal := fun code =>
      .next { s with io := { s.io with responses := s.io.responses ++ [[code]] } }
    (addr.getLsbD 7 = true → exec (.ddsWrite addr payload) s = answer 0x05 ∧ exec (.ddsRead addr n) s = answer 0x05) ∧
    (addr.getLsbD 7 = false → s.blk.streaming = true → exec (.ddsWrite addr payload) s = answer 0x08) ∧
    (addr.getLsbD 7 = false → s.blk.mode ≠ .native → exec (.ddsRead addr n) s = answer 0x08) ∧
    (addr.getLsbD 7 = false → s.blk.streaming = false → s.blk.mode = .narrowCompat → 2 < payload.length →
      exec (.ddsWrite addr payload) s = answer 0x04)

/-- R137: DDS_READ while streaming, with a legal address and in native mode, is refused. -/
def Obligations.ReadWhileStreamingIsRefused : Prop :=
  ∀ (s : State) (addr : Byte) (n : Nat), s.Accepting → addr.getLsbD 7 = false → s.blk.mode = .native →
    s.blk.streaming = true → exec (.ddsRead addr n) s = .refused .readWhileStreaming

/-- R128, R132: a DDS_WRITE in native mode sends address and payload unchanged in one transaction and answers success (R91); only
`DDSCHIP`, which may become anything (R39), and `QBUSY` change.
That `QBUSY` is false after the transaction is the spec's own inference (R40; log 13). -/
def Obligations.NativeWritePassesThrough : Prop :=
  ∀ (s : State) (addr : Byte) (payload : List Byte), s.Accepting → s.blk.mode = .native → s.blk.streaming = false →
    addr.getLsbD 7 = false → s.NextOk 1 →
    exec (.ddsWrite addr payload) s =
      .next { s with
        dev := { s.dev with qbusy := false, ddsChip := (s.upcoming 0).chip }
        io := { s.io with
          env := s.io.env.drop 1
          draws := s.io.draws + 1
          trace := s.io.trace ++ [.qspiWrite addr payload .ok]
          responses := s.io.responses ++ [[0x00]] } }

/-- R74, R77, R128: a DDS_WRITE of at most two payload bytes in narrow-compatibility mode leaves the frame in `ENC[0 .. 4n+3]`
and the rest of `ENC` as it was, sends the frame's first byte as address and the others as payload, in one transaction,
and answers success; of the rest only `DDSCHIP` and `QBUSY` change. -/
def Obligations.NarrowWriteSendsTheFrame : Prop :=
  ∀ (s : State) (addr : Byte) (payload : List Byte), s.Accepting → s.blk.mode = .narrowCompat →
    s.blk.streaming = false → addr.getLsbD 7 = false → payload.length ≤ 2 → s.NextOk 1 →
    ∃ (enc : Vector Byte 12) (first : Byte) (rest : List Byte),
      narrowFrame addr payload = first :: rest ∧
      enc.toList.take (4 * payload.length + 4) = first :: rest ∧
      enc.toList.drop (4 * payload.length + 4) = s.blk.enc.toList.drop (4 * payload.length + 4) ∧
      exec (.ddsWrite addr payload) s =
        .next { s with
          blk := { s.blk with enc := enc }
          dev := { s.dev with qbusy := false, ddsChip := (s.upcoming 0).chip }
          io := { s.io with
            env := s.io.env.drop 1
            draws := s.io.draws + 1
            trace := s.io.trace ++ [.qspiWrite first rest .ok]
            responses := s.io.responses ++ [[0x00]] } }

/-- R79, R135: a DDS_READ in native mode issues one read at `addr | 0x80` and answers the `n` bytes the bus delivered; no block
register changes. -/
def Obligations.NativeReadReturnsTheBytes : Prop :=
  ∀ (s : State) (addr : Byte) (n : Nat), s.Accepting → s.blk.mode = .native → s.blk.streaming = false →
    addr.getLsbD 7 = false → s.NextOk 1 →
    ∃ data : List Byte, data.length = n ∧
      exec (.ddsRead addr n) s =
        .next { s with
          dev := { s.dev with qbusy := false, ddsChip := (s.upcoming 0).chip }
          io := { s.io with
            env := s.io.env.drop 1
            draws := s.io.draws + 1
            trace := s.io.trace ++ [.qspiRead (addr ||| 0x80) n .ok data]
            responses := s.io.responses ++ [0x00 :: data] } }

/-- R142, R58: a 4-wire transaction that ends with a bus error answers `Qspi` with one driver byte, in either mode; `MODE` and
`STREAMING` are unchanged, `DDSCHIP` may have changed, and nothing is retried.
That a read's address is `addr | 0x80` (R79), that a frame's first byte goes in the address phase (R74) and that `QBUSY` is false
after the transaction (R40) are inferences of the spec's own (log 13, 25). -/
def Obligations.QspiErrorsCarryTheDriverByte : Prop :=
  ∀ (s : State) (addr : Byte) (payload : List Byte) (n : Nat), s.Accepting → s.blk.streaming = false →
    addr.getLsbD 7 = false → (s.upcoming 0).outcome = .error →
    let after : BusEvent → Host.Outcome State Fault Refusal := fun e =>
      .next { s with
        dev := { s.dev with qbusy := false, ddsChip := (s.upcoming 0).chip }
        io := { s.io with
          env := s.io.env.drop 1
          draws := s.io.draws + 1
          trace := s.io.trace ++ [e]
          responses := s.io.responses ++ [[0x03, (s.upcoming 0).driver]] } }
    (s.blk.mode = .native →
      exec (.ddsWrite addr payload) s = after (.qspiWrite addr payload .error) ∧
      exec (.ddsRead addr n) s = after (.qspiRead (addr ||| 0x80) n .error [])) ∧
    (s.blk.mode = .narrowCompat → payload.length ≤ 2 →
      ∃ (t : State) (first : Byte) (rest : List Byte), exec (.ddsWrite addr payload) s = .next t ∧
        narrowFrame addr payload = first :: rest ∧
        t.io.trace = s.io.trace ++ [.qspiWrite first rest .error] ∧
        t.io.responses = s.io.responses ++ [[0x03, (s.upcoming 0).driver]] ∧
        t.blk.mode = s.blk.mode ∧ t.blk.streaming = s.blk.streaming ∧
        t.dev = { s.dev with qbusy := false, ddsChip := (s.upcoming 0).chip })

/-- R138: DDS_START_STREAM samples the bus; busy, it raises `InvalidState` and changes neither `STREAMING` nor `QSTREAM`; idle,
it makes the override and sets both; it has no mode precondition and may be given again.
From the override on the DDS chip may be anything, and so it may while it streams already (R39, U14; log 29). -/
def Obligations.StartStreamChecksBusyFirst : Prop :=
  ∀ s : State, s.Accepting →
    ((s.upcoming 0).busy = true →
      ∃ chip : DdsChip, (s.NotStreaming → chip = s.dev.ddsChip) ∧
        exec .ddsStartStream s =
          .next { s with
            dev := { s.dev with qbusy := true, ddsChip := chip }
            io := { s.io with
              env := s.io.env.drop 1
              draws := s.io.draws + 1
              trace := s.io.trace ++ [.qspiBusy true]
              responses := s.io.responses ++ [[0x08]] } }) ∧
    ((s.upcoming 0).busy = false →
      exec .ddsStartStream s =
        .next { s with
          blk := { s.blk with streaming := true }
          dev := { s.dev with qbusy := false, qstream := true, ddsChip := (s.upcoming 1).chip }
          io := { s.io with
            env := s.io.env.drop 2
            draws := s.io.draws + 2
            trace := s.io.trace ++ [.qspiBusy false, .qspiStreamOverride]
            responses := s.io.responses ++ [[0x00]] } })

/-- R140: no command leaves the streaming sub-mode: `STREAMING` and `QSTREAM` stay set, whatever the step does. -/
def Obligations.StreamingIsNeverLeft : Prop :=
  ∀ s t : State, step s = .next t →
    (s.blk.streaming = true → t.blk.streaming = true) ∧ (s.dev.qstream = true → t.dev.qstream = true)

/-- R139: while streaming the block issues no addressed transaction on the 4-wire bus. -/
def Obligations.NoAddressedTransactionWhileStreaming : Prop :=
  ∀ s t : State, step s = .next t → s.blk.streaming = true →
    ∃ added : List BusEvent, t.io.trace = s.io.trace ++ added ∧
      ∀ e ∈ added, (∀ a p r, e ≠ .qspiWrite a p r) ∧ ∀ a n r d, e ≠ .qspiRead a n r d

/-! ## The expander -/

/-- R112: GPIO_SET_LEVEL on any pin of the fitted chip writes that pin's latch, in one transaction, and answers success; every
other latch, every direction and every block register is unchanged. -/
def Obligations.SetLevelWritesOnePin : Prop :=
  ∀ (s : State) (v : Variant) (p : GpioPin) (l : Level), s.Accepting → s.Selected v → s.NextOk 1 →
    ∃ t, exec (.gpioSetLevel p l) s = .next t ∧
      t.blk = s.blk ∧ t.board = s.board ∧
      t.dev.xlat = s.dev.xlat.set (idx s.board v p) l ∧ t.dev.xdir = s.dev.xdir ∧
      t.dev.qbusy = false ∧ t.dev.qstream = s.dev.qstream ∧
      t.io = { s.io with
        env := s.io.env.drop 1
        draws := s.io.draws + 1
        trace := s.io.trace ++ [.expLevel v (idx s.board v p) l .ok]
        responses := s.io.responses ++ [[0x00]] }

/-- R111: GPIO_SET_DIRECTION on any pin of the fitted chip writes that pin's direction, in one transaction, and answers success;
every other direction, every latch and every block register is unchanged. -/
def Obligations.SetDirectionWritesOnePin : Prop :=
  ∀ (s : State) (v : Variant) (p : GpioPin) (x : Dir), s.Accepting → s.Selected v → s.NextOk 1 →
    ∃ t, exec (.gpioSetDirection p x) s = .next t ∧
      t.blk = s.blk ∧ t.board = s.board ∧
      t.dev.xdir = s.dev.xdir.set (idx s.board v p) x ∧ t.dev.xlat = s.dev.xlat ∧
      t.dev.qbusy = false ∧ t.dev.qstream = s.dev.qstream ∧
      t.io = { s.io with
        env := s.io.env.drop 1
        draws := s.io.draws + 1
        trace := s.io.trace ++ [.expDir v (idx s.board v p) x .ok]
        responses := s.io.responses ++ [[0x00]] }

/-- R34, R112: a level written to a latch pin that is an output copies `S[k]` to `O[k]` when the line rises, and does nothing
else to `S`, `O` or `DDSCHIP`: no change on a falling or an unchanged level. -/
def Obligations.LatchLineLatchesOnRisingEdge : Prop :=
  ∀ (s t : State) (v : Variant) (c : Channel) (l : Level), s.Accepting → s.Selected v → s.NextOk 1 →
    s.board.admissible → s.PinOutput v (latchPin c) → s.AttRunning → exec (.gpioSetLevel (latchPin c) l) s = .next t →
    t.dev.staging = s.dev.staging ∧ (s.NotStreaming → t.dev.ddsChip = s.dev.ddsChip) ∧
      t.dev.output =
        if s.dev.xlat[idx s.board v (latchPin c)] = .low ∧ l = .high then
          s.dev.output.set (chanIndex c) s.dev.staging[chanIndex c]
        else s.dev.output

/-- R37, R112, R119: a level written to a pin that is an input moves no line, and a level written to one of the ten pins that
are neither latch nor reset pins acts on nothing: `S`, `O` and `DDSCHIP` keep their values. -/
def Obligations.LevelOfInputOrPlainPinActsOnNothing : Prop :=
  ∀ (s t : State) (v : Variant) (p : GpioPin) (l : Level), s.Accepting → s.Selected v → s.NextOk 1 →
    s.board.admissible → exec (.gpioSetLevel p l) s = .next t →
    (s.dev.xdir[idx s.board v p] = .input ∨ ((∀ c, p ≠ latchPin c) ∧ p ≠ .attRstN ∧ p ≠ .ddsReset)) →
    t.dev.staging = s.dev.staging ∧ t.dev.output = s.dev.output ∧ (s.NotStreaming → t.dev.ddsChip = s.dev.ddsChip)

/-- R35, R39, R61, R112: a level written to a reset pin that is an output resets the devices behind it when the line takes the
active level by it (all four attenuators to `ATT_RESET_BYTE`; the DDS chip to its power-on state), and does nothing to them
otherwise: neither at the inactive level, nor where the line was at the active level already (log 9). -/
def Obligations.ResetLinesResetTheirDevices : Prop :=
  ∀ (s t : State) (v : Variant) (l : Level), s.Accepting → s.Selected v → s.NextOk 1 → s.board.admissible →
    (exec (.gpioSetLevel .attRstN l) s = .next t → s.PinOutput v .attRstN →
      (s.NotStreaming → t.dev.ddsChip = s.dev.ddsChip) ∧
      if l = s.board.attRstActive ∧ s.dev.xlat[idx s.board v .attRstN] ≠ s.board.attRstActive then
        t.dev.staging = Vector.replicate 4 s.board.attResetByte ∧ t.dev.output = Vector.replicate 4 s.board.attResetByte
      else t.dev.staging = s.dev.staging ∧ t.dev.output = s.dev.output) ∧
    (exec (.gpioSetLevel .ddsReset l) s = .next t → s.PinOutput v .ddsReset →
      t.dev.staging = s.dev.staging ∧ t.dev.output = s.dev.output ∧
      (s.NotStreaming → t.dev.ddsChip =
        if l = s.board.ddsRstActive ∧ s.dev.xlat[idx s.board v .ddsReset] ≠ s.board.ddsRstActive then s.board.ddsPowerOn
        else s.dev.ddsChip))

/-- R34, R35, R37, R39, R111: setting the direction a pin has, switching a pin other than the two reset pins to input, and any
direction of the ten pins that are neither latch nor reset pins act on nothing; switching an input to output gives its line the
level its latch holds: on a latch pin at `High` the latch may or may not happen, and a reset line driven at its active level
resets.
That a latch pin switched to input never latches is DEDUCED (R34, R41; log 33).
An undriven line has no level the spec knows (R37): a reset line made undriven, or driven at its inactive level from there, may
have reset its devices or not, and one driven active from there takes the level (log 30). -/
def Obligations.DirectionChangeDrivesTheLatchedLevel : Prop :=
  ∀ (s t : State) (v : Variant) (p : GpioPin) (x : Dir), s.Accepting → s.Selected v → s.NextOk 1 →
    s.board.admissible → exec (.gpioSetDirection p x) s = .next t →
    (s.dev.xdir[idx s.board v p] = x ∨ (x = .input ∨ ∀ c, p ≠ latchPin c) ∧ p ≠ .attRstN ∧ p ≠ .ddsReset →
      t.dev.staging = s.dev.staging ∧ t.dev.output = s.dev.output ∧ (s.NotStreaming → t.dev.ddsChip = s.dev.ddsChip)) ∧
    (∀ c, p = latchPin c → x = .output → s.dev.xdir[idx s.board v p] = .input → s.AttRunning →
      t.dev.staging = s.dev.staging ∧ (s.NotStreaming → t.dev.ddsChip = s.dev.ddsChip) ∧
      (t.dev.output = s.dev.output ∨
        s.dev.xlat[idx s.board v p] = .high ∧
          t.dev.output = s.dev.output.set (chanIndex c) s.dev.staging[chanIndex c])) ∧
    (p = .attRstN → s.dev.xdir[idx s.board v p] ≠ x →
      (s.NotStreaming → t.dev.ddsChip = s.dev.ddsChip) ∧
      (t.dev.staging = Vector.replicate 4 s.board.attResetByte ∧
          t.dev.output = Vector.replicate 4 s.board.attResetByte ∨
        ¬(x = .output ∧ s.dev.xlat[idx s.board v p] = s.board.attRstActive) ∧
          t.dev.staging = s.dev.staging ∧ t.dev.output = s.dev.output)) ∧
    (p = .ddsReset → s.dev.xdir[idx s.board v p] ≠ x →
      t.dev.staging = s.dev.staging ∧ t.dev.output = s.dev.output ∧
      (s.NotStreaming → t.dev.ddsChip = s.board.ddsPowerOn ∨
        ¬(x = .output ∧ s.dev.xlat[idx s.board v p] = s.board.ddsRstActive) ∧ t.dev.ddsChip = s.dev.ddsChip))

/-- R117, R58, R190: a GPIO command whose transaction ends with a bus error answers `I2c`, and one whose transaction never
completes answers nothing and stays at its micro-step; in either case the element named holds its old value or the one written.
That every other pin register keeps its value then is DEDUCED (R58, R60 and R119 speak of the pin named alone, over
91_not_in_source.md N7 and D29; log 32). -/
def Obligations.GpioErrorLeavesOldOrNewElement : Prop :=
  ∀ (s : State) (v : Variant) (p : GpioPin) (l : Level) (x : Dir), s.Accepting → s.Selected v →
    ((s.upcoming 0).outcome = .error →
      (∃ t, exec (.gpioSetLevel p l) s = .next t ∧ t.io.responses = s.io.responses ++ [[0x02]] ∧
        t.io.trace = s.io.trace ++ [.expLevel v (idx s.board v p) l .error] ∧ t.blk = s.blk ∧ t.dev.xdir = s.dev.xdir ∧
        (t.dev.xlat = s.dev.xlat ∨ t.dev.xlat = s.dev.xlat.set (idx s.board v p) l)) ∧
      (∃ t, exec (.gpioSetDirection p x) s = .next t ∧ t.io.responses = s.io.responses ++ [[0x02]] ∧
        t.io.trace = s.io.trace ++ [.expDir v (idx s.board v p) x .error] ∧ t.blk = s.blk ∧ t.dev.xlat = s.dev.xlat ∧
        (t.dev.xdir = s.dev.xdir ∨ t.dev.xdir = s.dev.xdir.set (idx s.board v p) x))) ∧
    ((s.upcoming 0).outcome = .stalled →
      (∃ t, exec (.gpioSetLevel p l) s = .next t ∧ t.io.responses = s.io.responses ∧
        t.io.trace = s.io.trace ++ [.expLevel v (idx s.board v p) l .stalled] ∧ t.blk = { s.blk with stepIx := 1 } ∧
        t.dev.xdir = s.dev.xdir ∧ (t.dev.xlat = s.dev.xlat ∨ t.dev.xlat = s.dev.xlat.set (idx s.board v p) l)) ∧
      (∃ t, exec (.gpioSetDirection p x) s = .next t ∧ t.io.responses = s.io.responses ∧
        t.io.trace = s.io.trace ++ [.expDir v (idx s.board v p) x .stalled] ∧ t.blk = { s.blk with stepIx := 1 } ∧
        t.dev.xlat = s.dev.xlat ∧ (t.dev.xdir = s.dev.xdir ∨ t.dev.xdir = s.dev.xdir.set (idx s.board v p) x)))

/-- R22, R118: once detection has chosen a variant no step changes it, and no command after INIT probes again. -/
def Obligations.VariantIsChosenOnce : Prop :=
  ∀ s t : State, Inv s → step s = .next t → s.blk.variant ≠ none →
    t.blk.variant = s.blk.variant ∧
    ∃ added : List BusEvent, t.io.trace = s.io.trace ++ added ∧ ∀ e ∈ added, ∀ v r, e ≠ .expProbe v r

/-- R116, R173, R184: every expander write of every command names the selected variant and, on its map, the index of the pin the
command acts on: the pin named by a GPIO command, the channel's latch pin in ATT_SET, and in INIT, with the variant the probe has selected, the
pins of the pin phase and the two reset pins in order (R166), as far as INIT comes; no other command makes such a write.
INIT stops at the first write that does not end ok: every write but the last has completed; the last ended with a bus error
exactly when INIT has answered `I2c` and failed, it never completed exactly when INIT has answered nothing, and all 36 have
completed exactly when it has answered success. -/
def Obligations.ExpanderWritesNameTheSelectedVariant : Prop :=
  (∀ (s t : State) (v : Variant) (p : GpioPin) (l : Level), s.blk.variant = some v → exec (.gpioSetLevel p l) s = .next t →
      ∃ r, t.io.trace = s.io.trace ++ [.expLevel v (idx s.board v p) l r]) ∧
    (∀ (s t : State) (v : Variant) (p : GpioPin) (x : Dir), s.blk.variant = some v →
      exec (.gpioSetDirection p x) s = .next t →
      ∃ r, t.io.trace = s.io.trace ++ [.expDir v (idx s.board v p) x r]) ∧
    (∀ (s t : State) (v : Variant) (c : Channel) (y : BitVec 32), s.blk.variant = some v → exec (.attSet c y) s = .next t →
      ∃ added : List BusEvent, t.io.trace = s.io.trace ++ added ∧
        (∀ w k l r, .expLevel w k l r ∈ added → w = v ∧ k = idx s.board v (latchPin c)) ∧ ∀ w k x r, .expDir w k x r ∉ added) ∧
    (∀ s t : State, exec .init s = .next t →
      ∃ r rest, t.io.trace = s.io.trace ++ .expProbe .a r :: rest ∧
        (r = .stalled → rest = [] ∧ t.io.responses = s.io.responses) ∧
        (r ≠ .stalled → ∃ v, t.blk.variant = some v ∧ rest.map BusEvent.asCompleted <+: initWrites s.board v ∧
          (∀ e ∈ rest.dropLast, e.outcome = some .ok) ∧
          ((∃ e, rest.getLast? = some e ∧ e.outcome = some .error) ↔
            t.io.responses = s.io.responses ++ [[0x02]] ∧ t.blk.phase = .failed) ∧
          ((∃ e, rest.getLast? = some e ∧ e.outcome = some .stalled) ↔ t.io.responses = s.io.responses) ∧
          (rest = initWrites s.board v ↔ t.io.responses = s.io.responses ++ [[0x00]] ∧ t.blk.phase = .ready))) ∧
    ∀ (i : Instr) (s t : State), exec i s = .next t → i ≠ .init → (∀ p l, i ≠ .gpioSetLevel p l) →
      (∀ p x, i ≠ .gpioSetDirection p x) → (∀ c y, i ≠ .attSet c y) →
      ∃ added : List BusEvent, t.io.trace = s.io.trace ++ added ∧
        ∀ w k, (∀ l r, .expLevel w k l r ∉ added) ∧ ∀ x r, .expDir w k x r ∉ added

/-! ## The attenuators -/

/-- R146: ATT_SET's operand is valid exactly when it is finite and denotes a number in [0, 31.5], negative zero among them;
every other operand raises `Bounds` before any bus transaction, and changes nothing else (the stored `DDSCHIP` of a streaming chip is
kept too, there being no primitive to draw it at: the model's choice, log 29). -/
def Obligations.InvalidAttenuationRaisesBounds : Prop :=
  (∀ x : BitVec 32, attValid x = true ↔ f32Finite x = true ∧ 0 ≤ f32Val x ∧ f32Val x ≤ 63 / 2) ∧
    attValid 0x80000000 = true ∧ f32Val 0x80000000 = 0 ∧
    ∀ (s : State) (c : Channel) (x : BitVec 32), s.Accepting →
      ¬(f32Finite x = true ∧ 0 ≤ f32Val x ∧ f32Val x ≤ 63 / 2) →
      exec (.attSet c x) s = .next { s with io := { s.io with responses := s.io.responses ++ [[0x04]] } }

/-- R147: a byte's attenuation is `((~byte) >> 2) / 2` dB: a half-integer 0 to 31.5, exact in binary32, independent of the low
two bits. -/
def Obligations.AttenuationOfAByte : Prop :=
  ∀ b : Byte,
    attOf b = (((~~~b) >>> 2).toNat : ℚ) / 2 ∧ codeOf b ≤ 63 ∧ f32Val (f32OfHalf (codeOf b)) = attOf b ∧
      f32Finite (f32OfHalf (codeOf b)) = true ∧
      ∀ b' : Byte, b' >>> 2 = b >>> 2 → attOf b' = attOf b

/-- R148: the code of a valid operand is `floor(2 * val(x))`, 0 to 63; its byte is `~(code << 2) = ((63 - code) << 2) | 3`, which
decodes to `code / 2`. -/
def Obligations.CodeIsTheFloorOfTwiceTheValue : Prop :=
  (∀ x : BitVec 32, attValid x = true → (attCode x : ℤ) = ⌊2 * f32Val x⌋ ∧ attCode x ≤ 63) ∧
    ∀ code : Nat, code ≤ 63 →
      byteOf code = (BitVec.ofNat 8 (63 - code) <<< 2) ||| 3 ∧ attOf (byteOf code) = (code : ℚ) / 2

/-- R150, R152: ATT_SET of a valid operand whose transactions complete answers `code / 2`, the value the hardware applies, at
most the operand and less than half a dB below it; it makes two transfers and one latch pulse, whatever the pin's direction and
whether or not the attenuators are held in reset, and of the registers changes only `BUF`, the chain, the latch pin's level and
`QBUSY` (and `DDSCHIP` while it streams, log 29); the array it sends is the one it read with the target channel's byte replaced. -/
def Obligations.AttSetAnswersTheAppliedValue : Prop :=
  ∀ (s : State) (v : Variant) (c : Channel) (x : BitVec 32), s.Accepting → s.Selected v → s.board.admissible →
    attValid x = true → s.NextOk 4 →
    (attCode x : ℚ) / 2 ≤ f32Val x ∧ f32Val x < (attCode x : ℚ) / 2 + 1 / 2 ∧
    f32Val (f32OfHalf (attCode x)) = (attCode x : ℚ) / 2 ∧
    ∃ t w rx rx', exec (.attSet c x) s = .next t ∧
      t.blk = { s.blk with buf := w } ∧ w = rx.set (chanIndex c) (byteOf (attCode x)) ∧ t.board = s.board ∧
      t.dev.xdir = s.dev.xdir ∧ t.dev.xlat = s.dev.xlat.set (idx s.board v (latchPin c)) .high ∧
      t.dev.qbusy = false ∧ t.dev.qstream = s.dev.qstream ∧ (s.NotStreaming → t.dev.ddsChip = s.dev.ddsChip) ∧
      t.io = { s.io with
        env := s.io.env.drop 4
        draws := s.io.draws + 4
        trace := s.io.trace ++ [.spiXfer #v[0, 0, 0, 0] .ok (some rx), .spiXfer w .ok (some rx'),
          .expLevel v (idx s.board v (latchPin c)) .low .ok, .expLevel v (idx s.board v (latchPin c)) .high .ok]
        responses := s.io.responses ++ [0x00 :: bytesOfWord32 (f32OfHalf (attCode x))] }

/-- R150: with the attenuators running, a completed ATT_SET puts the byte of its code in `S[k]` and nowhere else in `S`; with the
latch pin an output it puts it in `O[k]` too, and with the latch pin an input `O` is unchanged (R153). -/
def Obligations.AttSetChangesOneChannel : Prop :=
  ∀ (s t : State) (v : Variant) (c : Channel) (x : BitVec 32), s.Accepting → s.Selected v → s.board.admissible →
    attValid x = true → s.NextOk 4 → s.AttRunning → exec (.attSet c x) s = .next t →
    t.dev.staging = s.dev.staging.set (chanIndex c) (byteOf (attCode x)) ∧
    t.blk.buf = s.dev.staging.set (chanIndex c) (byteOf (attCode x)) ∧
    t.dev.output =
      if s.PinOutput v (latchPin c) then s.dev.output.set (chanIndex c) (byteOf (attCode x)) else s.dev.output

/-- R155, R156: with the attenuators running, ATT_GET whose transfers complete answers the attenuation of the staging byte,
decoded from the first transfer's bytes, and leaves `S` and `O` as they were; only `BUF`, `CAP` and `QBUSY` change beside them
(and `DDSCHIP` while it streams, log 29). -/
def Obligations.AttGetReadsAndRestores : Prop :=
  ∀ (s : State) (c : Channel), s.Accepting → s.NextOk 2 → s.AttRunning →
    ∃ chip : DdsChip, (s.NotStreaming → chip = s.dev.ddsChip) ∧
      exec (.attGet c) s =
        .next { s with
          blk := { s.blk with buf := s.dev.staging, cap := s.dev.staging }
          dev := { s.dev with qbusy := false, ddsChip := chip }
          io := { s.io with
            env := s.io.env.drop 2
            draws := s.io.draws + 2
            trace := s.io.trace ++ [.spiXfer #v[0, 0, 0, 0] .ok (some s.dev.staging),
              .spiXfer s.dev.staging .ok (some #v[0, 0, 0, 0])]
            responses := s.io.responses ++ [0x00 :: bytesOfWord32 (f32OfHalf (codeOf s.dev.staging[chanIndex c]))] } }

/-- R35, R37, R155, U10: with the attenuators held in reset, or their reset line undriven (log 30), ATT_GET whose transfers
complete still answers the attenuation of the byte the first transfer returned, whatever that is; no pin register, and of the
4-wire devices only `QBUSY`, changes (and `DDSCHIP` while it streams, log 29). -/
def Obligations.AttGetInResetAnswersWhatItRead : Prop :=
  ∀ (s : State) (c : Channel), s.Accepting → s.NextOk 2 → ¬s.AttRunning →
    ∃ t rx rx', exec (.attGet c) s = .next t ∧
      t.blk = { s.blk with buf := rx, cap := rx } ∧ t.board = s.board ∧
      t.dev =
        { s.dev with staging := t.dev.staging, output := t.dev.output, qbusy := false, ddsChip := t.dev.ddsChip } ∧
      (s.NotStreaming → t.dev.ddsChip = s.dev.ddsChip) ∧
      t.io = { s.io with
        env := s.io.env.drop 2
        draws := s.io.draws + 2
        trace := s.io.trace ++ [.spiXfer #v[0, 0, 0, 0] .ok (some rx), .spiXfer rx .ok (some rx')]
        responses := s.io.responses ++ [0x00 :: bytesOfWord32 (f32OfHalf (codeOf rx[chanIndex c]))] }

/-- R157: ATT_SET followed at once by ATT_GET of the same channel, both completing, answers the same bytes twice:
`floor(2 val(x)) / 2`, which is `val(x)` itself when that is a multiple of a half; from any `S` and `O`. -/
def Obligations.AttenuationRoundTrip : Prop :=
  ∀ (s t : State) (v : Variant) (c : Channel) (x : BitVec 32), s.Accepting → s.Selected v → s.board.admissible →
    attValid x = true → s.NextOk 6 → s.AttRunning → exec (.attSet c x) s = .next t →
    ∃ u, exec (.attGet c) t = .next u ∧
      u.io.responses = s.io.responses ++
        [0x00 :: bytesOfWord32 (f32OfHalf (attCode x)), 0x00 :: bytesOfWord32 (f32OfHalf (attCode x))] ∧
      f32Val (f32OfHalf (attCode x)) = (⌊2 * f32Val x⌋ : ℚ) / 2 ∧
      ∀ m : ℤ, f32Val x = (m : ℚ) / 2 → f32Val (f32OfHalf (attCode x)) = f32Val x

/-- R41: a synchronised chain stays synchronised over an ATT_SET or an ATT_GET that completes, with the attenuators running and
the channel's latch pin an output. -/
def Obligations.AttenuatorCommandsKeepSynchronisation : Prop :=
  ∀ (s : State) (v : Variant) (c : Channel) (x : BitVec 32), s.Accepting → s.Selected v → s.board.admissible →
    s.NextOk 4 → s.AttRunning → s.PinOutput v (latchPin c) → s.Synchronised →
    (∀ t, exec (.attSet c x) s = .next t → t.Synchronised) ∧ ∀ t, exec (.attGet c) s = .next t → t.Synchronised

/-- R217: from any `S` and `O`, the chain is synchronised again once a valid ATT_SET of each of the four channels, in any order,
has completed. -/
def Obligations.FourAttSetsResynchronise : Prop :=
  ∀ (v : Variant) (s0 s1 s2 s3 s4 : State) (c1 c2 c3 c4 : Channel) (x1 x2 x3 x4 : BitVec 32),
    [c1, c2, c3, c4].Nodup → attValid x1 = true → attValid x2 = true → attValid x3 = true → attValid x4 = true →
    s0.Accepting → s0.Selected v → s0.board.admissible → s0.NextOk 16 → s0.AttRunning →
    (∀ c, s0.PinOutput v (latchPin c)) →
    exec (.attSet c1 x1) s0 = .next s1 → exec (.attSet c2 x2) s1 = .next s2 → exec (.attSet c3 x3) s2 = .next s3 →
    exec (.attSet c4 x4) s3 = .next s4 → s4.Synchronised

/-- R158: what an ATT_SET or ATT_GET cut short by a bus error leaves, step by step: the error of the failing bus, no later step,
and no pin register changed but the latch of the channel's latch pin (as it was or `Low` after step 3, `Low` or `High` after
step 4; that the other pin registers keep their values then is DEDUCED, log 32).
With the attenuators running, a failed transfer leaves `O` unchanged (`S` is unspecified), and a failed latch step leaves the new
array in `S` and in `O[k]` the old or the new byte; where the reset line is at its active level or undriven, `S` and `O` may
become anything (R35, R37, U10; log 30). -/
def Obligations.AttenuatorErrorsKeepEarlierEffects : Prop :=
  ∀ (s : State) (v : Variant) (c : Channel) (x : BitVec 32), s.Accepting → s.Selected v → s.board.admissible →
    attValid x = true →
    let fill : Quad := #v[0, 0, 0, 0]
    let byte := byteOf (attCode x)
    let pin := idx s.board v (latchPin c)
    ((s.upcoming 0).outcome = .error →
      ∃ t, exec (.attSet c x) s = .next t ∧ t.io.responses = s.io.responses ++ [[0x01]] ∧
        t.io.trace = s.io.trace ++ [.spiXfer fill .error none] ∧
        t.dev.xdir = s.dev.xdir ∧ t.dev.xlat = s.dev.xlat ∧ (s.AttRunning → t.dev.output = s.dev.output)) ∧
    (s.NextOk 1 → (s.upcoming 1).outcome = .error →
      ∃ t rx, exec (.attSet c x) s = .next t ∧ t.io.responses = s.io.responses ++ [[0x01]] ∧
        t.io.trace = s.io.trace ++ [.spiXfer fill .ok (some rx), .spiXfer (rx.set (chanIndex c) byte) .error none] ∧
        t.dev.xdir = s.dev.xdir ∧ t.dev.xlat = s.dev.xlat ∧ (s.AttRunning → t.dev.output = s.dev.output)) ∧
    (s.NextOk 2 → (s.upcoming 2).outcome = .error →
      ∃ t rx rx', exec (.attSet c x) s = .next t ∧ t.io.responses = s.io.responses ++ [[0x02]] ∧
        t.io.trace = s.io.trace ++ [.spiXfer fill .ok (some rx), .spiXfer (rx.set (chanIndex c) byte) .ok (some rx'),
          .expLevel v pin .low .error] ∧
        t.dev.xdir = s.dev.xdir ∧ (t.dev.xlat = s.dev.xlat ∨ t.dev.xlat = s.dev.xlat.set pin .low) ∧
        (s.AttRunning → t.dev.staging = s.dev.staging.set (chanIndex c) byte ∧ t.dev.output = s.dev.output)) ∧
    (s.NextOk 3 → (s.upcoming 3).outcome = .error →
      ∃ t rx rx', exec (.attSet c x) s = .next t ∧ t.io.responses = s.io.responses ++ [[0x02]] ∧
        t.io.trace = s.io.trace ++ [.spiXfer fill .ok (some rx), .spiXfer (rx.set (chanIndex c) byte) .ok (some rx'),
          .expLevel v pin .low .ok, .expLevel v pin .high .error] ∧
        t.dev.xdir = s.dev.xdir ∧ (t.dev.xlat = s.dev.xlat.set pin .low ∨ t.dev.xlat = s.dev.xlat.set pin .high) ∧
        (s.AttRunning → t.dev.staging = s.dev.staging.set (chanIndex c) byte ∧
          (t.dev.output = s.dev.output ∨ t.dev.output = s.dev.output.set (chanIndex c) byte))) ∧
    ((s.upcoming 0).outcome = .error →
      ∃ t, exec (.attGet c) s = .next t ∧ t.io.responses = s.io.responses ++ [[0x01]] ∧
        t.io.trace = s.io.trace ++ [.spiXfer fill .error none] ∧
        t.dev.xdir = s.dev.xdir ∧ t.dev.xlat = s.dev.xlat ∧ (s.AttRunning → t.dev.output = s.dev.output)) ∧
    (s.NextOk 1 → (s.upcoming 1).outcome = .error →
      ∃ t rx, exec (.attGet c) s = .next t ∧ t.io.responses = s.io.responses ++ [[0x01]] ∧
        t.io.trace = s.io.trace ++ [.spiXfer fill .ok (some rx), .spiXfer rx .error none] ∧ t.blk.cap = rx ∧
        t.dev.xdir = s.dev.xdir ∧ t.dev.xlat = s.dev.xlat ∧ (s.AttRunning → t.dev.output = s.dev.output))

/-! ## Initialisation and reset -/

/-- R43, R205: after block reset `PHASE = Uninit`, `VARIANT = None`, `MODE = NarrowCompat`, `STREAMING = false`, `STEP = 0` and
`QSTREAM = false`.
Everything else is unspecified there, and no statement rests on it; that nothing is presented, scripted or recorded is the
model's own choice (log 3, 4, 22). -/
def Obligations.BlockResetValues : Prop :=
  State.reset.blk.phase = .uninit ∧ State.reset.blk.variant = none ∧ State.reset.blk.mode = .narrowCompat ∧
    State.reset.blk.streaming = false ∧ State.reset.blk.stepIx = 0 ∧ State.reset.dev.qstream = false

/-- R44, R166, R167, R172: INIT whose transactions complete, on a board with a fitted chip, ends in the state every other command
starts from: 37 transactions in order, the fitted variant selected, all pins outputs, all `Low` but the two reset pins at their
inactive levels, the attenuators at `ATT_RESET_BYTE`, the DDS chip in its power-on state.
The Variant A probe completes on a Variant A board, and on a Variant B board it ends with a bus error (log 8).
That the pulses reset their devices whatever level the lines had before INIT follows R44; the model knows no level before INIT has
ended (R42; log 9).
The DDS chip's clause is under `NotStreaming`, which the invariant gives before INIT. -/
def Obligations.InitEndsInTheReadyState : Prop :=
  ∀ (s : State) (v : Variant), s.blk.stepIx = 0 → s.blk.phase = .uninit → s.board.admissible → s.board.fitted = some v →
    (v = .a → (s.upcoming 0).outcome = .ok) → (v = .b → (s.upcoming 0).outcome ≠ .stalled) →
    (∀ j, 1 ≤ j → j < 37 → (s.upcoming j).outcome = .ok) →
    ∃ t, exec .init s = .next t ∧
      t.blk = { s.blk with phase := .ready, variant := some v } ∧ t.board = s.board ∧
      (∀ i : Fin 16, t.dev.xdir[i] = .output) ∧
      (∀ p, t.dev.xlat[idx s.board v p] =
        if p = .attRstN then otherLevel s.board.attRstActive
        else if p = .ddsReset then otherLevel s.board.ddsRstActive else .low) ∧
      t.dev.staging = Vector.replicate 4 s.board.attResetByte ∧
      t.dev.output = Vector.replicate 4 s.board.attResetByte ∧
      (s.NotStreaming → t.dev.ddsChip = s.board.ddsPowerOn) ∧ t.dev.qbusy = false ∧ t.dev.qstream = s.dev.qstream ∧
      t.io = { s.io with
        env := s.io.env.drop 37
        draws := s.io.draws + 37
        trace := s.io.trace ++ [.expProbe .a (if v = .a then .ok else .error)] ++
          allPins.flatMap (fun p =>
            [.expLevel v (idx s.board v p) .low .ok, .expDir v (idx s.board v p) .output .ok]) ++
          [.expLevel v (idx s.board v .attRstN) s.board.attRstActive .ok,
           .expLevel v (idx s.board v .attRstN) (otherLevel s.board.attRstActive) .ok,
           .expLevel v (idx s.board v .ddsReset) s.board.ddsRstActive .ok,
           .expLevel v (idx s.board v .ddsReset) (otherLevel s.board.ddsRstActive) .ok]
        responses := s.io.responses ++ [[0x00]] }

/-- R113, R114, R115: the probe decides the variant: `A` when it ends ok, `B` when it ends with a bus error, whether or not a
Variant B chip is there; in both cases INIT goes on to its first pin write, addressed to that variant, so a failed probe raises
nothing; a probe that never completes leaves INIT at its first micro-step.
That a chip that is not there answers no probe is R114 read for every board (log 8). -/
def Obligations.ProbeDecidesTheVariant : Prop :=
  ∀ (s t : State), s.blk.stepIx = 0 → s.blk.phase = .uninit → exec .init s = .next t →
    ((s.board.fitted = some .a ∧ (s.upcoming 0).outcome = .ok) →
      t.blk.variant = some .a ∧
      ∃ r rest, t.io.trace = s.io.trace ++ .expProbe .a .ok :: .expLevel .a (idx s.board .a .led4Green) .low r :: rest) ∧
    ((s.board.fitted ≠ some .a ∧ (s.upcoming 0).outcome ≠ .stalled ∨ (s.upcoming 0).outcome = .error) →
      t.blk.variant = some .b ∧
      ∃ r rest, t.io.trace = s.io.trace ++ .expProbe .a .error :: .expLevel .b (idx s.board .b .led4Green) .low r :: rest) ∧
    ((s.upcoming 0).outcome = .stalled →
      t.blk.variant = s.blk.variant ∧ t.blk.stepIx = 1 ∧ t.io.responses = s.io.responses ∧
      t.io.trace = s.io.trace ++ [.expProbe .a .stalled])

/-- R115, R173: on a board with neither chip, the first expander write after the failed probe ends with a bus error, INIT raises
`I2c`, and `PHASE = Failed`; later steps are not made.
That an absent chip never acknowledges is R114 and R115 read for every transaction (log 8). -/
def Obligations.InitWithoutAChipFails : Prop :=
  ∀ s : State, s.blk.stepIx = 0 → s.blk.phase = .uninit → s.board.fitted = none →
    (s.upcoming 0).outcome ≠ .stalled → (s.upcoming 1).outcome ≠ .stalled →
    ∃ chip : DdsChip, (s.NotStreaming → chip = s.dev.ddsChip) ∧
      exec .init s =
        .next { s with
          blk := { s.blk with phase := .failed, variant := some .b }
          dev := { s.dev with qbusy := false, ddsChip := chip }
          io := { s.io with
            env := s.io.env.drop 2
            draws := s.io.draws + 2
            trace := s.io.trace ++ [.expProbe .a .error, .expLevel .b (idx s.board .b .led4Green) .low .error]
            responses := s.io.responses ++ [[0x02]] } }

/-- R193: `PHASE = Failed` is left only by block reset: from it no step answers another phase. -/
def Obligations.FailedIsLasting : Prop :=
  ∀ (s t : State), s.blk.phase = .failed → step s = .next t → t = s

/-- R175: INIT issues no SPI transfer and no transaction on the 4-wire bus, and writes neither `MODE` nor `STREAMING` nor the
data registers. -/
def Obligations.InitUsesTheExpanderOnly : Prop :=
  ∀ s t : State, exec .init s = .next t →
    t.blk.mode = s.blk.mode ∧ t.blk.streaming = s.blk.streaming ∧ t.blk.enc = s.blk.enc ∧ t.blk.buf = s.blk.buf ∧
    t.blk.cap = s.blk.cap ∧
    ∃ added : List BusEvent, t.io.trace = s.io.trace ++ added ∧
      ∀ e ∈ added, (∃ v r, e = .expProbe v r) ∨ (∃ v i l r, e = .expLevel v i l r) ∨ ∃ v i x r, e = .expDir v i x r

/-! ## The whole machine -/

/-- The invariant holds at block reset, whatever the values R43 leaves unspecified. -/
def Obligations.ResetMeetsTheInvariant : Prop := Inv State.reset

/-- Every step keeps the machine's invariant: admissible parameters, streaming in step with the peripheral, the selected variant
the fitted one once initialised, reset values of the encoder before, `STEP` within the longest sequence.
That the selected variant is the fitted one rests on log 8. -/
def Obligations.EveryStepKeepsTheInvariant : Prop :=
  ∀ s t : State, Inv s → step s = .next t → Inv t

/-- From a state of the invariant no step ends in a fault. -/
def Obligations.NoFaultFromTheInvariant : Prop :=
  ∀ (s : State) (f : Fault), Inv s → step s ≠ .fault f

/-- R183: no command ever answers `InvalidChannel` or `Adc`. -/
def Obligations.InvalidChannelAndAdcAreNeverRaised : Prop :=
  ∀ s t : State, step s = .next t →
    t.io.responses = s.io.responses ∨
      ∃ status result, t.io.responses = s.io.responses ++ [status :: result] ∧ status ≠ 0x06 ∧ status ≠ 0x07

/-- R28, R58: the write columns of the register table, for every command and every outcome of its transactions: a block register
a command is not listed as writing keeps its value. -/
def Obligations.BlockRegisterFrame : Prop :=
  ∀ (i : Instr) (s t : State), exec i s = .next t →
    (i ≠ .init → t.blk.variant = s.blk.variant ∧ t.blk.phase = s.blk.phase) ∧
    ((∀ m, i ≠ .ddsConfigureMode m) → t.blk.mode = s.blk.mode) ∧
    (i ≠ .ddsStartStream → t.blk.streaming = s.blk.streaming) ∧
    ((∀ a p, i ≠ .ddsWrite a p) ∨ s.blk.mode = .native → t.blk.enc = s.blk.enc) ∧
    ((∀ c x, i ≠ .attSet c x) → (∀ c, i ≠ .attGet c) → t.blk.buf = s.blk.buf) ∧
    ((∀ c, i ≠ .attGet c) → t.blk.cap = s.blk.cap)

/-- R33 to R41, R58: the device frame, for every command and every outcome of its transactions: the chain changes only by the
attenuator commands, by a pin command on a latch pin or `AttRstN`, and by INIT; the pin registers only by pin commands, ATT_SET
and INIT, and by a pin command only at the pin it names; the DDS chip, while it does not stream, only by the DDS transfers, by
a DDS_START_STREAM that makes the override, by a pin command on `DdsReset`, and by INIT; `QSTREAM` only by DDS_START_STREAM.
That `S`, `O` and `DDSCHIP` keep their stored values over the other commands while a reset line is undriven, where R37 knows no level of
it, is the model's DESIGN CHOICE (log 30).
What a streaming chip becomes the spec leaves open (U14; log 29), and what a pin command that fails or never completes leaves in the
other pin registers is DEDUCED (log 32). -/
def Obligations.DeviceFrame : Prop :=
  ∀ (i : Instr) (s t : State), s.board.admissible → exec i s = .next t →
    ((∀ c x, i ≠ .attSet c x) → (∀ c, i ≠ .attGet c) → i ≠ .init →
      (∀ p l, i = .gpioSetLevel p l → (∀ c, p ≠ latchPin c) ∧ p ≠ .attRstN) →
      (∀ p x, i = .gpioSetDirection p x → (∀ c, p ≠ latchPin c) ∧ p ≠ .attRstN) →
      t.dev.staging = s.dev.staging ∧ t.dev.output = s.dev.output) ∧
    ((∀ p l, i ≠ .gpioSetLevel p l) → (∀ c x, i ≠ .attSet c x) → i ≠ .init → t.dev.xlat = s.dev.xlat) ∧
    ((∀ p x, i ≠ .gpioSetDirection p x) → i ≠ .init → t.dev.xdir = s.dev.xdir) ∧
    (∀ p l v, i = .gpioSetLevel p l → s.blk.variant = some v →
      ∀ j : Fin 16, j ≠ idx s.board v p → t.dev.xlat[j] = s.dev.xlat[j]) ∧
    (∀ p x v, i = .gpioSetDirection p x → s.blk.variant = some v →
      ∀ j : Fin 16, j ≠ idx s.board v p → t.dev.xdir[j] = s.dev.xdir[j]) ∧
    (s.NotStreaming → (∀ a p, i ≠ .ddsWrite a p) → (∀ a n, i ≠ .ddsRead a n) → i ≠ .init →
      (i = .ddsStartStream → t.dev.qstream = false) → (∀ l, i ≠ .gpioSetLevel .ddsReset l) →
      (∀ x, i ≠ .gpioSetDirection .ddsReset x) →
      t.dev.ddsChip = s.dev.ddsChip) ∧
    (i ≠ .ddsStartStream → t.dev.qstream = s.dev.qstream)
end

