-- ==== Sys2Proof/Laws/Arithmetic.lean ====
section
/-! SUPPORT. The binary32 operand and the attenuator byte, over the 64 codes and the exact units. -/

namespace Sys2Proof.Machine

theorem codeOf_byteOf (code : Fin 64) : codeOf (byteOf code) = code.val := by revert code; decide

theorem codeOf_le (b : Byte) : codeOf b ≤ 63 := by revert b; decide

/-- The binary32 datum of a code is finite and positive, and half the code in units (R150). -/
theorem f32OfHalf_fields (code : Fin 64) :
    f32Finite (f32OfHalf code) = true ∧ f32Negative (f32OfHalf code) = false ∧
      f32Units (f32OfHalf code) = code * 2 ^ 148 := by
  revert code; decide

theorem f32Val_nonneg_iff (x : BitVec 32) : 0 ≤ f32Val x ↔ f32Negative x = false ∨ f32Units x = 0 := by
  unfold f32Val
  cases h : f32Negative x
  · simp; positivity
  · simp only [if_true, Bool.true_eq_false, false_or]
    constructor
    · intro hle
      by_contra hne
      have hpos : (0 : ℚ) < (f32Units x : ℚ) / 2 ^ 149 := by
        have : (0 : ℚ) < (f32Units x : ℚ) := by exact_mod_cast Nat.pos_of_ne_zero hne
        positivity
      rw [neg_one_mul, neg_div] at hle
      exact absurd hle (by simpa using hpos)
    · intro h0; simp [h0]

end Sys2Proof.Machine
end

