-- ==== Sys2Proof/Laws/State.lean ====
section
/-! SUPPORT. The updates of State, field by field. -/

namespace Sys2Proof.Machine

section
variable (s : State) (e : BusEvent) (d : Devices) (r : List Byte) (k : Nat)

@[simp] theorem accept_blk : s.accept.blk = { s.blk with stepIx := 1 } := rfl
@[simp] theorem accept_dev : s.accept.dev = s.dev := rfl
@[simp] theorem accept_board : s.accept.board = s.board := rfl
@[simp] theorem accept_io : s.accept.io = s.io := rfl

@[simp] theorem advance_blk : s.advance.blk = { s.blk with stepIx := s.blk.stepIx + 1 } := rfl
@[simp] theorem advance_dev : s.advance.dev = s.dev := rfl
@[simp] theorem advance_board : s.advance.board = s.board := rfl
@[simp] theorem advance_io : s.advance.io = s.io := rfl

@[simp] theorem record_blk : (s.record e).blk = s.blk := rfl
@[simp] theorem record_dev : (s.record e).dev = s.dev := rfl
@[simp] theorem record_board : (s.record e).board = s.board := rfl
@[simp] theorem record_io : (s.record e).io = { s.io with trace := s.io.trace ++ [e] } := rfl

section
variable (p : Phase) (v : Variant) (m : Mode) (w : Quad) (x : Vector Byte 12)

@[simp] theorem setPhase_blk : (s.setPhase p).blk = { s.blk with phase := p } := rfl
@[simp] theorem setPhase_dev : (s.setPhase p).dev = s.dev := rfl
@[simp] theorem setPhase_board : (s.setPhase p).board = s.board := rfl
@[simp] theorem setPhase_io : (s.setPhase p).io = s.io := rfl
@[simp] theorem upcoming_setPhase : (s.setPhase p).upcoming k = s.upcoming k := rfl

@[simp] theorem setVariant_blk : (s.setVariant v).blk = { s.blk with variant := some v } := rfl
@[simp] theorem setVariant_dev : (s.setVariant v).dev = s.dev := rfl
@[simp] theorem setVariant_board : (s.setVariant v).board = s.board := rfl
@[simp] theorem setVariant_io : (s.setVariant v).io = s.io := rfl
@[simp] theorem upcoming_setVariant : (s.setVariant v).upcoming k = s.upcoming k := rfl

@[simp] theorem setMode_blk : (s.setMode m).blk = { s.blk with mode := m } := rfl
@[simp] theorem setMode_dev : (s.setMode m).dev = s.dev := rfl
@[simp] theorem setMode_board : (s.setMode m).board = s.board := rfl
@[simp] theorem setMode_io : (s.setMode m).io = s.io := rfl
@[simp] theorem upcoming_setMode : (s.setMode m).upcoming k = s.upcoming k := rfl

@[simp] theorem setStreaming_blk : (s.setStreaming).blk = { s.blk with streaming := true } := rfl
@[simp] theorem setStreaming_dev : (s.setStreaming).dev = s.dev := rfl
@[simp] theorem setStreaming_board : (s.setStreaming).board = s.board := rfl
@[simp] theorem setStreaming_io : (s.setStreaming).io = s.io := rfl
@[simp] theorem upcoming_setStreaming : (s.setStreaming).upcoming k = s.upcoming k := rfl

@[simp] theorem setBuf_blk : (s.setBuf w).blk = { s.blk with buf := w } := rfl
@[simp] theorem setBuf_dev : (s.setBuf w).dev = s.dev := rfl
@[simp] theorem setBuf_board : (s.setBuf w).board = s.board := rfl
@[simp] theorem setBuf_io : (s.setBuf w).io = s.io := rfl
@[simp] theorem upcoming_setBuf : (s.setBuf w).upcoming k = s.upcoming k := rfl

@[simp] theorem setCap_blk : (s.setCap w).blk = { s.blk with cap := w } := rfl
@[simp] theorem setCap_dev : (s.setCap w).dev = s.dev := rfl
@[simp] theorem setCap_board : (s.setCap w).board = s.board := rfl
@[simp] theorem setCap_io : (s.setCap w).io = s.io := rfl
@[simp] theorem upcoming_setCap : (s.setCap w).upcoming k = s.upcoming k := rfl

@[simp] theorem setEnc_blk : (s.setEnc x).blk = { s.blk with enc := x } := rfl
@[simp] theorem setEnc_dev : (s.setEnc x).dev = s.dev := rfl
@[simp] theorem setEnc_board : (s.setEnc x).board = s.board := rfl
@[simp] theorem setEnc_io : (s.setEnc x).io = s.io := rfl
@[simp] theorem upcoming_setEnc : (s.setEnc x).upcoming k = s.upcoming k := rfl

end

@[simp] theorem withDev_blk : (s.withDev d).blk = s.blk := rfl
@[simp] theorem withDev_dev : (s.withDev d).dev = d := rfl
@[simp] theorem withDev_board : (s.withDev d).board = s.board := rfl
@[simp] theorem withDev_io : (s.withDev d).io = s.io := rfl

@[simp] theorem respond_blk : (s.respond r).blk = { s.blk with stepIx := 0 } := rfl
@[simp] theorem respond_dev : (s.respond r).dev = s.dev := rfl
@[simp] theorem respond_board : (s.respond r).board = s.board := rfl
@[simp] theorem respond_io : (s.respond r).io = { s.io with responses := s.io.responses ++ [r] } := rfl

@[simp] theorem drawn_blk : (s.drawn k).blk = s.blk := rfl
@[simp] theorem drawn_dev : (s.drawn k).dev = s.dev := rfl
@[simp] theorem drawn_board : (s.drawn k).board = s.board := rfl
@[simp] theorem drawn_io : (s.drawn k).io = { s.io with env := s.io.env.drop k, draws := s.io.draws + k } := rfl

/-- Two states are equal when their four parts are. -/
theorem State.eq_of_parts {s t : State} (hb : s.blk = t.blk) (hd : s.dev = t.dev) (hp : s.board = t.board)
    (hi : s.io = t.io) : s = t := by
  cases s; cases t; simp_all

/-- Setting `STEP` to 0 in an idle block changes nothing. -/
theorem blk_idle {s : State} (h : s.blk.stepIx = 0) : { s.blk with stepIx := 0#6 } = s.blk := by
  rw [show (0#6) = s.blk.stepIx from h.symm]

/-- A command that ends at once after it was accepted changes nothing but the responses. -/
theorem respond_accept {s : State} (h : s.blk.stepIx = 0) (r : List Byte) :
    s.accept.respond r = { s with io := { s.io with responses := s.io.responses ++ [r] } } := by
  apply State.eq_of_parts <;> simp
  exact blk_idle h

theorem raise_eq (x : ErrorKind) (info : List Byte) : s.raise x info = s.respond (errorResponse x info) := rfl
theorem succeed_eq : s.succeed r = s.respond (successResponse r) := rfl

/-! The answers to come depend on the ports only, and an update that uses none leaves them. -/

theorem upcoming_congr {s t : State} (h : s.io.env = t.io.env) (hd : s.io.draws = t.io.draws) (k : Nat) :
    s.upcoming k = t.upcoming k := by
  simp only [State.upcoming, h, hd]

@[simp] theorem upcoming_accept : s.accept.upcoming k = s.upcoming k := rfl
@[simp] theorem upcoming_advance : s.advance.upcoming k = s.upcoming k := rfl
@[simp] theorem upcoming_record : (s.record e).upcoming k = s.upcoming k := rfl
@[simp] theorem upcoming_withDev : (s.withDev d).upcoming k = s.upcoming k := rfl
@[simp] theorem upcoming_respond : (s.respond r).upcoming k = s.upcoming k := rfl

/-! Whether levels are known depends on `PHASE` only. -/

@[simp] theorem trusted_accept : s.accept.trusted = s.trusted := rfl
@[simp] theorem trusted_advance : s.advance.trusted = s.trusted := rfl
@[simp] theorem trusted_record : (s.record e).trusted = s.trusted := rfl
@[simp] theorem trusted_withDev : (s.withDev d).trusted = s.trusted := rfl
@[simp] theorem trusted_drawn : (s.drawn k).trusted = s.trusted := rfl
@[simp] theorem trusted_setBuf (w : Quad) : (s.setBuf w).trusted = s.trusted := rfl
@[simp] theorem trusted_setVariant (v : Variant) : (s.setVariant v).trusted = s.trusted := rfl

/-- Once INIT has ended the levels of the lines are known (log 9). -/
theorem trusted_of_ready {s : State} (h : s.blk.phase = .ready) : s.trusted = true := by simp [State.trusted, h]

/-- Before, none is. -/
theorem trusted_of_uninit {s : State} (h : s.blk.phase = .uninit) : s.trusted = false := by simp [State.trusted, h]

@[simp] theorem upcoming_drawn (j : Nat) : (s.drawn k).upcoming j = s.upcoming (k + j) := by
  simp [State.upcoming, State.drawn, Nat.add_assoc]

@[simp] theorem drawn_drawn (j : Nat) : (s.drawn k).drawn j = s.drawn (k + j) := by
  simp [State.drawn, Nat.add_assoc]

end

end Sys2Proof.Machine
end

