-- ==== Sys2Proof/Laws/Ops.lean ====
section
/-! SUPPORT. One lemma per shared operation: what it answers, and what of the state it leaves. -/

namespace Sys2Proof.Machine

/-! ## Accepting a command -/

theorem inPhase_accepts {p : Phase} {s : State} (h0 : s.blk.stepIx = 0) (hp : s.blk.phase = p)
    (run : State → Host.Outcome State Fault Refusal) : inPhase p s run = run s.accept := by
  simp [inPhase, h0, hp]

theorem inPhase_wrong {p : Phase} {s : State} (h0 : s.blk.stepIx = 0) (hp : s.blk.phase ≠ p)
    (run : State → Host.Outcome State Fault Refusal) : inPhase p s run = .refused (.wrongPhase s.blk.phase) := by
  simp [inPhase, h0, hp]

theorem inPhase_busy {p : Phase} {s : State} (h : s.blk.stepIx ≠ 0)
    (run : State → Host.Outcome State Fault Refusal) : inPhase p s run = .refused .commandInProgress := by
  unfold inPhase
  rw [if_pos h]

/-- A command answers a next state only from an idle block in its phase. -/
theorem inPhase_next {p : Phase} {s t : State} {run : State → Host.Outcome State Fault Refusal}
    (h : inPhase p s run = .next t) : s.blk.stepIx = 0 ∧ s.blk.phase = p ∧ run s.accept = .next t := by
  unfold inPhase at h
  split at h
  · cases h
  · split at h
    · cases h
    · exact ⟨not_not.1 ‹_›, not_not.1 ‹_›, h⟩

theorem withVariant_some {s : State} {v : Variant} (h : s.blk.variant = some v)
    (run : Variant → Host.Outcome State Fault Refusal) : withVariant s run = run v := by
  simp only [withVariant, h]

theorem withVariant_next {s t : State} {run : Variant → Host.Outcome State Fault Refusal}
    (h : withVariant s run = .next t) : ∃ v, s.blk.variant = some v ∧ run v = .next t := by
  unfold withVariant at h
  split at h
  · exact ⟨_, ‹_›, h⟩
  · cases h

/-! ## Flows -/

section
variable {α β : Type}

@[simp] theorem bind_done (a : α) (s : State) (g : α → State → Flow β) : (Flow.done a s).bind g = g a s := rfl
@[simp] theorem bind_raised (k : ErrorKind) (info : List Byte) (s : State) (g : α → State → Flow β) :
    (Flow.raised k info s).bind g = .raised k info s := rfl
@[simp] theorem bind_stalled (s : State) (g : α → State → Flow β) : (Flow.stalled s).bind g = .stalled s := rfl

@[simp] theorem finish_done (r : List Byte) (s : State) : (Flow.done r s).finish = s.respond (successResponse r) := rfl
@[simp] theorem finish_raised (k : ErrorKind) (info : List Byte) (s : State) :
    (Flow.raised k info s : Flow (List Byte)).finish = s.respond (errorResponse k info) := rfl
@[simp] theorem finish_stalled (s : State) : (Flow.stalled s : Flow (List Byte)).finish = s := rfl

/-- `P` holds of the state a flow has reached, however it ended. -/
def Flow.All (P : State → Prop) : Flow α → Prop
  | .done _ s => P s
  | .raised _ _ s => P s
  | .stalled s => P s

theorem Flow.All.bind {P Q : State → Prop} {f : Flow α} {g : α → State → Flow β} (hf : f.All P)
    (hraise : ∀ s, P s → Q s) (hg : ∀ a s, P s → (g a s).All Q) : (f.bind g).All Q := by
  cases f with
  | done a s => exact hg a s hf
  | raised k info s => exact hraise s hf
  | stalled s => exact hraise s hf

theorem Flow.All.bind_same {P : State → Prop} {f : Flow α} {g : α → State → Flow β} (hf : f.All P)
    (hg : ∀ a s, P s → (g a s).All P) : (f.bind g).All P := hf.bind (fun _ h => h) hg

theorem Flow.All.imp {P Q : State → Prop} {f : Flow α} (hf : f.All P) (h : ∀ s, P s → Q s) : f.All Q := by
  cases f <;> exact h _ hf

theorem Flow.All.finish {P : State → Prop} {f : Flow (List Byte)} (hf : f.All P)
    (h : ∀ s r, P s → P (s.respond r)) : P f.finish := by
  cases f with
  | done r s => exact h _ _ hf
  | raised k info s => exact h _ _ hf
  | stalled s => exact hf

/-- A transaction that has ended goes on, raises its kind, or stays stuck, in the state it left. -/
theorem settle_all {P : State → Prop} {r : BusOutcome} {k : ErrorKind} {info : List Byte} {a : α} {s : State}
    (h : P s) (hadv : ∀ s, P s → P s.advance) : (settle r k info a s).All P := by
  cases r
  · exact hadv _ h
  · exact h
  · exact h

end

/-! ## Transactions that complete -/

theorem chipAnswer_fitted {b : Board} {v : Variant} (h : b.fitted = some v) (r : BusOutcome) : chipAnswer b v r = r := by
  simp [chipAnswer, h]

/-- A chip that is not there never completes a transaction without error (R114, R115). -/
theorem chipAnswer_ok {b : Board} {v : Variant} {r : BusOutcome} :
    chipAnswer b v r = .ok ↔ b.fitted = some v ∧ r = .ok := by
  unfold chipAnswer
  split
  · simp [*]
  · cases r <;> simp [*]

/-- A chip that does not stream keeps its state (R39). -/
theorem streamedChip_of_not {draw : Draw} {d : Devices} (h : d.qstream = false) : streamedChip draw d = d.ddsChip := by
  simp [streamedChip, h]

/-- A chip that has just become what the answer says is that, streaming or not. -/
@[simp] theorem streamedChip_drawn (draw : Draw) (d : Devices) :
    streamedChip draw { d with ddsChip := draw.chip } = draw.chip := by
  simp [streamedChip]

/-- Settling the 4-wire devices touches them alone (R40, log 13, 29). -/
theorem settleDevices_frame (r : BusOutcome) (draw : Draw) (d : Devices) :
    (settleDevices r draw d).staging = d.staging ∧ (settleDevices r draw d).output = d.output ∧
      (settleDevices r draw d).xdir = d.xdir ∧ (settleDevices r draw d).xlat = d.xlat ∧
      (settleDevices r draw d).qstream = d.qstream ∧ (d.qstream = false → (settleDevices r draw d).ddsChip = d.ddsChip) :=
  ⟨rfl, rfl, rfl, rfl, rfl, streamedChip_of_not⟩

/-- A probe leaves the 4-wire peripheral as it was, and everything where the chip probed is not the one fitted (log 31). -/
theorem afterProbe_absent {b : Board} {v : Variant} (h : b.fitted ≠ some v) (r : BusOutcome) (draw : Draw) (d : Devices) :
    afterProbe b v r draw d = d := by
  simp [afterProbe, h]

@[simp] theorem afterProbe_ok (b : Board) (v : Variant) (draw : Draw) (d : Devices) : afterProbe b v .ok draw d = d := by
  simp [afterProbe]

@[simp] theorem afterProbe_qstream (b : Board) (v : Variant) (r : BusOutcome) (draw : Draw) (d : Devices) :
    (afterProbe b v r draw d).qstream = d.qstream := by
  unfold afterProbe; split <;> rfl

/-- The state right after a transaction has completed without error, its micro-step done. -/
def State.completed (s : State) (e : BusEvent) (d : Devices) : State :=
  (((s.drawn 1).withDev (settleDevices .ok (s.upcoming 0) d)).record e).advance

@[simp] theorem completed_board (s : State) (e : BusEvent) (d : Devices) : (s.completed e d).board = s.board := rfl
@[simp] theorem completed_dev (s : State) (e : BusEvent) (d : Devices) :
    (s.completed e d).dev = { d with qbusy := false, ddsChip := streamedChip (s.upcoming 0) d } := rfl
@[simp] theorem completed_blk (s : State) (e : BusEvent) (d : Devices) :
    (s.completed e d).blk = { s.blk with stepIx := s.blk.stepIx + 1 } := rfl
@[simp] theorem completed_io (s : State) (e : BusEvent) (d : Devices) :
    (s.completed e d).io =
      { s.io with env := s.io.env.drop 1, draws := s.io.draws + 1, trace := s.io.trace ++ [e] } := rfl
@[simp] theorem upcoming_completed (s : State) (e : BusEvent) (d : Devices) (j : Nat) :
    (s.completed e d).upcoming j = s.upcoming (1 + j) := by
  simp [State.completed]

@[simp] theorem trusted_completed (s : State) (e : BusEvent) (d : Devices) : (s.completed e d).trusted = s.trusted := rfl

theorem expLevel_ok {v : Variant} {i : Fin 16} {l : Level} {s : State} (hf : s.board.fitted = some v)
    (h : (s.upcoming 0).outcome = .ok) :
    expLevel v i l s = .done () (s.completed (.expLevel v i l .ok) (driveLevel s.board (s.upcoming 0) s.trusted v i l s.dev)) := by
  simp [expLevel, chipAnswer_fitted hf, h, afterExpander, settle, State.completed]

theorem expDir_ok {v : Variant} {i : Fin 16} {x : Dir} {s : State} (hf : s.board.fitted = some v)
    (h : (s.upcoming 0).outcome = .ok) :
    expDir v i x s = .done () (s.completed (.expDir v i x .ok) (driveDir s.board (s.upcoming 0) s.trusted v i x s.dev)) := by
  simp [expDir, chipAnswer_fitted hf, h, afterExpander, settle, State.completed]

theorem spiXfer_ok {w : Quad} {s : State} (hr : attReleased s.board s.dev = true) (h : (s.upcoming 0).outcome = .ok) :
    spiXfer w s =
      .done s.dev.staging (s.completed (.spiXfer w .ok (some s.dev.staging)) { s.dev with staging := w }) := by
  simp [spiXfer, spiReturned, afterTransfer, hr, h, settle, State.completed]

/-- The same with no premise on the reset line: what the transfer returns and leaves is then as R35 leaves it. -/
theorem spiXfer_ok_any {w : Quad} {s : State} (h : (s.upcoming 0).outcome = .ok) :
    spiXfer w s =
      .done (spiReturned s.board (s.upcoming 0) s.dev)
        (s.completed (.spiXfer w .ok (some (spiReturned s.board (s.upcoming 0) s.dev)))
          (afterTransfer s.board .ok (s.upcoming 0) w s.dev)) := by
  simp [spiXfer, h, settle, State.completed]

theorem qspiWrite_ok {a : Byte} {payload : List Byte} {s : State} (h : (s.upcoming 0).outcome = .ok) :
    qspiWrite a payload s =
      .done () (s.completed (.qspiWrite a payload .ok) { s.dev with ddsChip := (s.upcoming 0).chip }) := by
  simp [qspiWrite, h, settle, State.completed]

theorem qspiRead_ok {a : Byte} {n : Nat} {s : State} (h : (s.upcoming 0).outcome = .ok) :
    qspiRead a n s =
      .done (readData (s.upcoming 0) s.io.draws n)
        (s.completed (.qspiRead a n .ok (readData (s.upcoming 0) s.io.draws n))
          { s.dev with ddsChip := (s.upcoming 0).chip }) := by
  simp [qspiRead, h, settle, State.completed]

/-! ## What every primitive leaves, however it ends -/

/-- `Q s t`: `t` comes from `s` by bus primitives only: the board, the host's queue, the responses and every block register but
`STEP` are the same, and the trace has only grown. -/
structure Primitive (s t : State) : Prop where
  board : t.board = s.board
  host : t.io.host = s.io.host
  responses : t.io.responses = s.io.responses
  blk : { t.blk with stepIx := 0 } = { s.blk with stepIx := 0 }
  trace : s.io.trace <+: t.io.trace

theorem Primitive.refl (s : State) : Primitive s s := ⟨rfl, rfl, rfl, rfl, List.prefix_rfl⟩

theorem Primitive.trans {s t u : State} (h : Primitive s t) (h' : Primitive t u) : Primitive s u :=
  ⟨h'.board.trans h.board, h'.host.trans h.host, h'.responses.trans h.responses, h'.blk.trans h.blk,
    h.trace.trans h'.trace⟩

theorem Primitive.advance {s t : State} (h : Primitive s t) : Primitive s t.advance :=
  ⟨h.board, h.host, h.responses, h.blk, h.trace⟩

theorem primitive_issue (s : State) (e : BusEvent) (d : Devices) : Primitive s (((s.drawn 1).withDev d).record e) :=
  ⟨rfl, rfl, rfl, rfl, by simp⟩

theorem expLevel_primitive (v : Variant) (i : Fin 16) (l : Level) (s : State) : (expLevel v i l s).All (Primitive s) :=
  settle_all (primitive_issue ..) fun _ h => h.advance

theorem expDir_primitive (v : Variant) (i : Fin 16) (x : Dir) (s : State) : (expDir v i x s).All (Primitive s) :=
  settle_all (primitive_issue ..) fun _ h => h.advance

theorem spiXfer_primitive (w : Quad) (s : State) : (spiXfer w s).All (Primitive s) :=
  settle_all (primitive_issue ..) fun _ h => h.advance

theorem qspiWrite_primitive (a : Byte) (payload : List Byte) (s : State) : (qspiWrite a payload s).All (Primitive s) :=
  settle_all (primitive_issue ..) fun _ h => h.advance

theorem qspiRead_primitive (a : Byte) (n : Nat) (s : State) : (qspiRead a n s).All (Primitive s) :=
  settle_all (primitive_issue ..) fun _ h => h.advance

theorem expProbe_primitive (v : Variant) (s : State) : (expProbe v s).All (Primitive s) := by
  unfold expProbe
  simp only
  split
  · exact (primitive_issue ..).advance
  · exact (primitive_issue ..).advance
  · exact primitive_issue ..

theorem qspiBusy_primitive (s : State) : (qspiBusy s).All (Primitive s) := (primitive_issue ..).advance

theorem qspiStreamOverride_primitive (s : State) : (qspiStreamOverride s).All (Primitive s) :=
  ⟨rfl, rfl, rfl, rfl, by simp⟩

end Sys2Proof.Machine
end

