-- ==== Sys2Proof/Laws/Wiring.lean ====
section
/-! SUPPORT. The pin and channel maps, and what a line does when its pin is written (spec/40_addressing.md, spec/10_state.md R34
to R38). -/

namespace Sys2Proof.Machine

/-! ## Maps -/

theorem pinOrdinal_injective : Function.Injective pinOrdinal := by
  intro p q h
  cases p <;> cases q <;> first | rfl | exact absurd h (by decide)

theorem chanIndex_injective : Function.Injective chanIndex := by
  intro p q h
  cases p <;> cases q <;> first | rfl | exact absurd h (by decide)

theorem mem_allPins (p : GpioPin) : p ∈ allPins := by cases p <;> decide

@[simp] theorem chanOf_latchPin (c : Channel) : chanOf (latchPin c) = some c := by cases c <;> rfl

theorem latchPin_injective : Function.Injective latchPin := by
  intro c d h
  simpa using congrArg chanOf h

theorem nodup_get_injective {v : Vector (Fin 16) 16} (h : v.toList.Nodup) (i j : Fin 16) (hij : v[i] = v[j]) : i = j := by
  have := (List.nodup_iff_injective_get.1 h)
    (a₁ := ⟨i, by simp⟩) (a₂ := ⟨j, by simp⟩) (by simpa using hij)
  simpa [Fin.ext_iff] using this

/-- `idx(v, .)` is injective on an admissible board (R104). -/
theorem idx_injective {b : Board} (h : b.admissible) (v : Variant) : Function.Injective (idx b v) := by
  intro p q hpq
  cases v
  · exact pinOrdinal_injective (nodup_get_injective h.1 _ _ hpq)
  · exact pinOrdinal_injective (nodup_get_injective h.2 _ _ hpq)

theorem idx_inj {b : Board} (h : b.admissible) (v : Variant) {p q : GpioPin} : idx b v p = idx b v q ↔ p = q :=
  (idx_injective h v).eq_iff

/-- `pin_of(v, idx(v, p)) = p` (R105). -/
theorem pinOf_idx {b : Board} (h : b.admissible) (v : Variant) (p : GpioPin) : pinOf b v (idx b v p) = some p := by
  have key : ∀ l : List GpioPin, p ∈ l → l.find? (fun q => decide (idx b v q = idx b v p)) = some p := by
    intro l
    induction l with
    | nil => simp
    | cons q l ih =>
      intro hm
      by_cases hq : q = p
      · simp [hq]
      · have hne : idx b v q ≠ idx b v p := fun e => hq (idx_injective h v e)
        simp only [List.mem_cons] at hm
        rw [List.find?_cons_of_neg (by simpa using hne)]
        exact ih (hm.resolve_left fun e => hq e.symm)
  exact key allPins (mem_allPins p)

/-! ## Lines -/

/-- The level of pin `i`'s line after its latch is written: the level written, if the pin is an output (R37). -/
theorem lineLevel_setLevel (d : Devices) (i : Fin 16) (l : Level) :
    lineLevel { d with xlat := d.xlat.set i l } i = if d.xdir[i] = .output then some l else none := by
  simp only [lineLevel, lineOf]
  cases d.xdir[i] <;> simp

/-- Writing one pin's latch moves no other line (R36). -/
theorem lineLevel_setLevel_ne (d : Devices) {i j : Fin 16} (h : i ≠ j) (l : Level) :
    lineLevel { d with xlat := d.xlat.set i l } j = lineLevel d j := by
  simp only [lineLevel, Fin.getElem_fin]
  rw [Vector.getElem_set_ne _ _ (by simpa [Fin.ext_iff] using h)]

/-- The level of pin `i`'s line after its direction is written (R37). -/
theorem lineLevel_setDir (d : Devices) (i : Fin 16) (x : Dir) :
    lineLevel { d with xdir := d.xdir.set i x } i = if x = .output then some d.xlat[i] else none := by
  simp only [lineLevel, lineOf, Fin.getElem_fin, Vector.getElem_set_self]
  cases x <;> simp

/-- Writing one pin's direction moves no other line (R36). -/
theorem lineLevel_setDir_ne (d : Devices) {i j : Fin 16} (h : i ≠ j) (x : Dir) :
    lineLevel { d with xdir := d.xdir.set i x } j = lineLevel d j := by
  simp only [lineLevel, Fin.getElem_fin]
  rw [Vector.getElem_set_ne _ _ (by simpa [Fin.ext_iff] using h)]

/-- On an admissible board a pin's line moves that pin's board function (R38). -/
theorem movePin_idx {b : Board} (h : b.admissible) (draw : Draw) (v : Variant) (p : GpioPin) (x : Option Level)
    (d' : Devices) : movePin b draw v (idx b v p) x d' = lineMoved b draw p x (lineLevel d' (idx b v p)) d' := by
  simp only [movePin, pinOf_idx h]

/-- A latch pin's line latches its channel when there is an edge, and does nothing else (R34). -/
theorem lineMoved_latchPin (b : Board) (draw : Draw) (c : Channel) (x y : Option Level) (d : Devices) :
    lineMoved b draw (latchPin c) x y d = if latchEdge x y draw then latchOutput b draw c d else d := by
  cases c <;> rfl

/-- A pin that is neither a latch pin nor a reset pin moves no state (R38). -/
theorem lineMoved_plain (b : Board) (draw : Draw) {p : GpioPin} (hc : chanOf p = none) (ha : p ≠ .attRstN)
    (hd : p ≠ .ddsReset) (x y : Option Level) (d : Devices) : lineMoved b draw p x y d = d := by
  cases p <;> first | rfl | exact absurd rfl ha | exact absurd rfl hd | exact absurd hc (by decide)

/-- No line that does not rise latches: falling and unchanged levels do nothing (R34). -/
theorem latchEdge_low (x : Option Level) (draw : Draw) : latchEdge x (some .low) draw = false := by
  cases x with
  | none => rfl
  | some l => cases l <;> rfl

/-- A line driven active takes the active level unless it is known to have been there (R35, R61, R111). -/
theorem takesActive_active (active : Level) (drops : Bool) (x : Option Level) :
    takesActive active drops x (some active) = decide (x ≠ some active) := by
  cases x with
  | none => simp [takesActive]
  | some k => simp [takesActive]

/-- A line driven inactive takes the active level only if it may have while undriven before (R35, R37). -/
theorem takesActive_other (active : Level) (drops : Bool) (x : Option Level) :
    takesActive active drops x (some (otherLevel active)) = (decide (x = none) && drops) := by
  cases x <;> cases active <;> simp [takesActive, otherLevel]

/-- The line functions change neither pin registers nor the 4-wire peripheral (R34 to R39). -/
theorem lineMoved_frame (b : Board) (draw : Draw) (p : GpioPin) (x y : Option Level) (d : Devices) :
    (lineMoved b draw p x y d).xdir = d.xdir ∧ (lineMoved b draw p x y d).xlat = d.xlat ∧
      (lineMoved b draw p x y d).qbusy = d.qbusy ∧ (lineMoved b draw p x y d).qstream = d.qstream := by
  simp only [lineMoved, latchOutput, resetAttenuators, resetDds]
  repeat' split
  all_goals exact ⟨rfl, rfl, rfl, rfl⟩

theorem movePin_frame (b : Board) (draw : Draw) (v : Variant) (i : Fin 16) (x : Option Level) (d' : Devices) :
    (movePin b draw v i x d').xdir = d'.xdir ∧ (movePin b draw v i x d').xlat = d'.xlat ∧
      (movePin b draw v i x d').qbusy = d'.qbusy ∧ (movePin b draw v i x d').qstream = d'.qstream := by
  simp only [movePin]
  split
  · exact lineMoved_frame ..
  · exact ⟨rfl, rfl, rfl, rfl⟩

/-! ## Pins of an admissible board -/

theorem latchPin_ne_attRstN (c : Channel) : latchPin c ≠ .attRstN := by cases c <;> decide

theorem latchPin_ne_ddsReset (c : Channel) : latchPin c ≠ .ddsReset := by cases c <;> decide

/-- A pin that is no channel's latch pin has no channel (R105). -/
theorem chanOf_eq_none {p : GpioPin} (h : ∀ c, p ≠ latchPin c) : chanOf p = none := by
  cases p <;>
    first
    | rfl
    | exact absurd rfl (h .in0)
    | exact absurd rfl (h .out0)
    | exact absurd rfl (h .in1)
    | exact absurd rfl (h .out1)

theorem latchEdge_none (x : Option Level) (draw : Draw) : latchEdge x none draw = false := by
  cases x with
  | none => rfl
  | some l => cases l <;> rfl

/-- A line that stays undriven moves no state (R34, R35, R37, R39). -/
@[simp] theorem lineMoved_none (b : Board) (draw : Draw) (p : GpioPin) (d : Devices) :
    lineMoved b draw p none none d = d := by
  cases p <;> rfl

/-- A line that is known is the line. -/
@[simp] theorem lineBefore_true (d : Devices) (i : Fin 16) : lineBefore true d i = lineLevel d i := rfl

/-- Before INIT has ended no level is known (R42, log 9). -/
@[simp] theorem lineBefore_false (d : Devices) (i : Fin 16) : lineBefore false d i = none := rfl

/-- What writing a pin's latch does: the latch takes the level, and the line moves if the pin is an output (R36, R37). -/
theorem driveLevel_idx {b : Board} (h : b.admissible) (draw : Draw) (trusted : Bool) (v : Variant) (p : GpioPin) (l : Level)
    (d : Devices) :
    driveLevel b draw trusted v (idx b v p) l d =
      lineMoved b draw p (lineBefore trusted d (idx b v p)) (if d.xdir[idx b v p] = .output then some l else none)
        { d with xlat := d.xlat.set (idx b v p) l } := by
  unfold driveLevel
  rw [movePin_idx h, lineLevel_setLevel]

/-- What writing a pin's direction does (R36, R37, R111). -/
theorem driveDir_idx {b : Board} (h : b.admissible) (draw : Draw) (trusted : Bool) (v : Variant) (p : GpioPin) (x : Dir)
    (d : Devices) :
    driveDir b draw trusted v (idx b v p) x d =
      if d.xdir[idx b v p] = x then d
      else lineMoved b draw p (lineBefore trusted d (idx b v p)) (if x = .output then some d.xlat[idx b v p] else none)
        { d with xdir := d.xdir.set (idx b v p) x } := by
  unfold driveDir
  rw [movePin_idx h, lineLevel_setDir]

theorem driveLevel_frame (b : Board) (draw : Draw) (trusted : Bool) (v : Variant) (i : Fin 16) (l : Level) (d : Devices) :
    (driveLevel b draw trusted v i l d).xdir = d.xdir ∧ (driveLevel b draw trusted v i l d).xlat = d.xlat.set i l ∧
      (driveLevel b draw trusted v i l d).qbusy = d.qbusy ∧ (driveLevel b draw trusted v i l d).qstream = d.qstream :=
  movePin_frame ..

theorem driveDir_frame (b : Board) (draw : Draw) (trusted : Bool) (v : Variant) (i : Fin 16) (x : Dir) (d : Devices) :
    (driveDir b draw trusted v i x d).xdir = d.xdir.set i x ∧ (driveDir b draw trusted v i x d).xlat = d.xlat ∧
      (driveDir b draw trusted v i x d).qbusy = d.qbusy ∧ (driveDir b draw trusted v i x d).qstream = d.qstream := by
  unfold driveDir
  split
  · rename_i h
    subst h
    simp
  · exact movePin_frame ..

/-- With a chip fitted, the attenuators are known to be out of reset exactly by the line of `AttRstN` (R35, R38). -/
theorem attReleased_iff {b : Board} {v : Variant} (hf : b.fitted = some v) (d : Devices) :
    attReleased b d = true ↔ lineLevel d (idx b v .attRstN) = some (otherLevel b.attRstActive) := by
  simp [attReleased, pinLine, hf, lineLevel]

/-- Only the line of `AttRstN` holds the attenuators in reset (R35): another pin's latch does not. -/
theorem attReleased_setLevel {b : Board} (h : b.admissible) {v : Variant} {p : GpioPin} (l : Level) (d : Devices)
    (hf : b.fitted = some v) (hp : p ≠ .attRstN) :
    attReleased b { d with xlat := d.xlat.set (idx b v p) l } = attReleased b d := by
  have hne : idx b v p ≠ idx b v .attRstN := by rwa [Ne, idx_inj h]
  rw [Bool.eq_iff_iff, attReleased_iff hf, attReleased_iff hf, lineLevel_setLevel_ne _ hne]

/-- Nor does another pin's direction. -/
theorem attReleased_setDir {b : Board} (h : b.admissible) {v : Variant} {p : GpioPin} (x : Dir) (d : Devices)
    (hf : b.fitted = some v) (hp : p ≠ .attRstN) :
    attReleased b { d with xdir := d.xdir.set (idx b v p) x } = attReleased b d := by
  have hne : idx b v p ≠ idx b v .attRstN := by rwa [Ne, idx_inj h]
  rw [Bool.eq_iff_iff, attReleased_iff hf, attReleased_iff hf, lineLevel_setDir_ne _ hne]

/-- Being out of reset depends on the pin registers only. -/
theorem attReleased_congr (b : Board) {d d' : Devices} (hx : d'.xdir = d.xdir) (hl : d'.xlat = d.xlat) :
    attReleased b d' = attReleased b d := by
  cases d; cases d'; cases hx; cases hl; rfl

end Sys2Proof.Machine
end

