-- ==== Sys2Proof/Laws/Attenuator.lean ====
section
/-! SUPPORT. The chain and the latch pins: what a transfer leaves, and what a latch pulse does (spec/43_attenuator.md R149,
R153). -/

namespace Sys2Proof.Machine

/-- A transfer touches `S`, and `O` only where the attenuators are not known to be out of reset (R33, R35). -/
theorem afterTransfer_frame (b : Board) (r : BusOutcome) (draw : Draw) (w : Quad) (d : Devices) :
    (afterTransfer b r draw w d).xdir = d.xdir ∧ (afterTransfer b r draw w d).xlat = d.xlat ∧
      (afterTransfer b r draw w d).ddsChip = d.ddsChip ∧ (afterTransfer b r draw w d).qbusy = d.qbusy ∧
      (afterTransfer b r draw w d).qstream = d.qstream := by
  unfold afterTransfer
  split
  · cases r <;> simp
  · simp

/-- A latch pin written low only takes the level: no line that goes low latches (R34). -/
theorem driveLatch_low {b : Board} (hb : b.admissible) (draw : Draw) (trusted : Bool) (v : Variant) (c : Channel)
    (d : Devices) :
    driveLevel b draw trusted v (idx b v (latchPin c)) .low d =
      { d with xlat := d.xlat.set (idx b v (latchPin c)) .low } := by
  rw [driveLevel_idx hb, lineMoved_latchPin]
  split
  · rw [latchEdge_low]; simp
  · rw [latchEdge_none]; simp

/-- A latch pin written high takes the level, and latches its channel if its line was low and is driven (R34, R35). -/
theorem driveLatch_high {b : Board} (hb : b.admissible) (draw : Draw) {v : Variant} (c : Channel) (d : Devices)
    (hf : b.fitted = some v) :
    driveLevel b draw true v (idx b v (latchPin c)) .high d =
      let d' := { d with xlat := d.xlat.set (idx b v (latchPin c)) .high }
      if d.xdir[idx b v (latchPin c)] = .output ∧ d.xlat[idx b v (latchPin c)] = .low then
        if attReleased b d then { d' with output := d.output.set (chanIndex c) d.staging[chanIndex c] }
        else { d' with staging := draw.staging, output := draw.output }
      else d' := by
  rw [driveLevel_idx hb, lineMoved_latchPin]
  simp only [latchOutput, attReleased_setLevel hb .high d hf (latchPin_ne_attRstN c), lineBefore_true, lineLevel]
  cases hx : d.xdir[idx b v (latchPin c)] <;> cases hl : d.xlat[idx b v (latchPin c)] <;> simp [latchEdge, lineOf]

/-- The devices after the two writes of a latch pulse of channel `c`, the first answered by `first` and the second by `draw`: the
pin's latch is high, and, if the pin is an output, the channel has latched (R153). -/
def afterLatch (b : Board) (v : Variant) (first draw : Draw) (c : Channel) (d : Devices) : Devices :=
  driveLevel b draw true v (idx b v (latchPin c)) .high
    { d with
      xlat := d.xlat.set (idx b v (latchPin c)) .low
      qbusy := false
      ddsChip := streamedChip first d }

/-- A latch pulse whose two writes complete (R153). -/
theorem attLatch_ok {v : Variant} {c : Channel} {s : State} (hf : s.board.fitted = some v) (hb : s.board.admissible)
    (ht : s.trusted = true) (h0 : (s.upcoming 0).outcome = .ok) (h1 : (s.upcoming 1).outcome = .ok) :
    attLatch v c s =
      .done () ((s.completed (.expLevel v (idx s.board v (latchPin c)) .low .ok)
          { s.dev with xlat := s.dev.xlat.set (idx s.board v (latchPin c)) .low }).completed
        (.expLevel v (idx s.board v (latchPin c)) .high .ok) (afterLatch s.board v (s.upcoming 0) (s.upcoming 1) c s.dev)) := by
  simp only [attLatch, pinPulse, pinLevel]
  rw [expLevel_ok hf h0]
  simp only [bind_done, otherLevel, completed_board]
  rw [expLevel_ok (by simpa using hf) (by simpa using h1)]
  simp only [driveLatch_low hb, upcoming_completed, completed_board, completed_dev, trusted_completed, ht, afterLatch]
  rfl

/-- What a latch pulse leaves, with the attenuators running. -/
theorem afterLatch_running {b : Board} (hb : b.admissible) {v : Variant} (first draw : Draw) (c : Channel) (d : Devices)
    (hf : b.fitted = some v) (hr : attReleased b d = true) :
    afterLatch b v first draw c d =
      { d with
        xlat := d.xlat.set (idx b v (latchPin c)) .high
        qbusy := false
        ddsChip := streamedChip first d
        output := if d.xdir[idx b v (latchPin c)] = .output then d.output.set (chanIndex c) d.staging[chanIndex c]
          else d.output } := by
  have hr' : attReleased b
      { d with xlat := d.xlat.set (idx b v (latchPin c)) .low, qbusy := false, ddsChip := streamedChip first d } =
        true := by
    rw [← hr, ← attReleased_setLevel hb .low d hf (latchPin_ne_attRstN c)]; rfl
  rw [afterLatch, driveLatch_high hb _ _ _ hf]
  simp only [hr']
  cases hx : d.xdir[idx b v (latchPin c)] <;> simp

/-- A latch pin never moves the DDS chip (R38). -/
theorem driveLatch_ddsChip {b : Board} (hb : b.admissible) (draw : Draw) (trusted : Bool) (v : Variant) (c : Channel)
    (l : Level) (d : Devices) : (driveLevel b draw trusted v (idx b v (latchPin c)) l d).ddsChip = d.ddsChip := by
  rw [driveLevel_idx hb, lineMoved_latchPin, latchOutput]
  repeat' split
  all_goals rfl

/-- What a latch pulse leaves, whether or not the attenuators are held in reset: `S` and `O` apart, only the latch and `QBUSY`,
and what a streaming chip does of itself. -/
theorem afterLatch_frame {b : Board} (hb : b.admissible) (v : Variant) (first draw : Draw) (c : Channel) (d : Devices) :
    (afterLatch b v first draw c d).xdir = d.xdir ∧
      (afterLatch b v first draw c d).xlat = d.xlat.set (idx b v (latchPin c)) .high ∧
      (afterLatch b v first draw c d).qbusy = false ∧ (afterLatch b v first draw c d).qstream = d.qstream ∧
      (afterLatch b v first draw c d).ddsChip = streamedChip first d := by
  obtain ⟨h1, h2, h3, h4⟩ := driveLevel_frame b draw true v (idx b v (latchPin c)) .high
    { d with
      xlat := d.xlat.set (idx b v (latchPin c)) .low
      qbusy := false
      ddsChip := streamedChip first d }
  exact ⟨h1, by simp [afterLatch, h2], h3, h4, driveLatch_ddsChip hb ..⟩

end Sys2Proof.Machine
end

