-- ==== Sys2Proof/Laws/Encoding.lean ====
section
/-! SUPPORT. The decoder and encoder, and the wire formats: one lemma per function. -/

namespace Sys2Proof

/-! ## Operand bytes and words -/

@[simp] theorem channelOfByte_byteOfChannel (c : Channel) : channelOfByte (byteOfChannel c) = some c := by cases c <;> rfl
@[simp] theorem pinOfByte_byteOfPin (p : GpioPin) : pinOfByte (byteOfPin p) = some p := by cases p <;> rfl
@[simp] theorem dirOfByte_byteOfDir (x : Dir) : dirOfByte (byteOfDir x) = some x := by cases x <;> rfl
@[simp] theorem modeOfByte_byteOfMode (m : Mode) : modeOfByte (byteOfMode m) = some m := by cases m <;> rfl
@[simp] theorem levelOfByte_byteOfLevel (l : Level) : levelOfByte (byteOfLevel l) = l := by cases l <;> rfl
@[simp] theorem opcodeOfByte_opcodeByte (op : Opcode) : opcodeOfByte (opcodeByte op) = some op := by cases op <;> rfl

theorem opcodeOfByte_eq_some {b : Byte} {op : Opcode} (h : opcodeOfByte b = some op) : opcodeByte op = b := by
  simpa using List.find?_some h

/-- The four bytes of a word make the word (R87, R90). -/
theorem word32OfBytes_bytes (x : BitVec 32) :
    word32OfBytes (x.extractLsb' 24 8) (x.extractLsb' 16 8) (x.extractLsb' 8 8) (x.extractLsb' 0 8) = x := by
  apply BitVec.eq_of_toNat_eq
  simp only [word32OfBytes, BitVec.toNat_ofNat, BitVec.extractLsb'_toNat, Nat.shiftRight_eq_div_pow]
  have := x.isLt
  omega

/-- The word of four bytes has those bytes (R87, R91). -/
theorem bytesOfWord32_word32 (f3 f2 f1 f0 : Byte) : bytesOfWord32 (word32OfBytes f3 f2 f1 f0) = [f3, f2, f1, f0] := by
  have key : ∀ a b c d : Nat, a < 256 → b < 256 → c < 256 → d < 256 →
      (16777216 * a + 65536 * b + 256 * c + d) / 16777216 % 256 = a ∧
      (16777216 * a + 65536 * b + 256 * c + d) / 65536 % 256 = b ∧
      (16777216 * a + 65536 * b + 256 * c + d) / 256 % 256 = c ∧
      (16777216 * a + 65536 * b + 256 * c + d) % 256 = d ∧
      16777216 * a + 65536 * b + 256 * c + d < 4294967296 := by
    intro a b c d; omega
  obtain ⟨k3, k2, k1, k0, kl⟩ := key _ _ _ _ f3.isLt f2.isLt f1.isLt f0.isLt
  simp only [bytesOfWord32, List.cons.injEq, and_true]
  refine ⟨?_, ?_, ?_, ?_⟩ <;>
  · apply BitVec.eq_of_toNat_eq
    simp only [word32OfBytes, BitVec.toNat_ofNat, BitVec.extractLsb'_toNat, Nat.shiftRight_eq_div_pow]
    norm_num [Nat.mod_eq_of_lt kl]
    assumption

/-! ## The decoder -/

theorem decode_cons (op : Opcode) (args : List Byte) : decode (opcodeByte op :: args) = decodeOperands op args := by
  simp [decode]

/-- Bytes that decode begin with an opcode, and their operands decode. -/
theorem decode_eq_ok {bs : List Byte} {i : Instr} (h : decode bs = .ok i) :
    ∃ op args, bs = opcodeByte op :: args ∧ decodeOperands op args = .ok i := by
  cases bs with
  | nil => cases h
  | cons b args =>
    simp only [decode] at h
    split at h
    · rename_i op ho
      exact ⟨op, args, by rw [opcodeOfByte_eq_some ho], h⟩
    · cases h

/-! ## The narrow-compatibility frame -/

namespace Machine

/-- An encoded byte is 00, 01, 10 or 11 (R76). -/
theorem encPair_mem (b : Byte) (k : Nat) : encPair b k ∈ ([0x00, 0x01, 0x10, 0x11] : List Byte) := by
  simp only [encPair, bitByte]
  split <;> split <;> decide

theorem length_enc4 (b : Byte) : (enc4 b).length = 4 := rfl

theorem length_narrowFrame (a : Byte) (payload : List Byte) :
    (narrowFrame a payload).length = 4 * payload.length + 4 := by
  simp [narrowFrame, enc4, List.length_flatMap]
  omega

theorem lineBits_append (j : Nat) (a b : List Byte) : lineBits j (a ++ b) = lineBits j a ++ lineBits j b := by
  simp [lineBits, busCycles]

/-- A frame that fits is read back from the scratch buffer (R77, R128). -/
theorem readEnc_writeEnc (enc : Vector Byte 12) (f : List Byte) (h : f.length ≤ 12) :
    readEnc (writeEnc enc f) f.length = f := by
  apply List.ext_getElem
  · simp [readEnc]; omega
  · intro i h1 h2
    simp [readEnc, writeEnc, List.getD, h2]

/-- A frame leaves the later elements of the scratch buffer (R73). -/
theorem writeEnc_drop (enc : Vector Byte 12) (f : List Byte) :
    (writeEnc enc f).toList.drop f.length = enc.toList.drop f.length := by
  apply List.ext_getElem
  · simp
  · intro i h1 h2
    simp [writeEnc, List.getD]

theorem length_readData (draw : Draw) (k n : Nat) : (readData draw k n).length = n := by simp [readData]

end Machine

end Sys2Proof
end

