-- ==== Sys2Proof/Laws/Exec.lean ====
section
/-! SUPPORT. The dispatcher, one unfolding lemma per command, and what all commands share: the gate they pass through. -/

namespace Sys2Proof.Machine

section
variable (s : State)

theorem exec_init : exec .init s = inPhase .uninit s fun s => .next (failInit (initSteps s)).finish := rfl

theorem exec_gpioSetDirection (p : GpioPin) (x : Dir) :
    exec (.gpioSetDirection p x) s =
      inPhase .ready s fun s =>
        withVariant s fun v => .next (((pinDir v p x s).bind fun _ s => .done [] s).finish) := rfl

theorem exec_gpioSetLevel (p : GpioPin) (l : Level) :
    exec (.gpioSetLevel p l) s =
      inPhase .ready s fun s =>
        withVariant s fun v => .next (((pinLevel v p l s).bind fun _ s => .done [] s).finish) := by
  cases l <;> rfl

theorem exec_ddsConfigureMode (m : Mode) :
    exec (.ddsConfigureMode m) s =
      inPhase .ready s fun s => .next (((s.setMode m).advance.succeed [])) := rfl

theorem exec_ddsWrite (addr : Byte) (payload : List Byte) :
    exec (.ddsWrite addr payload) s =
      inPhase .ready s fun s =>
        if addressIllegal addr then .next (s.raise .invalidAddress [])
        else if s.blk.streaming then .next (s.raise .invalidState [])
        else if s.blk.mode = .narrowCompat ∧ narrowMaxPayload < payload.length then .next (s.raise .bounds [])
        else .next (((ddsTransmit addr payload s).bind fun _ s => .done [] s).finish) := rfl

theorem exec_ddsRead (addr : Byte) (n : Nat) :
    exec (.ddsRead addr n) s =
      inPhase .ready s fun s =>
        if addressIllegal addr then .next (s.raise .invalidAddress [])
        else if s.blk.mode ≠ .native then .next (s.raise .invalidState [])
        else if s.blk.streaming then .refused .readWhileStreaming
        else .next ((qspiRead (readAddress addr) n s).finish) := rfl

theorem exec_ddsStartStream :
    exec .ddsStartStream s =
      inPhase .ready s fun s =>
        .next (((qspiBusy s).bind fun busy s => if busy then .raised .invalidState [] s else enterStreaming s).finish) := rfl

theorem exec_attSet (c : Channel) (x : BitVec 32) :
    exec (.attSet c x) s =
      inPhase .ready s fun s =>
        if attValid x then withVariant s fun v => .next ((attSetSteps v c (attCode x) s).finish)
        else .next (s.raise .bounds []) := rfl

theorem exec_attGet (c : Channel) :
    exec (.attGet c) s = inPhase .ready s fun s => .next ((attGetSteps c s).finish) := rfl

end

/-- The phase a command is accepted in (R191). -/
def phaseOf (i : Instr) : Phase := if i = .init then .uninit else .ready

/-- Every command passes through the same gate (R85, R191). -/
theorem exec_gate (i : Instr) (s : State) : ∃ run, exec i s = inPhase (phaseOf i) s run := by
  cases i with
  | init => exact ⟨_, exec_init s⟩
  | gpioSetDirection p x => exact ⟨_, exec_gpioSetDirection s p x⟩
  | gpioSetLevel p l => exact ⟨_, exec_gpioSetLevel s p l⟩
  | ddsConfigureMode m => exact ⟨_, exec_ddsConfigureMode s m⟩
  | ddsWrite a p => exact ⟨_, exec_ddsWrite s a p⟩
  | ddsRead a n => exact ⟨_, exec_ddsRead s a n⟩
  | ddsStartStream => exact ⟨_, exec_ddsStartStream s⟩
  | attSet c x => exact ⟨_, exec_attSet s c x⟩
  | attGet c => exact ⟨_, exec_attGet s c⟩

/-- A command that answers a next state was accepted: the block was idle and in the command's phase. -/
theorem exec_next_gate {i : Instr} {s t : State} (h : exec i s = .next t) :
    s.blk.stepIx = 0 ∧ s.blk.phase = phaseOf i := by
  obtain ⟨run, hr⟩ := exec_gate i s
  rw [hr] at h
  obtain ⟨h0, hp, _⟩ := inPhase_next h
  exact ⟨h0, hp⟩

/-- One step: waiting, or the command decoded (R85, R190, R205). -/
theorem step_next_cases {s t : State} (h : step s = .next t) :
    (t = s ∧ (s.blk.stepIx ≠ 0 ∨ s.io.host = [])) ∨
      ∃ command rest i, s.blk.stepIx = 0 ∧ s.io.host = command :: rest ∧ decode command = .ok i ∧
        exec i { s with io := { s.io with host := rest } } = .next t := by
  unfold step at h
  split at h
  · injection h with h
    exact .inl ⟨h.symm, .inl ‹_›⟩
  · split at h
    · injection h with h
      exact .inl ⟨h.symm, .inr ‹_›⟩
    · split at h
      · exact .inr ⟨_, _, _, not_not.1 ‹_›, ‹_›, ‹_›, h⟩
      · cases h

/-- One more step of a run. -/
theorem run_succ (m : Host.Core) (n : Nat) {s t : m.State} (h : m.step s = .next t) : m.run (n + 1) s = m.run n t := by
  simp only [Host.Core.run]
  rw [h]

/-- A state that steps to itself is where every run from it stays. -/
theorem run_of_step_self (m : Host.Core) (n : Nat) {s : m.State} (h : m.step s = .next s) : m.run n s = .next s := by
  induction n with
  | zero => rfl
  | succ n ih => rw [run_succ m n h]; exact ih

end Sys2Proof.Machine
end

