-- ==== Sys2Proof/Laws/Initialisation.lean ====
section
/-! SUPPORT. Sequences of expander writes that complete (spec/44_init_sequence.md R168 to R170). -/

namespace Sys2Proof.Machine

/-- `t` comes from `s` by `k` bus transactions that have completed, `evs` in order; of the devices nothing is said. -/
structure Ran (k : Nat) (evs : List BusEvent) (s t : State) : Prop where
  blk : t.blk = { s.blk with stepIx := s.blk.stepIx + BitVec.ofNat 6 k }
  board : t.board = s.board
  io : t.io = { s.io with
    env := s.io.env.drop k
    draws := s.io.draws + k
    trace := s.io.trace ++ evs }

theorem Ran.refl (s : State) : Ran 0 [] s s := ⟨by simp, rfl, by simp⟩

theorem Ran.trans {j k : Nat} {evs evs' : List BusEvent} {s t u : State} (h : Ran j evs s t) (h' : Ran k evs' t u) :
    Ran (j + k) (evs ++ evs') s u where
  blk := by rw [h'.blk, h.blk]; simp [BitVec.ofNat_add, BitVec.add_assoc]
  board := h'.board.trans h.board
  io := by rw [h'.io, h.io]; simp [Nat.add_assoc]

/-- The answers still to come. -/
theorem Ran.upcoming {k : Nat} {evs : List BusEvent} {s t : State} (h : Ran k evs s t) (j : Nat) :
    t.upcoming j = s.upcoming (k + j) := by
  simp [State.upcoming, h.io, Nat.add_assoc]

theorem ran_completed (s : State) (e : BusEvent) (d : Devices) : Ran 1 [e] s (s.completed e d) := ⟨rfl, rfl, rfl⟩

/-- No micro-step of a run ends INIT, so what is known of the levels stays. -/
theorem Ran.trusted {k : Nat} {evs : List BusEvent} {s t : State} (h : Ran k evs s t) : t.trusted = s.trusted := by
  simp [State.trusted, h.blk]

/-- What a level write that completes leaves, the devices behind the line apart (R36). -/
theorem pinLevel_ok {v : Variant} {p : GpioPin} {l : Level} {s : State} (hf : s.board.fitted = some v)
    (h : (s.upcoming 0).outcome = .ok) :
    ∃ t, pinLevel v p l s = .done () t ∧ Ran 1 [.expLevel v (idx s.board v p) l .ok] s t ∧
      t.dev = settleDevices .ok (s.upcoming 0)
        (driveLevel s.board (s.upcoming 0) s.trusted v (idx s.board v p) l s.dev) ∧
      t.dev.xdir = s.dev.xdir ∧ t.dev.xlat = s.dev.xlat.set (idx s.board v p) l ∧ t.dev.qstream = s.dev.qstream := by
  obtain ⟨h1, h2, _, h4⟩ := driveLevel_frame s.board (s.upcoming 0) s.trusted v (idx s.board v p) l s.dev
  exact ⟨_, expLevel_ok hf h, ran_completed .., rfl, h1, h2, h4⟩

/-- What a direction write that completes leaves, the devices behind the line apart (R36). -/
theorem pinDir_ok {v : Variant} {p : GpioPin} {x : Dir} {s : State} (hf : s.board.fitted = some v)
    (h : (s.upcoming 0).outcome = .ok) :
    ∃ t, pinDir v p x s = .done () t ∧ Ran 1 [.expDir v (idx s.board v p) x .ok] s t ∧
      t.dev = settleDevices .ok (s.upcoming 0)
        (driveDir s.board (s.upcoming 0) s.trusted v (idx s.board v p) x s.dev) ∧
      t.dev.xdir = s.dev.xdir.set (idx s.board v p) x ∧ t.dev.xlat = s.dev.xlat ∧ t.dev.qstream = s.dev.qstream := by
  obtain ⟨h1, h2, _, h4⟩ := driveDir_frame s.board (s.upcoming 0) s.trusted v (idx s.board v p) x s.dev
  exact ⟨_, expDir_ok hf h, ran_completed .., rfl, h1, h2, h4⟩

/-- The pin phase over any pins, when every write completes: each pin's latch low and its direction output, in order (R168). -/
theorem pinPhase_ok {v : Variant} (pins : List GpioPin) {s : State} (hf : s.board.fitted = some v)
    (h : ∀ j < 2 * pins.length, (s.upcoming j).outcome = .ok) :
    ∃ t, pinPhase v pins s = .done () t ∧
      Ran (2 * pins.length) (pins.flatMap fun p =>
        [.expLevel v (idx s.board v p) .low .ok, .expDir v (idx s.board v p) .output .ok]) s t ∧
      t.dev.xdir = pins.foldl (fun d p => d.set (idx s.board v p) .output) s.dev.xdir ∧
      t.dev.xlat = pins.foldl (fun d p => d.set (idx s.board v p) .low) s.dev.xlat ∧
      t.dev.qstream = s.dev.qstream := by
  induction pins generalizing s with
  | nil => exact ⟨s, rfl, .refl s, rfl, rfl, rfl⟩
  | cons p pins ih =>
    simp only [List.length_cons] at h
    obtain ⟨s1, e1, r1, -, d1, l1, q1⟩ := pinLevel_ok (p := p) (l := .low) hf (h 0 (by omega))
    obtain ⟨s2, e2, r2, -, d2, l2, q2⟩ := pinDir_ok (p := p) (x := .output) (by rw [r1.board]; exact hf)
      (by rw [r1.upcoming]; exact h 1 (by omega))
    have r12 := r1.trans r2
    simp only [r1.board] at d2
    obtain ⟨t, e3, r3, d3, l3, q3⟩ := ih (s := s2) (by rw [r12.board]; exact hf)
      (fun j hj => by rw [r12.upcoming]; exact h _ (by omega))
    simp only [r12.board, r1.board] at r12 r3 d3 l3 l2
    refine ⟨t, ?_, ?_, ?_, ?_, ?_⟩
    · simp only [pinPhase, pinLowOut, e1, bind_done, e2, e3]
    · have := r12.trans r3
      rw [show 1 + 1 + 2 * pins.length = 2 * (p :: pins).length by simp only [List.length_cons]; omega] at this
      exact this
    · rw [d3, d2, d1]; rfl
    · rw [l3, l2, l1]; rfl
    · rw [q3, q2, q1]

/-- A fold of writes at the indices of pins: the pins written hold the value. -/
theorem getElem_foldl_set {b : Board} {v : Variant} (hb : b.admissible) {α : Type} (a : α) (pins : List GpioPin)
    (x : Vector α 16) (p : GpioPin) :
    (pins.foldl (fun d q => d.set (idx b v q) a) x)[idx b v p] = if p ∈ pins then a else x[idx b v p] := by
  induction pins generalizing x with
  | nil => simp
  | cons q pins ih =>
    simp only [List.foldl_cons, ih, List.mem_cons]
    by_cases hq : p = q
    · subst hq; simp
    · have hne : ((idx b v q : Fin 16) : Nat) ≠ idx b v p := fun e => hq (idx_injective hb v (Fin.ext e)).symm
      simp [hq, Vector.getElem_set_ne _ _ hne]

/-- Every physical index is some pin's (R104). -/
theorem idx_surjective {b : Board} (h : b.admissible) (v : Variant) : Function.Surjective (idx b v) := by
  have hc : Function.Surjective pinOrdinal := fun i => ⟨allPins.getD i .led4Green, by revert i; decide⟩
  have : idx b v = (fun i : Fin 16 => match v with | .a => b.idxA[i] | .b => b.idxB[i]) ∘ pinOrdinal := by
    funext p; cases v <;> rfl
  rw [this]
  refine Function.Surjective.comp (Finite.surjective_of_injective ?_) hc
  cases v
  · exact fun i j e => nodup_get_injective h.1 i j e
  · exact fun i j e => nodup_get_injective h.2 i j e

/-- A reset pulse of INIT on `AttRstN`, its pin an output: its first write is an edge, the levels before INIT not being known
(R42, log 9), so the attenuators end reset and released, and nothing else moves but a streaming chip (R169). -/
theorem attResetPulse_ok {v : Variant} {s : State} (hf : s.board.fitted = some v) (hb : s.board.admissible)
    (ht : s.trusted = false) (hx : s.dev.xdir[idx s.board v .attRstN] = .output)
    (h0 : (s.upcoming 0).outcome = .ok) (h1 : (s.upcoming 1).outcome = .ok) :
    ∃ t chip, attResetPulse v s = .done () t ∧
      Ran 2 [.expLevel v (idx s.board v .attRstN) s.board.attRstActive .ok,
        .expLevel v (idx s.board v .attRstN) (otherLevel s.board.attRstActive) .ok] s t ∧
      t.dev = { s.dev with
        staging := Vector.replicate 4 s.board.attResetByte
        output := Vector.replicate 4 s.board.attResetByte
        xlat := s.dev.xlat.set (idx s.board v .attRstN) (otherLevel s.board.attRstActive)
        qbusy := false
        ddsChip := chip } ∧
      (s.NotStreaming → chip = s.dev.ddsChip) := by
  obtain ⟨s1, e1, r1, w1, -⟩ := pinLevel_ok (p := .attRstN) (l := s.board.attRstActive) hf h0
  obtain ⟨s2, e2, r2, w2, -⟩ := pinLevel_ok (p := .attRstN) (l := otherLevel s.board.attRstActive)
    (by rw [r1.board]; exact hf) (by rw [r1.upcoming]; exact h1)
  simp only [r1.board, r1.trusted, ht] at r2 w1 w2
  rw [driveLevel_idx hb] at w1 w2
  simp only [lineBefore_false, hx, if_true, lineMoved, takesActive_active, ne_eq, reduceCtorEq, not_false_eq_true,
    decide_true] at w1
  have hx1 : s1.dev.xdir[idx s.board v .attRstN] = .output := by rw [w1]; exact hx
  simp only [lineBefore_false, hx1, if_true, lineMoved, takesActive_other, decide_true, Bool.true_and] at w2
  refine ⟨s2, s2.dev.ddsChip, ?_, r1.trans r2, ?_, ?_⟩
  · simp only [attResetPulse, pinPulse, e1, bind_done, e2]
  · rw [w2, w1]
    cases (s1.upcoming 0).drops <;> simp [settleDevices, resetAttenuators]
  · intro hn
    rw [w2, w1]
    cases (s1.upcoming 0).drops <;> simp [settleDevices, resetAttenuators, streamedChip, show s.dev.qstream = false from hn]

/-- A reset pulse of INIT on `DdsReset`, its pin an output: the DDS chip ends in its power-on state unless it streams, and nothing
else moves (R170). -/
theorem ddsResetPulse_ok {v : Variant} {s : State} (hf : s.board.fitted = some v) (hb : s.board.admissible)
    (ht : s.trusted = false) (hx : s.dev.xdir[idx s.board v .ddsReset] = .output)
    (h0 : (s.upcoming 0).outcome = .ok) (h1 : (s.upcoming 1).outcome = .ok) :
    ∃ t chip, ddsResetPulse v s = .done () t ∧
      Ran 2 [.expLevel v (idx s.board v .ddsReset) s.board.ddsRstActive .ok,
        .expLevel v (idx s.board v .ddsReset) (otherLevel s.board.ddsRstActive) .ok] s t ∧
      t.dev = { s.dev with
        xlat := s.dev.xlat.set (idx s.board v .ddsReset) (otherLevel s.board.ddsRstActive)
        qbusy := false
        ddsChip := chip } ∧
      (s.NotStreaming → chip = s.board.ddsPowerOn) := by
  obtain ⟨s1, e1, r1, w1, -⟩ := pinLevel_ok (p := .ddsReset) (l := s.board.ddsRstActive) hf h0
  obtain ⟨s2, e2, r2, w2, -⟩ := pinLevel_ok (p := .ddsReset) (l := otherLevel s.board.ddsRstActive)
    (by rw [r1.board]; exact hf) (by rw [r1.upcoming]; exact h1)
  simp only [r1.board, r1.trusted, ht] at r2 w1 w2
  rw [driveLevel_idx hb] at w1 w2
  simp only [lineBefore_false, hx, if_true, lineMoved, takesActive_active, ne_eq, reduceCtorEq, not_false_eq_true,
    decide_true] at w1
  have hx1 : s1.dev.xdir[idx s.board v .ddsReset] = .output := by rw [w1]; exact hx
  simp only [lineBefore_false, hx1, if_true, lineMoved, takesActive_other, decide_true, Bool.true_and] at w2
  refine ⟨s2, s2.dev.ddsChip, ?_, r1.trans r2, ?_, ?_⟩
  · simp only [ddsResetPulse, pinPulse, e1, bind_done, e2]
  · rw [w2, w1]
    cases (s1.upcoming 0).drops <;> simp [settleDevices, resetDds]
  · intro hn
    rw [w2, w1]
    cases (s1.upcoming 0).drops <;> simp [settleDevices, resetDds, streamedChip, show s.dev.qstream = false from hn]

end Sys2Proof.Machine
end

