-- ==== Sys2Proof/Laws/PerInstr.lean ====
section
/-! SUPPORT. What holds of every command, one lemma per command: its encoding begins with its opcode and has the length its
first bytes tell (spec/30_encoding.md R85, R87, R94). -/

namespace Sys2Proof.Laws.EncodedLength

/-- Byte 0 is the opcode, and the length read from the first bytes is the length of the whole. -/
def Statement (i : Instr) : Prop :=
  i.wellFormed = true →
    (encode i).head? = some (opcodeByte (opcode i)) ∧ commandLength (encode i) = some (encode i).length

theorem init : Statement .init := fun _ => ⟨rfl, rfl⟩

theorem gpioSetDirection (pin : GpioPin) (dir : Dir) : Statement (.gpioSetDirection pin dir) := fun _ => ⟨rfl, rfl⟩

theorem gpioSetLevel (pin : GpioPin) (level : Level) : Statement (.gpioSetLevel pin level) := fun _ => ⟨rfl, rfl⟩

theorem ddsConfigureMode (mode : Mode) : Statement (.ddsConfigureMode mode) := fun _ => ⟨rfl, rfl⟩

theorem ddsWrite (addr : Byte) (payload : List Byte) : Statement (.ddsWrite addr payload) := by
  intro h
  have hlt : payload.length % 256 = payload.length := Nat.mod_eq_of_lt (by simpa [Instr.wellFormed, Nat.lt_succ_iff] using h)
  refine ⟨rfl, ?_⟩
  simp only [encode, operandBytes, commandLength, opcodeOfByte_opcodeByte, opcode]
  simp [formatLength, hlt]
  omega

theorem ddsRead (addr : Byte) (n : Nat) : Statement (.ddsRead addr n) := fun _ => ⟨rfl, rfl⟩

theorem ddsStartStream : Statement .ddsStartStream := fun _ => ⟨rfl, rfl⟩

theorem attSet (channel : Channel) (x : BitVec 32) : Statement (.attSet channel x) := fun _ => ⟨rfl, rfl⟩

theorem attGet (channel : Channel) : Statement (.attGet channel) := fun _ => ⟨rfl, rfl⟩

end Sys2Proof.Laws.EncodedLength
end

