-- ==== Sys2Proof/Laws/Run.lean ====
section
/-! SUPPORT. Micro-sequences as runs: what a whole sequence relates its states by, how far `STEP` goes in it
(spec/10_state.md R26), and which expander writes it makes. -/

namespace Sys2Proof.Machine

section
variable {α β : Type} {R : State → State → Prop}

/-- The flow, begun in `s`, has reached a state related to `s` by `R`, with `STEP` on by `n` if it has run to its end, and by
less than `n` if it raised or stalled. -/
def Flow.Reaches (R : State → State → Prop) (n : Nat) (s : State) : Flow α → Prop
  | .done _ t => R s t ∧ t.blk.stepIx = s.blk.stepIx + BitVec.ofNat 6 n
  | .raised _ _ t => R s t ∧ ∃ m < n, t.blk.stepIx = s.blk.stepIx + BitVec.ofNat 6 m
  | .stalled t => R s t ∧ ∃ m < n, t.blk.stepIx = s.blk.stepIx + BitVec.ofNat 6 m

theorem Flow.Reaches.bind (hT : ∀ a b c, R a b → R b c → R a c) {n m : Nat} {s : State} {f : Flow α}
    {g : α → State → Flow β} (hf : f.Reaches R n s) (hg : ∀ a t, f = .done a t → (g a t).Reaches R m t) :
    (f.bind g).Reaches R (n + m) s := by
  have add : ∀ {a b c : BitVec 6} {j k : Nat}, b = a + BitVec.ofNat 6 j → c = b + BitVec.ofNat 6 k →
      c = a + BitVec.ofNat 6 (j + k) := by
    intro a b c j k hb hc
    rw [hc, hb, BitVec.ofNat_add, BitVec.add_assoc]
  cases f with
  | done a t =>
    have := hg a t rfl
    simp only [bind_done]
    cases hga : g a t with
    | done b u =>
      rw [hga] at this
      exact ⟨hT _ _ _ hf.1 this.1, add hf.2 this.2⟩
    | raised k info u =>
      rw [hga] at this
      obtain ⟨h1, j, hj, h2⟩ := this
      exact ⟨hT _ _ _ hf.1 h1, n + j, by omega, add hf.2 h2⟩
    | stalled u =>
      rw [hga] at this
      obtain ⟨h1, j, hj, h2⟩ := this
      exact ⟨hT _ _ _ hf.1 h1, n + j, by omega, add hf.2 h2⟩
  | raised k info t =>
    obtain ⟨h1, j, hj, h2⟩ := hf
    exact ⟨h1, j, by omega, h2⟩
  | stalled t =>
    obtain ⟨h1, j, hj, h2⟩ := hf
    exact ⟨h1, j, by omega, h2⟩

/-- The end of a sequence: a value is returned, perhaps after registers are written. -/
theorem Flow.Reaches.done {s t : State} (a : α) (h : R s t) (hs : t.blk.stepIx = s.blk.stepIx) :
    (Flow.done a t).Reaches R 0 s := ⟨h, by simp [hs]⟩

theorem Flow.Reaches.imp {R' : State → State → Prop} {n : Nat} {s : State} {f : Flow α} (hf : f.Reaches R n s)
    (h : ∀ t, R s t → R' s t) : f.Reaches R' n s := by
  cases f with
  | done a t => exact ⟨h _ hf.1, hf.2⟩
  | raised k info t => exact ⟨h _ hf.1, hf.2⟩
  | stalled t => exact ⟨h _ hf.1, hf.2⟩

/-- The start of a sequence may come after registers have been written. -/
theorem Flow.Reaches.from (hT : ∀ a b c, R a b → R b c → R a c) {n : Nat} {s s' : State} {f : Flow α}
    (hf : f.Reaches R n s') (h : R s s') (hs : s'.blk.stepIx = s.blk.stepIx) : f.Reaches R n s := by
  cases f with
  | done a t => exact ⟨hT _ _ _ h hf.1, by rw [hf.2, hs]⟩
  | raised k info t => exact ⟨hT _ _ _ h hf.1, by obtain ⟨j, hj, e⟩ := hf.2; exact ⟨j, hj, by rw [e, hs]⟩⟩
  | stalled t => exact ⟨hT _ _ _ h hf.1, by obtain ⟨j, hj, e⟩ := hf.2; exact ⟨j, hj, by rw [e, hs]⟩⟩

theorem settle_reaches {r : BusOutcome} {k : ErrorKind} {info : List Byte} {a : α} {s t : State} (h : R s t)
    (ha : R s t.advance) (hs : t.blk.stepIx = s.blk.stepIx) : (settle r k info a t).Reaches R 1 s := by
  cases r
  · exact ⟨ha, by simp [hs]⟩
  · exact ⟨h, 0, by omega, by simp [hs]⟩
  · exact ⟨h, 0, by omega, by simp [hs]⟩

/-! ## The bus primitives, each one micro-step -/

theorem expLevel_reaches (v : Variant) (i : Fin 16) (l : Level) (s : State) :
    (expLevel v i l s).Reaches Primitive 1 s :=
  settle_reaches (primitive_issue ..) (primitive_issue ..).advance rfl

theorem expDir_reaches (v : Variant) (i : Fin 16) (x : Dir) (s : State) : (expDir v i x s).Reaches Primitive 1 s :=
  settle_reaches (primitive_issue ..) (primitive_issue ..).advance rfl

theorem spiXfer_reaches (w : Quad) (s : State) : (spiXfer w s).Reaches Primitive 1 s :=
  settle_reaches (primitive_issue ..) (primitive_issue ..).advance rfl

theorem qspiWrite_reaches (a : Byte) (payload : List Byte) (s : State) :
    (qspiWrite a payload s).Reaches Primitive 1 s :=
  settle_reaches (primitive_issue ..) (primitive_issue ..).advance rfl

theorem qspiRead_reaches (a : Byte) (n : Nat) (s : State) : (qspiRead a n s).Reaches Primitive 1 s :=
  settle_reaches (primitive_issue ..) (primitive_issue ..).advance rfl

theorem expProbe_reaches (v : Variant) (s : State) : (expProbe v s).Reaches Primitive 1 s := by
  unfold expProbe
  simp only
  split
  · exact ⟨(primitive_issue ..).advance, by simp⟩
  · exact ⟨(primitive_issue ..).advance, by simp⟩
  · exact ⟨primitive_issue .., 0, by omega, by simp⟩

theorem qspiBusy_reaches (s : State) : (qspiBusy s).Reaches Primitive 1 s :=
  ⟨(primitive_issue ..).advance, by simp⟩

theorem qspiStreamOverride_reaches (s : State) : (qspiStreamOverride s).Reaches Primitive 1 s :=
  ⟨⟨rfl, rfl, rfl, rfl, by simp⟩, by simp⟩

/-! ## The micro-sequences of the expander, on one pin and on many -/

theorem pinPulse_reaches (v : Variant) (p : GpioPin) (l : Level) (s : State) :
    (pinPulse v p l s).Reaches Primitive 2 s :=
  Flow.Reaches.bind (R := Primitive) (n := 1) (m := 1) (fun _ _ _ => .trans) (expLevel_reaches ..)
    fun _ _ _ => expLevel_reaches ..

theorem pinLowOut_reaches (v : Variant) (p : GpioPin) (s : State) : (pinLowOut v p s).Reaches Primitive 2 s :=
  Flow.Reaches.bind (R := Primitive) (n := 1) (m := 1) (fun _ _ _ => .trans) (expLevel_reaches ..)
    fun _ _ _ => expDir_reaches ..

theorem pinPhase_reaches (v : Variant) (pins : List GpioPin) (s : State) :
    (pinPhase v pins s).Reaches Primitive (2 * pins.length) s := by
  induction pins generalizing s with
  | nil => exact .done _ (.refl s) rfl
  | cons p pins ih =>
    rw [show 2 * (p :: pins).length = 2 + 2 * pins.length by simp only [List.length_cons]; omega]
    exact .bind (R := Primitive) (fun _ _ _ => .trans) (pinLowOut_reaches v p s) fun _ t _ => ih t

/-! ## The expander writes of a sequence, however its transactions end -/

/-- From `s` to `t` the writes of a first part of `evs` have been made, the last of them ended `r` and all before it ok. -/
def CutShort (r : BusOutcome) (evs : List BusEvent) (s t : State) : Prop :=
  ∃ made e, t.io.trace = s.io.trace ++ (made ++ [e]) ∧ made ++ [e.asCompleted] <+: evs ∧ e.outcome = some r

/-- The flow, begun in `s`, keeps the board and the variant and has issued the expander writes `evs` in order: all of them, each ok,
if it has run to its end; else a first part of them, of which the last alone ended with an error or never completed. -/
def Flow.Writes (evs : List BusEvent) (s : State) : Flow α → Prop
  | .done _ t => t.board = s.board ∧ t.blk.variant = s.blk.variant ∧ t.io.trace = s.io.trace ++ evs
  | .raised _ _ t => t.board = s.board ∧ t.blk.variant = s.blk.variant ∧ CutShort .error evs s t
  | .stalled t => t.board = s.board ∧ t.blk.variant = s.blk.variant ∧ CutShort .stalled evs s t

theorem CutShort.append {r : BusOutcome} {evs : List BusEvent} (more : List BusEvent) {s t : State}
    (h : CutShort r evs s t) : CutShort r (evs ++ more) s t := by
  obtain ⟨made, e, h1, h2, h3⟩ := h
  exact ⟨made, e, h1, h2.trans (List.prefix_append _ _), h3⟩

theorem CutShort.after {r : BusOutcome} {evs first : List BusEvent} {s t u : State} (h : CutShort r evs t u)
    (ht : t.io.trace = s.io.trace ++ first) : CutShort r (first ++ evs) s u := by
  obtain ⟨made, e, h1, h2, h3⟩ := h
  exact ⟨first ++ made, e, by rw [h1, ht]; simp, by simpa [List.prefix_append_right_inj] using h2, h3⟩

theorem Flow.Writes.bind {evs evs' : List BusEvent} {s : State} {f : Flow α} {g : α → State → Flow β}
    (hf : f.Writes evs s) (hg : ∀ a t, t.board = s.board → (g a t).Writes evs' t) : (f.bind g).Writes (evs ++ evs') s := by
  cases f with
  | done a t =>
    obtain ⟨hb, hv, h⟩ := hf
    have := hg a t hb
    simp only [bind_done]
    revert this
    cases g a t with
    | done b u =>
      rintro ⟨kb, kv, k⟩
      exact ⟨kb.trans hb, kv.trans hv, by rw [k, h]; simp⟩
    | raised k info u =>
      rintro ⟨kb, kv, k⟩
      exact ⟨kb.trans hb, kv.trans hv, k.after h⟩
    | stalled u =>
      rintro ⟨kb, kv, k⟩
      exact ⟨kb.trans hb, kv.trans hv, k.after h⟩
  | raised k info t => exact ⟨hf.1, hf.2.1, hf.2.2.append _⟩
  | stalled t => exact ⟨hf.1, hf.2.1, hf.2.2.append _⟩

theorem pinLevel_writes (v : Variant) (p : GpioPin) (l : Level) (s : State) :
    (pinLevel v p l s).Writes [.expLevel v (idx s.board v p) l .ok] s := by
  simp only [pinLevel, expLevel]
  cases chipAnswer s.board v (s.upcoming 0).outcome
  · exact ⟨rfl, rfl, rfl⟩
  · exact ⟨rfl, rfl, [], _, rfl, List.prefix_rfl, rfl⟩
  · exact ⟨rfl, rfl, [], _, rfl, List.prefix_rfl, rfl⟩

theorem pinDir_writes (v : Variant) (p : GpioPin) (x : Dir) (s : State) :
    (pinDir v p x s).Writes [.expDir v (idx s.board v p) x .ok] s := by
  simp only [pinDir, expDir]
  cases chipAnswer s.board v (s.upcoming 0).outcome
  · exact ⟨rfl, rfl, rfl⟩
  · exact ⟨rfl, rfl, [], _, rfl, List.prefix_rfl, rfl⟩
  · exact ⟨rfl, rfl, [], _, rfl, List.prefix_rfl, rfl⟩

theorem pinPulse_writes (v : Variant) (p : GpioPin) (l : Level) (s : State) :
    (pinPulse v p l s).Writes
      [.expLevel v (idx s.board v p) l .ok, .expLevel v (idx s.board v p) (otherLevel l) .ok] s :=
  Flow.Writes.bind (evs := [_]) (pinLevel_writes ..) fun _ _ h => h ▸ pinLevel_writes ..

theorem pinLowOut_writes (v : Variant) (p : GpioPin) (s : State) :
    (pinLowOut v p s).Writes
      [.expLevel v (idx s.board v p) .low .ok, .expDir v (idx s.board v p) .output .ok] s :=
  Flow.Writes.bind (evs := [_]) (pinLevel_writes ..) fun _ _ h => h ▸ pinDir_writes ..

theorem pinPhase_writes (v : Variant) (pins : List GpioPin) (s : State) :
    (pinPhase v pins s).Writes (pins.flatMap fun p =>
      [.expLevel v (idx s.board v p) .low .ok, .expDir v (idx s.board v p) .output .ok]) s := by
  induction pins generalizing s with
  | nil => exact ⟨rfl, rfl, by simp⟩
  | cons p pins ih => exact Flow.Writes.bind (pinLowOut_writes ..) fun _ t h => h ▸ ih t

end

end Sys2Proof.Machine
end

