-- ==== Sys2Proof/Machine/HostLevel.lean ====
section
/-! DEFINITION. What the host writes above the command port: its default configuration (spec/00_scope.md R9, spec/10_state.md
R46), the assembler text of a command (spec/30_encoding.md R95) and the pseudo-instructions with their expansions (R96). No step
uses them. -/

namespace Sys2Proof.Machine

/-- `ATT_DEFAULT_DB`: 31.5 dB, the attenuation of the host's default configuration, as a binary32 datum (R9, R46). -/
def attDefault : BitVec 32 := 0x41FC0000

/-- What a host that applies its default configuration after INIT presents: ATT_SET of every channel (R46). -/
def defaultConfiguration : List Instr := allChannels.map fun c => .attSet c attDefault

/-- The pseudo-instructions (R96). -/
inductive Pseudo
  | attLatch (c : Channel)
  | attResetPulse
  | ddsResetPulse
  | pinLowOut (p : GpioPin)
deriving DecidableEq, Repr

/-- The commands a pseudo-instruction expands to (R96); the polarities are those of the board. -/
def expandPseudo (b : Board) : Pseudo → List Instr
  | .attLatch c => [.gpioSetLevel (latchPin c) .low, .gpioSetLevel (latchPin c) .high]
  | .attResetPulse => [.gpioSetLevel .attRstN b.attRstActive, .gpioSetLevel .attRstN (otherLevel b.attRstActive)]
  | .ddsResetPulse => [.gpioSetLevel .ddsReset b.ddsRstActive, .gpioSetLevel .ddsReset (otherLevel b.ddsRstActive)]
  | .pinLowOut p => [.gpioSetLevel p .low, .gpioSetDirection p .output]

/-- The mnemonic of a command (R85). -/
def mnemonic : Instr → String
  | .init => "INIT"
  | .gpioSetDirection _ _ => "GPIO_SET_DIRECTION"
  | .gpioSetLevel _ _ => "GPIO_SET_LEVEL"
  | .ddsConfigureMode _ => "DDS_CONFIGURE_MODE"
  | .ddsWrite _ _ => "DDS_WRITE"
  | .ddsRead _ _ => "DDS_READ"
  | .ddsStartStream => "DDS_START_STREAM"
  | .attSet _ _ => "ATT_SET"
  | .attGet _ => "ATT_GET"

/-- The name of a channel (R95). -/
def channelName : Channel → String
  | .in0 => "In0"
  | .out0 => "Out0"
  | .in1 => "In1"
  | .out1 => "Out1"

/-- The name of a pin (R95, R101). -/
def pinName : GpioPin → String
  | .led4Green => "Led4Green"
  | .led5Red => "Led5Red"
  | .led6Green => "Led6Green"
  | .led7Red => "Led7Red"
  | .led8Green => "Led8Green"
  | .led9Red => "Led9Red"
  | .detPwrdown0 => "DetPwrdown0"
  | .detPwrdown1 => "DetPwrdown1"
  | .attLe0 => "AttLe0"
  | .attLe1 => "AttLe1"
  | .attLe2 => "AttLe2"
  | .attLe3 => "AttLe3"
  | .ddsReset => "DdsReset"
  | .attRstN => "AttRstN"
  | .oscEnN => "OscEnN"
  | .extClkSel => "ExtClkSel"

/-- A byte in hexadecimal (R95). -/
def hexByte (b : Byte) : String :=
  "0x" ++ String.ofList [Nat.digitChar (b.toNat / 16), Nat.digitChar (b.toNat % 16)]

/-- The decimal digits after the point of `r / 2^149`, at most `k` of them; 149 are always enough. -/
def fractionDigits : Nat → Nat → List Char
  | 0, _ => []
  | k + 1, r => if r = 0 then [] else Nat.digitChar (r * 10 / 2 ^ 149) :: fractionDigits k (r * 10 % 2 ^ 149)

/-- An attenuation as an exact decimal number of dB (R95); the data that are no number have none and are spelled out (log 28). -/
def decimalDb (x : BitVec 32) : String :=
  let sign := if f32Negative x then "-" else ""
  if f32Finite x then
    let digits := fractionDigits 149 (f32Units x % 2 ^ 149)
    sign ++ Nat.repr (f32Units x / 2 ^ 149) ++ "." ++ (if digits = [] then "0" else String.ofList digits)
  else if f32Fraction x = 0 then sign ++ "inf" else "nan"

/-- The operands of a command as text (R95). -/
def operandTexts : Instr → List String
  | .init => []
  | .gpioSetDirection p .input => [pinName p, "Input"]
  | .gpioSetDirection p .output => [pinName p, "Output"]
  | .gpioSetLevel p .low => [pinName p, "Low"]
  | .gpioSetLevel p .high => [pinName p, "High"]
  | .ddsConfigureMode .narrowCompat => ["NarrowCompat"]
  | .ddsConfigureMode .native => ["Native"]
  | .ddsWrite addr payload => [hexByte addr, "[" ++ String.intercalate ", " (payload.map hexByte) ++ "]"]
  | .ddsRead addr n => [hexByte addr, Nat.repr n]
  | .ddsStartStream => []
  | .attSet c x => [channelName c, decimalDb x]
  | .attGet c => [channelName c]

/-- One command per line: mnemonic, then operands separated by commas (R95). -/
def assemblerText (i : Instr) : String :=
  match operandTexts i with
  | [] => mnemonic i
  | ops => mnemonic i ++ " " ++ String.intercalate ", " ops

end Sys2Proof.Machine
end

