-- ==== Sys2Proof/Tests/Slice0.lean ====
section
/-! SUPPORT. The model's own tests: words and results from spec/95_test_vectors.md, and for each obligation with premises a
state and operands that meet them. -/

namespace Sys2Proof.Tests

open Sys2Proof.Machine

/-! ## A board and states to test on (the defaults of spec/00_scope.md R11, `rr` = 03) -/

def answer (r : BusOutcome) : Draw where
  outcome := r
  busy := false
  takes := false
  edge := false
  drops := false
  driver := 0xEE
  data := [0xD0, 0xD1, 0xD2, 0xD3]
  rx := #v[0x55, 0x56, 0x57, 0x58]
  staging := #v[0x61, 0x62, 0x63, 0x64]
  output := #v[0x71, 0x72, 0x73, 0x74]
  xdir := Vector.replicate 16 .input
  xlat := Vector.replicate 16 .high
  chip := ⟨9⟩

def board (fitted : Option Variant) : Board where
  fitted := fitted
  idxA := Vector.ofFn id
  idxB := Vector.ofFn id
  attRstActive := .low
  ddsRstActive := .high
  attResetByte := 0x03
  ddsPowerOn := ⟨1⟩

/-- As INIT leaves it, but in native mode; every answer to come is ok. -/
def ready (v : Variant) : State where
  blk :=
    { phase := .ready
      variant := some v
      mode := .native
      streaming := false
      buf := #v[0, 0, 0, 0]
      cap := #v[0, 0, 0, 0]
      enc := Vector.replicate 12 0xEE
      stepIx := 0 }
  dev :=
    { staging := #v[0x03, 0x03, 0x03, 0x03]
      output := #v[0x03, 0x03, 0x03, 0x03]
      xdir := Vector.replicate 16 .output
      xlat := (Vector.replicate 16 Level.low).set 13 .high
      qbusy := false
      qstream := false
      ddsChip := ⟨1⟩ }
  board := board (some v)
  io := { host := [], env := List.replicate 20 (answer .ok), draws := 0, trace := [], responses := [] }

def uninit (fitted : Option Variant) (first : BusOutcome) : State :=
  { ready .a with
    blk := { (ready .a).blk with phase := .uninit, variant := none, mode := .narrowCompat }
    board := board fitted
    io := { (ready .a).io with env := answer first :: List.replicate 39 (answer .ok) } }

def withEnv (env : List BusOutcome) (s : State) : State := { s with io := { s.io with env := env.map answer } }

def withHost (commands : List (List Byte)) (s : State) : State := { s with io := { s.io with host := commands } }

def withChain (s o : Quad) (st : State) : State := { st with dev := { st.dev with staging := s, output := o } }

def withPin (i : Fin 16) (x : Dir) (l : Level) (s : State) : State :=
  { s with dev := { s.dev with xdir := s.dev.xdir.set i x, xlat := s.dev.xlat.set i l } }

/-- What the outcome's next state answered, and which primitives it issued. -/
def answered : Host.Outcome State Fault Refusal → Option (List (List Byte) × List BusEvent)
  | .next t => some (t.io.responses, t.io.trace)
  | .fault _ => none
  | .refused _ => none

def devices : Host.Outcome State Fault Refusal → Option Devices
  | .next t => some t.dev
  | .fault _ => none
  | .refused _ => none

def blockOf : Host.Outcome State Fault Refusal → Option Block
  | .next t => some t.blk
  | .fault _ => none
  | .refused _ => none

/-! ## Well-formedness: each check refuses a term -/

theorem test_wellFormed_payload_256 : (Instr.ddsWrite 0 (List.replicate 256 0)).wellFormed = false := by decide +kernel
theorem test_wellFormed_payload_255 : (Instr.ddsWrite 0 (List.replicate 255 0)).wellFormed = true := by decide +kernel
theorem test_wellFormed_read_256 : (Instr.ddsRead 0 256).wellFormed = false := by decide
theorem test_wellFormed_read_255 : (Instr.ddsRead 0 255).wellFormed = true := by decide

/-! ## Decoding: the words of 95_test_vectors.md -/

theorem test_decode_init : decode [0x00] = .ok .init := by decide
theorem test_decode_setDirection : decode [0x10, 0x0F, 0x00] = .ok (.gpioSetDirection .extClkSel .input) := by decide
theorem test_decode_setLevel : decode [0x11, 0x0A, 0x01] = .ok (.gpioSetLevel .attLe2 .high) := by decide
theorem test_decode_setLevel_ff : decode [0x11, 0x0F, 0xFF] = .ok (.gpioSetLevel .extClkSel .high) := by decide
theorem test_decode_configureMode : decode [0x20, 0x01] = .ok (.ddsConfigureMode .native) := by decide
theorem test_decode_write : decode [0x21, 0x04, 0x04, 0x12, 0x34, 0x56, 0x78] = .ok (.ddsWrite 0x04 [0x12, 0x34, 0x56, 0x78]) := by
  decide
theorem test_decode_read : decode [0x22, 0x7F, 0x02] = .ok (.ddsRead 0x7F 2) := by decide
theorem test_decode_startStream : decode [0x23] = .ok .ddsStartStream := by decide
theorem test_decode_attSet : decode [0x30, 0x03, 0x41, 0x2B, 0x33, 0x33] = .ok (.attSet .out1 0x412B3333) := by decide
theorem test_decode_attGet : decode [0x31, 0x01] = .ok (.attGet .out0) := by decide

theorem test_refuse_pin : decode [0x10, 0x10, 0x01] = .error (.badPin 0x10) := by decide
theorem test_refuse_dir : decode [0x10, 0x00, 0x02] = .error (.badDir 0x02) := by decide
theorem test_refuse_mode : decode [0x20, 0x02] = .error (.badMode 0x02) := by decide
theorem test_refuse_channel : decode [0x31, 0x04] = .error (.badChannel 0x04) := by decide
theorem test_refuse_opcode : decode [0x40] = .error (.unknownOpcode 0x40) := by decide
theorem test_refuse_short_payload : decode [0x21, 0x04, 0x02, 0x00] = .error (.wrongLength .ddsWrite) := by decide
theorem test_refuse_long : decode [0x00, 0x00] = .error (.wrongLength .init) := by decide

theorem test_tableWord_attGet : decodeTableWord 16 0x0231 = some (.attGet .in1) := by decide
theorem test_tableWord_write_no_payload : decodeTableWord 24 0x005A21 = some (.ddsWrite 0x5A []) := by decide
theorem test_tableWord_write_zeros : decodeTableWord 24 0x025A21 = some (.ddsWrite 0x5A [0, 0]) := by decide

/-! ## Pure functions -/

theorem test_enc4_F6 : enc4 0xF6 = [0x11, 0x11, 0x01, 0x10] := by decide
theorem test_frame : narrowFrame 0x5A [0xC3] = [0x01, 0x01, 0x10, 0x10, 0x11, 0x00, 0x00, 0x11] := by decide
theorem test_byteOf_20 : byteOf 20 = 0xAF := by decide
theorem test_codeOf_57 : f32OfHalf (codeOf 0x57) = 0x41A80000 := by decide
theorem test_attCode_truncates : attValid 0x412B3333 = true ∧ attCode 0x412B3333 = 21 := by decide
/-- R46: the host's default leaves code 63, byte 03, in every channel. -/
theorem test_attDefault :
    attValid attDefault = true ∧ byteOf (attCode attDefault) = 0x03 ∧
      defaultConfiguration.map encode = [0x00, 0x01, 0x02, 0x03].map fun c => [0x30, c, 0x41, 0xFC, 0x00, 0x00] := by decide
theorem test_attValid_bounds :
    attValid 0x41FC0000 = true ∧ attValid 0x41FC0001 = false ∧ attValid 0x80000000 = true ∧ attValid 0x80000001 = false ∧
      attValid 0x7FC00000 = false ∧ attValid 0xFF800000 = false := by decide

/-! ## Single commands -/

theorem test_setLevel_latches :
    devices (exec (.gpioSetLevel .attLe2 .high) (withChain #v[3, 3, 0xAF, 3] #v[3, 3, 3, 3] (ready .a))) =
      some { (ready .a).dev with
        staging := #v[3, 3, 0xAF, 3], output := #v[3, 3, 0xAF, 3], xlat := (ready .a).dev.xlat.set 10 .high } := by decide
theorem test_setLevel_no_edge :
    (devices (exec (.gpioSetLevel .attLe2 .high)
      (withPin 10 .output .high (withChain #v[3, 3, 0xAF, 3] #v[3, 3, 3, 3] (ready .a))))).map (·.output) =
      some #v[3, 3, 3, 3] := by decide
/-- R112, R169: the active level written to a reset line that is there already is no edge. -/
theorem test_setLevel_reset_no_edge :
    (devices (exec (.gpioSetLevel .attRstN .low)
      (withPin 13 .output .low (withChain #v[1, 2, 3, 4] #v[5, 6, 7, 8] (ready .a))))).map (fun d => (d.staging, d.output)) =
      some (#v[1, 2, 3, 4], #v[5, 6, 7, 8]) := by decide
theorem test_setLevel_resets :
    (devices (exec (.gpioSetLevel .attRstN .low) (withChain #v[1, 2, 3, 4] #v[5, 6, 7, 8] (ready .a)))).map
      (fun d => (d.staging, d.output)) = some (#v[3, 3, 3, 3], #v[3, 3, 3, 3]) := by decide
theorem test_setDirection_undrives :
    devices (exec (.gpioSetDirection .extClkSel .input) (ready .b)) =
      some { (ready .b).dev with xdir := (ready .b).dev.xdir.set 15 .input } := by decide
theorem test_setDirection_error :
    answered (exec (.gpioSetDirection .led4Green .output) (withEnv [.error] (ready .b))) =
      some ([[0x02]], [.expDir .b 0 .output .error]) := by decide
theorem test_configureMode :
    answered (exec (.ddsConfigureMode .narrowCompat) (ready .a)) = some ([[0x00]], []) := by decide
theorem test_write_narrow :
    answered (exec (.ddsWrite 0x00 [0xF6]) { ready .a with blk := { (ready .a).blk with mode := .narrowCompat } }) =
      some ([[0x00]], [.qspiWrite 0x00 [0x00, 0x00, 0x00, 0x11, 0x11, 0x01, 0x10] .ok]) := by decide
/-- R13: the frame of a transaction that fails is not written to `ENC`. -/
theorem test_write_narrow_error :
    (blockOf (exec (.ddsWrite 0x00 [0xF6])
      (withEnv [.error] { ready .a with blk := { (ready .a).blk with mode := .narrowCompat } }))).map (·.enc) =
      some (Vector.replicate 12 0xEE) := by decide
theorem test_write_error :
    answered (exec (.ddsWrite 0x04 [0x00]) (withEnv [.error] (ready .a))) =
      some ([[0x03, 0xEE]], [.qspiWrite 0x04 [0x00] .error]) := by decide
theorem test_read :
    answered (exec (.ddsRead 0x04 2) (ready .a)) =
      some ([[0x00, 0xD0, 0xD1]], [.qspiRead 0x84 2 .ok [0xD0, 0xD1]]) := by decide
theorem test_startStream :
    answered (exec .ddsStartStream (ready .a)) = some ([[0x00]], [.qspiBusy false, .qspiStreamOverride]) := by decide
theorem test_attSet :
    answered (exec (.attSet .in1 0x41200000) (ready .a)) =
      some ([[0x00, 0x41, 0x20, 0x00, 0x00]],
        [.spiXfer #v[0, 0, 0, 0] .ok (some #v[3, 3, 3, 3]), .spiXfer #v[3, 3, 0xAF, 3] .ok (some #v[0, 0, 0, 0]),
          .expLevel .a 10 .low .ok, .expLevel .a 10 .high .ok]) := by decide
theorem test_attSet_unsynchronised :
    (devices (exec (.attSet .in0 0x3F800000) (withChain #v[0x11, 0x22, 0x33, 0x44] #v[3, 3, 3, 3] (ready .a)))).map
        (fun d => (d.staging, d.output)) =
      some (#v[0xF7, 0x22, 0x33, 0x44], #v[0xF7, 3, 3, 3]) := by decide
theorem test_attGet_unsynchronised :
    answered (exec (.attGet .out0) (withChain #v[0x11, 0x22, 0x33, 0x44] #v[3, 3, 3, 3] (ready .a))) =
      some ([[0x00, 0x41, 0xDC, 0x00, 0x00]],
        [.spiXfer #v[0, 0, 0, 0] .ok (some #v[0x11, 0x22, 0x33, 0x44]),
          .spiXfer #v[0x11, 0x22, 0x33, 0x44] .ok (some #v[0, 0, 0, 0])]) := by decide
theorem test_init_variant_b :
    (devices (exec .init (uninit (some .b) .error))).map (fun d => (d.xdir, d.xlat)) =
      some (Vector.replicate 16 .output, (Vector.replicate 16 Level.low).set 13 .high) := by decide +kernel

theorem test_withFetchWord :
    step ((ready .a).withFetchWord 16 0x0231) = exec (.attGet .in1) (ready .a) := rfl

theorem test_assemblerText : assemblerText (.attSet .in1 0x41280000) = "ATT_SET In1, 10.5" := by decide

/-! ## Witnesses: for each obligation with premises, a state and operands that meet all of them, and for one with several
clauses, one for each -/

def narrow (s : State) : State := { s with blk := { s.blk with mode := .narrowCompat } }
def streaming (s : State) : State := { s with blk := { s.blk with streaming := true }, dev := { s.dev with qstream := true } }
def inPhase (p : Phase) (s : State) : State := { s with blk := { s.blk with phase := p } }
def busy (s : State) : State := { s with io := { s.io with env := [{ answer .ok with busy := true }] } }
def stuck : State := { ready .a with blk := { (ready .a).blk with stepIx := 1 } }
def tooLoud : BitVec 32 := 0x41FC0001

theorem witness_DecodeOfEncodeIsTheCommand :
    (Instr.ddsWrite 0x7F (List.replicate 255 0xFF)).wellFormed = true ∧ (Instr.ddsRead 0x7F 255).wellFormed = true := by
  decide +kernel

theorem witness_AcceptedBytesAreAnEncoding :
    decode [0x22, 0xFF, 0xFF] = .ok (.ddsRead 0xFF 255) ∧ decode [0x11, 0x0F, 0xFF] = .ok (.gpioSetLevel .extClkSel .high) := by
  decide

theorem witness_MalformedBytesAreRejected :
    (0x01 : Byte).toNat ∉ [0x00, 0x10, 0x11, 0x20, 0x21, 0x22, 0x23, 0x30, 0x31] ∧
      (commandLength [0x21, 0x04, 0x02, 0x00] = some 5 ∧ [(0x21 : Byte), 0x04, 0x02, 0x00].length ≠ 5) ∧
      15 < (0x10 : Byte).toNat ∧ ((0x0F : Byte).toNat ≤ 15 ∧ 1 < (0x02 : Byte).toNat) ∧ 3 < (0x04 : Byte).toNat := by decide

theorem witness_StepRunsTheDecodedCommand :
    let s := withHost [[0x31, 0x02], [0x23]] (ready .a)
    s.blk.stepIx = 0 ∧ s.io.host = [0x31, 0x02] :: [[0x23]] ∧ decode [0x31, 0x02] = .ok (.attGet .in1) := by decide

theorem witness_StepRefusesMalformedBytes :
    let s := withHost [[0x31, 0x04]] (ready .a)
    s.blk.stepIx = 0 ∧ s.io.host = [0x31, 0x04] :: [] ∧ decode [0x31, 0x04] = .error (.badChannel 0x04) := by decide

/-- Every kind of transaction never completing, in a whole command, and a command that answers. -/
theorem witness_StalledBlockNeverEnds :
    ((withEnv [.stalled] (ready .a)).upcoming 0).outcome = .stalled ∧
      (∀ i ∈ [Instr.attGet .in0, .attSet .in0 0, .ddsWrite 0 [], .ddsRead 0 1, .gpioSetLevel .led4Green .high,
          .gpioSetDirection .led4Green .input],
        ((answered (exec i (withEnv [.stalled] (ready .a)))).map (·.1)) = some []) ∧
      answered (exec .init { uninit none .error with
        io := { (uninit none .error).io with env := [answer .error, answer .stalled] } }) =
        some ([], [.expProbe .a .error, .expLevel .b 0 .low .stalled]) ∧
      stuck.blk.stepIx ≠ 0 := by decide

theorem witness_IdleBlockWaitsForTheHost : (ready .a).blk.stepIx = 0 ∧ (ready .a).io.host = [] := by decide

theorem witness_OneResponsePerCommand :
    (∃ t, exec .ddsStartStream (ready .a) = .next t) ∧ ∃ t, exec .ddsStartStream (busy (ready .a)) = .next t :=
  ⟨⟨_, rfl⟩, ⟨_, rfl⟩⟩

theorem witness_PhaseIsWrittenByInitOnly :
    (∃ t, exec (.attGet .in0) (ready .a) = .next t ∧ Instr.attGet .in0 ≠ .init) ∧
      (∃ t, exec .init (uninit none .error) = .next t) ∧
      ((uninit none .ok).blk.stepIx = 0 ∧ Instr.ddsStartStream ≠ .init ∧ (uninit none .ok).blk.phase ≠ .ready) ∧
      (ready .a).blk.stepIx = 0 ∧ (ready .a).blk.phase ≠ .uninit :=
  ⟨⟨_, rfl, by decide⟩, ⟨_, rfl⟩, by decide, by decide⟩

theorem witness_SecondInitIsRefused :
    ((ready .a).blk.stepIx = 0 ∧ (ready .a).blk.phase = .ready) ∧
      (inPhase .failed (ready .a)).blk.stepIx = 0 ∧ (inPhase .failed (ready .a)).blk.phase = .failed := by decide

theorem witness_OverlappingCommandIsRefused : stuck.blk.stepIx ≠ 0 := by decide

theorem witness_AddressMapsRoundTrip :
    (board none).admissible ∧ ∀ c, GpioPin.ddsReset ≠ latchPin c := by
  refine ⟨by decide, fun c => ?_⟩
  cases c <;> decide

theorem witness_EncodedBytePlacement : (3 < 4) ∧ (0 < 4) := by decide

/-- Met by every statement whose only premise is `Accepting`: ConfigureModeWritesModeOnly, StartStreamChecksBusyFirst (both
clauses). -/
theorem witness_Accepting :
    (ready .a).Accepting ∧ ((ready .a).upcoming 0).busy = false ∧ (busy (ready .a)).Accepting ∧
      ((busy (ready .a)).upcoming 0).busy = true := by decide

theorem witness_DdsChecksInOrder :
    (narrow (streaming (ready .a))).Accepting ∧ (0x80 : Byte).getLsbD 7 = true ∧ (0x7F : Byte).getLsbD 7 = false ∧
      (narrow (streaming (ready .a))).blk.streaming = true ∧ (narrow (ready .a)).blk.mode ≠ .native ∧
      ((narrow (ready .a)).Accepting ∧ (narrow (ready .a)).blk.streaming = false ∧
        (narrow (ready .a)).blk.mode = .narrowCompat ∧ 2 < [(0 : Byte), 0, 0].length) := by decide

theorem witness_ReadWhileStreamingIsRefused :
    (streaming (ready .a)).Accepting ∧ (0x7F : Byte).getLsbD 7 = false ∧ (streaming (ready .a)).blk.mode = .native ∧
      (streaming (ready .a)).blk.streaming = true := by decide

/-- Met by NativeWritePassesThrough and NativeReadReturnsTheBytes. -/
theorem witness_NativeTransfers :
    (ready .a).Accepting ∧ (ready .a).blk.mode = .native ∧ (ready .a).blk.streaming = false ∧
      (0x7F : Byte).getLsbD 7 = false ∧ (ready .a).NextOk 1 := by decide

theorem witness_NarrowWriteSendsTheFrame :
    (narrow (ready .a)).Accepting ∧ (narrow (ready .a)).blk.mode = .narrowCompat ∧
      (narrow (ready .a)).blk.streaming = false ∧ (0x7F : Byte).getLsbD 7 = false ∧
      [(0xFF : Byte), 0xFF].length ≤ 2 ∧ (narrow (ready .a)).NextOk 1 := by decide

theorem witness_QspiErrorsCarryTheDriverByte :
    let s := withEnv [.error] (ready .a)
    s.Accepting ∧ s.blk.streaming = false ∧ (0x7F : Byte).getLsbD 7 = false ∧ (s.upcoming 0).outcome = .error ∧
      s.blk.mode = .native ∧
      ((narrow s).Accepting ∧ (narrow s).blk.streaming = false ∧ ((narrow s).upcoming 0).outcome = .error ∧
        (narrow s).blk.mode = .narrowCompat ∧ [(0xFF : Byte), 0xFF].length ≤ 2) := by decide

theorem witness_StreamingIsNeverLeft :
    let s := withHost [[0x31, 0x00]] (streaming (ready .a))
    (∃ t, step s = .next t) ∧ s.blk.streaming = true ∧ s.dev.qstream = true := ⟨⟨_, rfl⟩, rfl, rfl⟩

theorem witness_NoAddressedTransactionWhileStreaming :
    let s := withHost [[0x21, 0x04, 0x00]] (streaming (ready .a))
    (∃ t, step s = .next t) ∧ s.blk.streaming = true := ⟨⟨_, rfl⟩, rfl⟩

/-- Met by SetLevelWritesOnePin and SetDirectionWritesOnePin, on either variant. -/
theorem witness_PinWrites :
    ((ready .a).Accepting ∧ (ready .a).Selected .a ∧ (ready .a).NextOk 1) ∧
      (ready .b).Accepting ∧ (ready .b).Selected .b ∧ (ready .b).NextOk 1 := by decide

theorem witness_LatchLineLatchesOnRisingEdge :
    let s := withChain #v[1, 2, 3, 4] #v[3, 3, 3, 3] (ready .a)
    (s.Accepting ∧ s.Selected .a ∧ s.NextOk 1 ∧ s.board.admissible ∧ s.PinOutput .a (latchPin .out1) ∧ s.AttRunning) ∧
      ∃ t, exec (.gpioSetLevel (latchPin .out1) .high) s = .next t := ⟨by decide, ⟨_, rfl⟩⟩

theorem witness_LevelOfInputOrPlainPinActsOnNothing :
    let s := withPin 8 .input .low (ready .a)
    (s.Accepting ∧ s.Selected .a ∧ s.NextOk 1 ∧ s.board.admissible) ∧
      (s.dev.xdir[idx s.board .a .attLe0] = .input ∧ ∃ t, exec (.gpioSetLevel .attLe0 .high) s = .next t) ∧
      (((∀ c, GpioPin.led4Green ≠ latchPin c) ∧ GpioPin.led4Green ≠ .attRstN ∧ GpioPin.led4Green ≠ .ddsReset) ∧
        ∃ t, exec (.gpioSetLevel .led4Green .high) s = .next t) :=
  ⟨by decide, ⟨by decide, _, rfl⟩, ⟨⟨fun c => by cases c <;> decide, by decide, by decide⟩, _, rfl⟩⟩

theorem witness_ResetLinesResetTheirDevices :
    let held := withPin 12 .output .high (withPin 13 .output .low (ready .a))
    (∀ s ∈ [ready .a, held], s.Accepting ∧ s.Selected .a ∧ s.NextOk 1 ∧ s.board.admissible ∧ s.PinOutput .a .attRstN ∧
        s.PinOutput .a .ddsReset ∧ (exec (.gpioSetLevel .attRstN .low) s matches .next _) = true ∧
        (exec (.gpioSetLevel .ddsReset .high) s matches .next _) = true) ∧
      (ready .a).dev.xlat[idx (ready .a).board .a .attRstN] ≠ (ready .a).board.attRstActive ∧
      held.dev.xlat[idx held.board .a .attRstN] = held.board.attRstActive ∧
      held.dev.xlat[idx held.board .a .ddsReset] = held.board.ddsRstActive := by decide

theorem witness_DirectionChangeDrivesTheLatchedLevel :
    let s := withPin 8 .input .high (ready .a)
    let held := withPin 13 .input .low (withPin 12 .input .high s)
    ((s.Accepting ∧ s.Selected .a ∧ s.NextOk 1 ∧ s.board.admissible) ∧
        held.Accepting ∧ held.Selected .a ∧ held.NextOk 1 ∧ held.board.admissible) ∧
      (s.dev.xdir[idx s.board .a .attLe0] = .input ∧ ∃ t, exec (.gpioSetDirection .attLe0 .input) s = .next t) ∧
      (s.dev.xdir[idx s.board .a (latchPin .in0)] = .input ∧ s.AttRunning ∧
        ∃ t, exec (.gpioSetDirection (latchPin .in0) .output) s = .next t) ∧
      (s.dev.xdir[idx s.board .a .attRstN] ≠ .input ∧ ∃ t, exec (.gpioSetDirection .attRstN .input) s = .next t) ∧
      (s.dev.xdir[idx s.board .a .ddsReset] ≠ .input ∧ ∃ t, exec (.gpioSetDirection .ddsReset .input) s = .next t) ∧
      (held.dev.xdir[idx held.board .a .attRstN] ≠ .output ∧
        held.dev.xlat[idx held.board .a .attRstN] = held.board.attRstActive ∧
        ∃ t, exec (.gpioSetDirection .attRstN .output) held = .next t) ∧
      (held.dev.xdir[idx held.board .a .ddsReset] ≠ .output ∧
        held.dev.xlat[idx held.board .a .ddsReset] = held.board.ddsRstActive ∧
        ∃ t, exec (.gpioSetDirection .ddsReset .output) held = .next t) :=
  ⟨by decide, ⟨by decide, _, rfl⟩, ⟨by decide, by decide, _, rfl⟩, ⟨by decide, _, rfl⟩, ⟨by decide, _, rfl⟩,
    ⟨by decide, by decide, _, rfl⟩, ⟨by decide, by decide, _, rfl⟩⟩

theorem witness_GpioErrorLeavesOldOrNewElement :
    ∀ r ∈ [BusOutcome.error, .stalled], let s := withEnv [r] (ready .b)
      s.Accepting ∧ s.Selected .b ∧ (s.upcoming 0).outcome = r := by decide

theorem ready_inv : Inv (ready .a) where
  admissible := by decide
  streams := rfl
  selected _ := ⟨.a, rfl, rfl⟩
  bringUp h := absurd rfl h
  undetected h := by cases h
  failedIdle h := by cases h
  stepBound := by decide

theorem witness_VariantIsChosenOnce :
    let s := withHost [[0x31, 0x00]] (ready .a)
    Inv s ∧ (∃ t, step s = .next t) ∧ s.blk.variant ≠ none :=
  ⟨⟨ready_inv.1, ready_inv.2, ready_inv.3, ready_inv.4, ready_inv.5, ready_inv.6, ready_inv.7⟩, ⟨_, rfl⟩, by decide⟩

/-- Every clause, the ways INIT can end among them: at the probe, at its first write and at its last, and with all made. -/
theorem witness_ExpanderWritesNameTheSelectedVariant :
    ((ready .b).blk.variant = some .b ∧ (exec (.gpioSetLevel .led5Red .high) (ready .b) matches .next _) = true ∧
        (exec (.gpioSetDirection .led5Red .input) (ready .b) matches .next _) = true ∧
        (exec (.attSet .in0 0) (ready .b) matches .next _) = true) ∧
      (answered (exec .init (uninit none .stalled)) = some ([], [.expProbe .a .stalled]) ∧
        answered (exec .init (uninit none .error)) =
          some ([[0x02]], [.expProbe .a .error, .expLevel .b 0 .low .error]) ∧
        ((answered (exec .init (withEnv (List.replicate 36 .ok ++ [.error]) (uninit (some .a) .ok)))).map fun a =>
          (a.1, a.2.length, a.2.getLast?)) = some ([[0x02]], 37, some (.expLevel .a 12 .low .error)) ∧
        ((answered (exec .init (withEnv (List.replicate 36 .ok ++ [.stalled]) (uninit (some .a) .ok)))).map fun a =>
          (a.1, a.2.length, a.2.getLast?)) = some ([], 37, some (.expLevel .a 12 .low .stalled)) ∧
        ((answered (exec .init (uninit (some .a) .ok))).map fun a => (a.1, a.2.tail)) =
          some ([[0x00]], initWrites (board (some .a)) .a)) ∧
      ∃ t, exec (.attGet .in0) (ready .b) = .next t ∧ Instr.attGet .in0 ≠ .init ∧
        (∀ p l, Instr.attGet .in0 ≠ .gpioSetLevel p l) ∧ (∀ p x, Instr.attGet .in0 ≠ .gpioSetDirection p x) ∧
        ∀ c y, Instr.attGet .in0 ≠ .attSet c y :=
  ⟨by decide, by decide +kernel, _, rfl, by decide, nofun, nofun, nofun⟩

theorem witness_InvalidAttenuationRaisesBounds :
    (ready .a).Accepting ∧ ¬(f32Finite tooLoud = true ∧ 0 ≤ f32Val tooLoud ∧ f32Val tooLoud ≤ 63 / 2) := by
  have hu : f32Units tooLoud = 16515073 * 2 ^ 130 := by decide
  have hn : f32Negative tooLoud = false := by decide
  refine ⟨by decide, fun h => absurd h.2.2 ?_⟩
  norm_num [f32Val, hu, hn]

theorem witness_AttenuationOfAByte : (0xAF : Byte) >>> 2 = 0xAC >>> 2 := by decide

theorem witness_CodeIsTheFloorOfTwiceTheValue :
    attValid 0x41FC0000 = true ∧ attValid 0x80000000 = true ∧ 63 ≤ 63 ∧ 0 ≤ 63 := by decide

/-- Met by AttSetAnswersTheAppliedValue, AttSetChangesOneChannel (both directions of the latch pin), AttenuationRoundTrip and
AttenuatorCommandsKeepSynchronisation. -/
theorem witness_AttSet :
    let s := ready .a
    (s.Accepting ∧ s.Selected .a ∧ s.board.admissible ∧ attValid 0x41FC0000 = true ∧ s.NextOk 6 ∧ s.AttRunning ∧
        s.PinOutput .a (latchPin .out1) ∧ s.Synchronised) ∧
      (∃ t, exec (.attSet .out1 0x41FC0000) s = .next t) ∧ (∃ t, exec (.attGet .out1) s = .next t) ∧
      ∃ t, exec (.attSet .out1 0x41FC0000) (withPin 11 .input .low s) = .next t :=
  ⟨by decide, ⟨_, rfl⟩, ⟨_, rfl⟩, ⟨_, rfl⟩⟩

/-- Met by every clause on `DDSCHIP`, and not only by states that do not stream. -/
theorem witness_NotStreaming : (ready .a).NotStreaming ∧ ¬(streaming (ready .a)).NotStreaming := by decide

theorem witness_AttGetReadsAndRestores : (ready .a).Accepting ∧ (ready .a).NextOk 2 ∧ (ready .a).AttRunning := by decide

/-- With the reset line at its active level, and undriven. -/
theorem witness_AttGetInResetAnswersWhatItRead :
    ∀ x ∈ [Dir.output, .input], let s := withPin 13 x .low (ready .a)
      s.Accepting ∧ s.NextOk 2 ∧ ¬s.AttRunning := by decide

theorem witness_FourAttSetsResynchronise :
    let s := withChain #v[1, 2, 3, 4] #v[5, 6, 7, 8] (ready .a)
    ([Channel.out1, .in1, .out0, .in0].Nodup ∧ attValid 0 = true ∧ s.Accepting ∧ s.Selected .a ∧ s.board.admissible ∧
        s.NextOk 16 ∧ s.AttRunning ∧ ∀ c ∈ allChannels, s.PinOutput .a (latchPin c)) ∧
      ∃ s1 s2 s3 s4, exec (.attSet .out1 0) s = .next s1 ∧ exec (.attSet .in1 0) s1 = .next s2 ∧
        exec (.attSet .out0 0) s2 = .next s3 ∧ exec (.attSet .in0 0) s3 = .next s4 :=
  ⟨by decide, _, _, _, _, rfl, rfl, rfl, rfl⟩

/-- Each failing step, with the attenuators running and held in reset. -/
theorem witness_AttenuatorErrorsKeepEarlierEffects :
    (∀ s ∈ [ready .a, withPin 13 .output .low (ready .a)],
      s.Accepting ∧ s.Selected .a ∧ s.board.admissible ∧ attValid 0x41200000 = true) ∧ (ready .a).AttRunning ∧
      ∀ k ≤ 3, let s := withEnv (List.replicate k .ok ++ [.error]) (ready .a)
        s.NextOk k ∧ (s.upcoming k).outcome = .error := by decide

theorem witness_InitEndsInTheReadyState :
    (∀ v, let s := uninit (some v) (if v = .a then .ok else .error)
      (s.blk.stepIx = 0 ∧ s.blk.phase = .uninit ∧ s.board.admissible ∧ s.board.fitted = some v ∧
        (v = .a → (s.upcoming 0).outcome = .ok) ∧ (v = .b → (s.upcoming 0).outcome ≠ .stalled)) ∧ s.NotStreaming) ∧
      ∀ j, 1 ≤ j → j < 37 → ((uninit (some .b) .error).upcoming j).outcome = .ok :=
  ⟨fun v => by cases v <;> decide, by decide +kernel⟩

theorem witness_ProbeDecidesTheVariant :
    (∃ t, exec .init (uninit (some .a) .stalled) = .next t) ∧
      (exec .init (uninit (some .a) .ok) matches .next _) = true ∧
      (exec .init (uninit (some .a) .error) matches .next _) = true ∧
      (exec .init (uninit none .ok) matches .next _) = true ∧
      (uninit (some .a) .ok).blk.stepIx = 0 ∧ (uninit (some .a) .ok).blk.phase = .uninit :=
  ⟨⟨_, rfl⟩, rfl, rfl, rfl, rfl, rfl⟩

theorem witness_InitWithoutAChipFails :
    let s := uninit none .ok
    s.blk.stepIx = 0 ∧ s.blk.phase = .uninit ∧ s.board.fitted = none ∧ (s.upcoming 0).outcome ≠ .stalled ∧
      (s.upcoming 1).outcome ≠ .stalled := by decide

theorem witness_FailedIsLasting :
    (inPhase .failed (ready .a)).blk.phase = .failed ∧ ∃ t, step (inPhase .failed (ready .a)) = .next t := ⟨rfl, _, rfl⟩

theorem witness_InitUsesTheExpanderOnly : ∃ t, exec .init (uninit none .error) = .next t := ⟨_, rfl⟩

/-- Met by EveryStepKeepsTheInvariant and NoFaultFromTheInvariant. -/
theorem witness_Invariant :
    Inv (withHost [[0x30, 0x00, 0x00, 0x00, 0x00, 0x00]] (ready .a)) ∧
      ∃ t, step (withHost [[0x30, 0x00, 0x00, 0x00, 0x00, 0x00]] (ready .a)) = .next t :=
  ⟨⟨ready_inv.1, ready_inv.2, ready_inv.3, ready_inv.4, ready_inv.5, ready_inv.6, ready_inv.7⟩, ⟨_, rfl⟩⟩

theorem witness_InvalidChannelAndAdcAreNeverRaised :
    ∃ t, step (withHost [[0x30, 0x00, 0xBF, 0x00, 0x00, 0x00]] (ready .a)) = .next t := ⟨_, rfl⟩

/-- Met by BlockRegisterFrame and DeviceFrame, for one command of each family. -/
theorem witness_Frames :
    (ready .a).board.admissible ∧ (∃ t, exec (.gpioSetLevel .led5Red .high) (ready .a) = .next t) ∧
      (∃ t, exec (.gpioSetDirection .led5Red .input) (ready .a) = .next t) ∧
      (∃ t, exec (.ddsWrite 0 []) (ready .a) = .next t) ∧ (∃ t, exec (.attGet .in0) (ready .a) = .next t) ∧
      ∃ t, exec .init (uninit none .error) = .next t :=
  ⟨by decide, ⟨_, rfl⟩, ⟨_, rfl⟩, ⟨_, rfl⟩, ⟨_, rfl⟩, ⟨_, rfl⟩⟩

end Sys2Proof.Tests
end

/-! # What a command's sequence does, and the statements about the block's registers -/

namespace Sys2Proof.Machine

/-! ## A command as the sequence it runs -/

/-- The sequence a command runs once it is accepted and not refused, on the selected variant where it needs one.
`exec_next_flow` ties it to `exec`. -/
def commandFlow (i : Instr) (s : State) : Flow (List Byte) :=
  let v := s.blk.variant.getD .a
  match i with
  | .init => failInit (initSteps s)
  | .gpioSetDirection p x => (pinDir v p x s).bind fun _ s => .done [] s
  | .gpioSetLevel p l => (pinLevel v p l s).bind fun _ s => .done [] s
  | .ddsConfigureMode m => .done [] (s.setMode m).advance
  | .ddsWrite addr payload =>
    if addressIllegal addr then .raised .invalidAddress [] s
    else if s.blk.streaming then .raised .invalidState [] s
    else if s.blk.mode = .narrowCompat ∧ narrowMaxPayload < payload.length then .raised .bounds [] s
    else (ddsTransmit addr payload s).bind fun _ s => .done [] s
  | .ddsRead addr n =>
    if addressIllegal addr then .raised .invalidAddress [] s
    else if s.blk.mode ≠ .native then .raised .invalidState [] s
    else qspiRead (readAddress addr) n s
  | .ddsStartStream => (qspiBusy s).bind fun busy s => if busy then .raised .invalidState [] s else enterStreaming s
  | .attSet c x => if attValid x then attSetSteps v c (attCode x) s else .raised .bounds [] s
  | .attGet c => attGetSteps c s

/-- A command that answers a next state leaves the state its sequence ends in. -/
theorem exec_next_flow {i : Instr} {s t : State} (h : exec i s = .next t) : t = (commandFlow i s.accept).finish := by
  have run : ∀ {p run}, inPhase p s run = .next t → run s.accept = .next t := fun h => (inPhase_next h).2.2
  have inj : ∀ {u : State}, (.next u : Host.Outcome State Fault Refusal) = .next t → t = u :=
    fun h => (Host.Outcome.next.inj h).symm
  cases i with
  | init => exact inj (run ((exec_init s).symm.trans h))
  | gpioSetDirection p x =>
    obtain ⟨v, hv, hrun⟩ := withVariant_next (run ((exec_gpioSetDirection s p x).symm.trans h))
    rw [inj hrun, commandFlow, hv, Option.getD_some]
  | gpioSetLevel p l =>
    obtain ⟨v, hv, hrun⟩ := withVariant_next (run ((exec_gpioSetLevel s p l).symm.trans h))
    rw [inj hrun, commandFlow, hv, Option.getD_some]
  | ddsConfigureMode m => exact inj (run ((exec_ddsConfigureMode s m).symm.trans h))
  | ddsWrite addr payload =>
    have hrun := run ((exec_ddsWrite s addr payload).symm.trans h)
    simp only [commandFlow]
    split_ifs at hrun ⊢ <;> exact inj hrun
  | ddsRead addr n =>
    have hrun := run ((exec_ddsRead s addr n).symm.trans h)
    simp only [commandFlow]
    split_ifs at hrun ⊢ <;> exact inj hrun
  | ddsStartStream => exact inj (run ((exec_ddsStartStream s).symm.trans h))
  | attSet c x =>
    have hrun := run ((exec_attSet s c x).symm.trans h)
    simp only [commandFlow]
    split_ifs at hrun ⊢
    · obtain ⟨v, hv, hrun⟩ := withVariant_next hrun
      rw [inj hrun, hv, Option.getD_some]
    · exact inj hrun
  | attGet c => exact inj (run ((exec_attGet s c).symm.trans h))

/-- Every command but INIT is accepted in `Ready` alone. -/
theorem exec_next_ready {i : Instr} {s t : State} (hi : i ≠ .init) (h : exec i s = .next t) : s.blk.phase = .ready := by
  simpa [phaseOf, hi] using (exec_next_gate h).2

theorem inPhase_fault {p : Phase} {s : State} {f : Fault} {run : State → Host.Outcome State Fault Refusal}
    (h : inPhase p s run = .fault f) : s.blk.phase = p ∧ run s.accept = .fault f := by
  unfold inPhase at h
  split_ifs at h with _ hp
  exact ⟨not_not.1 hp, h⟩

theorem withVariant_fault {s : State} {f : Fault} {run : Variant → State}
    (h : withVariant s (fun v => .next (run v)) = .fault f) : s.blk.variant = none := by
  unfold withVariant at h
  split at h
  · cases h
  · assumption

/-- A fault is a command in `Ready` that finds no variant (log 20). -/
theorem exec_fault {i : Instr} {s : State} {f : Fault} (h : exec i s = .fault f) :
    s.blk.phase = .ready ∧ s.blk.variant = none := by
  cases i with
  | init => cases (inPhase_fault ((exec_init s).symm.trans h)).2
  | gpioSetDirection p x =>
    obtain ⟨hp, hrun⟩ := inPhase_fault ((exec_gpioSetDirection s p x).symm.trans h)
    exact ⟨hp, withVariant_fault hrun⟩
  | gpioSetLevel p l =>
    obtain ⟨hp, hrun⟩ := inPhase_fault ((exec_gpioSetLevel s p l).symm.trans h)
    exact ⟨hp, withVariant_fault hrun⟩
  | ddsConfigureMode m => cases (inPhase_fault ((exec_ddsConfigureMode s m).symm.trans h)).2
  | ddsWrite addr payload =>
    obtain ⟨-, hrun⟩ := inPhase_fault ((exec_ddsWrite s addr payload).symm.trans h)
    split_ifs at hrun
  | ddsRead addr n =>
    obtain ⟨-, hrun⟩ := inPhase_fault ((exec_ddsRead s addr n).symm.trans h)
    split_ifs at hrun
  | ddsStartStream => cases (inPhase_fault ((exec_ddsStartStream s).symm.trans h)).2
  | attSet c x =>
    obtain ⟨hp, hrun⟩ := inPhase_fault ((exec_attSet s c x).symm.trans h)
    split_ifs at hrun
    exact ⟨hp, withVariant_fault hrun⟩
  | attGet c => cases (inPhase_fault ((exec_attGet s c).symm.trans h)).2

/-! ## The block registers a command keeps (R28) -/

/-- The block registers a command is not listed as writing, `STEP` and those it is listed as writing blanked out (R28). -/
def unwritten (i : Instr) (b : Block) : Block :=
  match i with
  | .init => { b with stepIx := 0, phase := .uninit, variant := none }
  | .gpioSetDirection _ _ => { b with stepIx := 0 }
  | .gpioSetLevel _ _ => { b with stepIx := 0 }
  | .ddsConfigureMode _ => { b with stepIx := 0, mode := .native }
  | .ddsWrite _ _ => { b with stepIx := 0, enc := if b.mode = .native then b.enc else Vector.replicate 12 0 }
  | .ddsRead _ _ => { b with stepIx := 0 }
  | .ddsStartStream => { b with stepIx := 0, streaming := true }
  | .attSet _ _ => { b with stepIx := 0, buf := Vector.replicate 4 0 }
  | .attGet _ => { b with stepIx := 0, buf := Vector.replicate 4 0, cap := Vector.replicate 4 0 }

/-- `STEP` is not one of them. -/
@[simp] theorem unwritten_stepIx (i : Instr) (b : Block) (n : BitVec 6) :
    unwritten i { b with stepIx := n } = unwritten i b := by
  cases i <;> rfl

/-- From `s` to `t` nothing of the board or the host's queue, no response and no register but those command `i` writes has
changed. -/
structure Runs (i : Instr) (s t : State) : Prop where
  board : t.board = s.board
  host : t.io.host = s.io.host
  responses : t.io.responses = s.io.responses
  blk : unwritten i t.blk = unwritten i s.blk

theorem Runs.refl (i : Instr) (s : State) : Runs i s s := ⟨rfl, rfl, rfl, rfl⟩

theorem Runs.trans {i : Instr} (s t u : State) (h : Runs i s t) (h' : Runs i t u) : Runs i s u :=
  ⟨h'.board.trans h.board, h'.host.trans h.host, h'.responses.trans h.responses, h'.blk.trans h.blk⟩

/-! A bus primitive writes no block register but `STEP`. -/

theorem Primitive.runs {s t : State} (i : Instr) (h : Primitive s t) : Runs i s t where
  board := h.board
  host := h.host
  responses := h.responses
  blk := by rw [← unwritten_stepIx i t.blk 0, ← unwritten_stepIx i s.blk 0, h.blk]

theorem Primitive.phase {s t : State} (h : Primitive s t) : t.blk.phase = s.blk.phase :=
  congrArg (fun b => b.phase) h.blk

theorem Primitive.variant {s t : State} (h : Primitive s t) : t.blk.variant = s.blk.variant :=
  congrArg (fun b => b.variant) h.blk

theorem Primitive.mode {s t : State} (h : Primitive s t) : t.blk.mode = s.blk.mode :=
  congrArg (fun b => b.mode) h.blk

theorem Primitive.streaming {s t : State} (h : Primitive s t) : t.blk.streaming = s.blk.streaming :=
  congrArg (fun b => b.streaming) h.blk

/-! ## The sequence of a command but INIT, however it ends -/

section
variable {α β : Type} {R : State → State → Prop} {n : Nat} {s : State} {f : Flow α}

/-- What a sequence that has run to its end has reached. -/
theorem Flow.Reaches.of_done (h : f.Reaches R n s) {a : α} {t : State} (e : f = .done a t) :
    R s t ∧ t.blk.stepIx = s.blk.stepIx + BitVec.ofNat 6 n := by
  subst e; exact h

/-- A sequence that raises before its first transaction (R127, R146). -/
theorem Flow.Reaches.raised_at_once (k : ErrorKind) (info : List Byte) (h : R s s) :
    (Flow.raised k info s : Flow α).Reaches R 1 s := ⟨h, 0, by omega, by simp⟩

/-- One bus primitive, and after it the rest of the sequence. -/
theorem Flow.Reaches.then {i : Instr} {m : Nat} {g : α → State → Flow β} (hf : f.Reaches Primitive n s)
    (hg : ∀ a t, Primitive s t → (g a t).Reaches (Runs i) m t) : (f.bind g).Reaches (Runs i) (n + m) s :=
  .bind Runs.trans (hf.imp fun _ => Primitive.runs i) fun a t e => hg a t (hf.of_done e).1

end

/-- A frame's bytes are never none: the first goes in the address phase (R74). -/
theorem narrowWrite_eq (addr : Byte) (payload : List Byte) (s : State) :
    ∃ first rest, readEnc (writeEnc s.blk.enc (narrowFrame addr payload)) (4 * payload.length + 4) = first :: rest ∧
      narrowWrite addr payload s = (qspiWrite first rest s).bind fun _ t =>
        .done () (t.setEnc (writeEnc s.blk.enc (narrowFrame addr payload))) := by
  obtain ⟨first, rest, h⟩ : ∃ first rest,
      readEnc (writeEnc s.blk.enc (narrowFrame addr payload)) (4 * payload.length + 4) = first :: rest :=
    List.exists_cons_of_length_pos (by simp [readEnc])
  exact ⟨first, rest, h, by simp only [narrowWrite, h]⟩

/-- The one transaction of a DDS_WRITE; `ENC` is written in narrow-compatibility mode alone (R25, R128). -/
theorem ddsTransmit_reaches (addr : Byte) (payload : List Byte) (s : State) :
    (ddsTransmit addr payload s).Reaches (Runs (.ddsWrite addr payload)) 1 s := by
  unfold ddsTransmit
  cases hm : s.blk.mode with
  | native => exact (qspiWrite_reaches ..).imp fun _ => Primitive.runs _
  | narrowCompat =>
    obtain ⟨first, rest, -, e⟩ := narrowWrite_eq addr payload s
    simp only [e]
    refine .then (m := 0) (qspiWrite_reaches ..) fun _ t hp => .done _ ⟨rfl, rfl, rfl, ?_⟩ rfl
    simp [unwritten, hp.mode, hm]

/-- The transfers and latch pulse of an ATT_SET write `BUF` alone (R150). -/
theorem attSetSteps_reaches (v : Variant) (c : Channel) (x : BitVec 32) (code : Nat) (s : State) :
    (attSetSteps v c code s).Reaches (Runs (.attSet c x)) 4 s :=
  .then (m := 3) (spiXfer_reaches ..) fun rx t _ =>
    .from Runs.trans (s' := t.setBuf (rx.set (chanIndex c) (byteOf code)))
      (.then (m := 2) (spiXfer_reaches ..) fun _ _ _ =>
        .then (m := 0) (pinPulse_reaches ..) fun _ u _ => .done _ (.refl _ u) rfl)
      ⟨rfl, rfl, rfl, rfl⟩ rfl

/-- The two transfers of an ATT_GET write `BUF` and `CAP` alone (R155). -/
theorem attGetSteps_reaches (c : Channel) (s : State) : (attGetSteps c s).Reaches (Runs (.attGet c)) 2 s :=
  .then (m := 1) (spiXfer_reaches ..) fun rx t _ =>
    .from Runs.trans (s' := (t.setBuf rx).setCap rx)
      (.then (m := 0) (spiXfer_reaches ..) fun _ u _ => .done _ (.refl _ u) rfl)
      ⟨rfl, rfl, rfl, rfl⟩ rfl

/-- A command but INIT keeps what it is not listed as writing, and takes at most four micro-steps (R26, R28). -/
theorem commandFlow_reaches {i : Instr} (hi : i ≠ .init) (s : State) :
    ∃ n ≤ 4, (commandFlow i s).Reaches (Runs i) n s := by
  have hr := Runs.refl i s
  cases i with
  | init => exact absurd rfl hi
  | gpioSetDirection p x =>
    exact ⟨1, by omega, .then (m := 0) (expDir_reaches ..) fun _ t _ => .done _ (.refl _ t) rfl⟩
  | gpioSetLevel p l =>
    exact ⟨1, by omega, .then (m := 0) (expLevel_reaches ..) fun _ t _ => .done _ (.refl _ t) rfl⟩
  | ddsConfigureMode m => exact ⟨1, by omega, ⟨rfl, rfl, rfl, rfl⟩, rfl⟩
  | ddsWrite addr payload =>
    refine ⟨1, by omega, ?_⟩
    simp only [commandFlow]
    split_ifs
    · exact .raised_at_once _ _ hr
    · exact .raised_at_once _ _ hr
    · exact .raised_at_once _ _ hr
    · exact .bind (m := 0) Runs.trans (ddsTransmit_reaches ..) fun _ t _ => .done _ (.refl _ t) rfl
  | ddsRead addr n =>
    refine ⟨1, by omega, ?_⟩
    simp only [commandFlow]
    split_ifs
    · exact .raised_at_once _ _ hr
    · exact .raised_at_once _ _ hr
    · exact (qspiRead_reaches ..).imp fun _ => Primitive.runs _
  | ddsStartStream =>
    refine ⟨2, by omega, ?_⟩
    simp only [commandFlow]
    refine .then (m := 1) (qspiBusy_reaches s) fun busy t _ => ?_
    split
    · exact .raised_at_once _ _ (.refl _ t)
    · exact ⟨⟨rfl, rfl, rfl, rfl⟩, rfl⟩
  | attSet c x =>
    simp only [commandFlow]
    split_ifs
    · exact ⟨4, le_rfl, attSetSteps_reaches ..⟩
    · exact ⟨1, by omega, .raised_at_once _ _ hr⟩
  | attGet c => exact ⟨2, by omega, attGetSteps_reaches ..⟩

/-- How a sequence of at most `n` micro-steps begun at `STEP = 1` leaves the block: idle with one response more, or stuck at a
micro-step with none (R26, R91, R190). -/
theorem Flow.Reaches.finish {R : State → State → Prop} {n : Nat} {s : State} {f : Flow (List Byte)}
    (hf : f.Reaches R n s) (h1 : s.blk.stepIx = 1) :
    ∃ t, R s t ∧ ((∃ r, f.finish = t.respond r) ∨ f.finish = t ∧ ∃ m < n, t.blk.stepIx = 1 + BitVec.ofNat 6 m) := by
  cases f with
  | done r t => exact ⟨t, hf.1, .inl ⟨_, rfl⟩⟩
  | raised k info t => exact ⟨t, hf.1, .inl ⟨_, rfl⟩⟩
  | stalled t => exact ⟨t, hf.1, .inr ⟨rfl, h1 ▸ hf.2⟩⟩

/-- What a command but INIT leaves: a state it has come to by writing its own registers only, and then a response, or none at a
micro-step that never ends. -/
theorem exec_next_runs {i : Instr} {s t : State} (hi : i ≠ .init) (h : exec i s = .next t) :
    ∃ u, Runs i s u ∧ ((∃ r, t = u.respond r) ∨ t = u ∧ ∃ m < 4, u.blk.stepIx = 1 + BitVec.ofNat 6 m) := by
  obtain ⟨n, hn, hf⟩ := commandFlow_reaches hi s.accept
  obtain ⟨u, hu, hend⟩ := hf.finish rfl
  rw [← exec_next_flow h] at hend
  refine ⟨u, .trans s s.accept u ⟨rfl, rfl, rfl, (unwritten_stepIx i s.blk 1)⟩ hu, hend.imp_right ?_⟩
  rintro ⟨e, m, hm, hs⟩
  exact ⟨e, m, by omega, hs⟩

end Sys2Proof.Machine

namespace Sys2Proof.Machine

/-! ## INIT, however it ends (spec/44_init_sequence.md) -/

section
variable {α β : Type}

theorem Flow.bind_assoc {γ : Type} (f : Flow α) (g : α → State → Flow β) (h : β → State → Flow γ) :
    (f.bind g).bind h = f.bind fun a s => (g a s).bind h := by
  cases f <;> rfl

theorem Flow.bind_eq_done {f : Flow α} {g : α → State → Flow β} {b : β} {u : State} (h : f.bind g = .done b u) :
    ∃ a t, f = .done a t ∧ g a t = .done b u := by
  cases f with
  | done a t => exact ⟨a, t, rfl, h⟩
  | raised k info t => cases h
  | stalled t => cases h

/-- Every error the flow raises is of kind `k`, which carries no driver byte. -/
def Flow.RaisesOnly (k : ErrorKind) : Flow α → Prop
  | .done _ _ => True
  | .raised k' info _ => k' = k ∧ info = []
  | .stalled _ => True

theorem Flow.RaisesOnly.bind {k : ErrorKind} {f : Flow α} {g : α → State → Flow β} (hf : f.RaisesOnly k)
    (hg : ∀ a t, (g a t).RaisesOnly k) : (f.bind g).RaisesOnly k := by
  cases f with
  | done a t => exact hg a t
  | raised k' info t => exact hf
  | stalled t => exact hf

theorem settle_raisesOnly (r : BusOutcome) (k : ErrorKind) (a : α) (s : State) : (settle r k [] a s).RaisesOnly k := by
  cases r
  · exact trivial
  · exact ⟨rfl, rfl⟩
  · exact trivial

end

/-! Every expander write that fails raises `I2c` (R117, R173). -/

theorem pinPulse_raisesOnly (v : Variant) (p : GpioPin) (l : Level) (s : State) : (pinPulse v p l s).RaisesOnly .i2c :=
  .bind (settle_raisesOnly ..) fun _ _ => settle_raisesOnly ..

theorem pinPhase_raisesOnly (v : Variant) (pins : List GpioPin) (s : State) : (pinPhase v pins s).RaisesOnly .i2c := by
  induction pins generalizing s with
  | nil => exact trivial
  | cons p pins ih => exact .bind (.bind (settle_raisesOnly ..) fun _ _ => settle_raisesOnly ..) fun _ t => ih t

/-- A chip that completes a level write without error is the one fitted (R114, log 8). -/
theorem pinLevel_done {v : Variant} {p : GpioPin} {l : Level} {s t : State} {a : Unit}
    (h : pinLevel v p l s = .done a t) : s.board.fitted = some v := by
  have hok : chipAnswer s.board v (s.upcoming 0).outcome = .ok := by
    simp only [pinLevel, expLevel] at h
    cases hr : chipAnswer s.board v (s.upcoming 0).outcome with
    | ok => rfl
    | error => rw [hr] at h; cases h
    | stalled => rw [hr] at h; cases h
  exact (chipAnswer_ok.1 hok).1

/-- The 36 writes of INIT once a variant is selected (R166). -/
def initPins (v : Variant) (s : State) : Flow Unit :=
  (pinPhase v allPins s).bind fun _ s => (attResetPulse v s).bind fun _ s => ddsResetPulse v s

theorem initSteps_eq (s : State) :
    initSteps s = (expDetect s).bind fun v s => (initPins v s).bind fun _ s => .done [] (s.setPhase .ready) := by
  simp only [initSteps, initPins, Flow.bind_assoc]

theorem initPins_reaches (v : Variant) (s : State) : (initPins v s).Reaches Primitive 36 s :=
  .bind (n := 32) (m := 4) (fun _ _ _ => .trans) (pinPhase_reaches v allPins s) fun _ _ _ =>
    .bind (n := 2) (m := 2) (fun _ _ _ => .trans) (pinPulse_reaches ..) fun _ _ _ => pinPulse_reaches ..

theorem initPins_raisesOnly (v : Variant) (s : State) : (initPins v s).RaisesOnly .i2c :=
  .bind (pinPhase_raisesOnly ..) fun _ _ => .bind (pinPulse_raisesOnly ..) fun _ _ => pinPulse_raisesOnly ..

/-- INIT's writes complete on the fitted chip alone: already the first does (R115, log 8). -/
theorem initPins_done {v : Variant} {s t : State} {a : Unit} (h : initPins v s = .done a t) : s.board.fitted = some v := by
  obtain ⟨_, _, hphase, -⟩ := Flow.bind_eq_done h
  obtain ⟨_, _, hpin, -⟩ := Flow.bind_eq_done (f := pinLowOut v .led4Green s) hphase
  obtain ⟨_, _, hlevel, -⟩ := Flow.bind_eq_done hpin
  exact pinLevel_done hlevel

/-- Detection selects a variant, or its probe never completes (R113, R115). -/
theorem expDetect_cases (s : State) :
    (∃ v t, expDetect s = .done v (t.setVariant v) ∧ Primitive s t ∧ t.blk.stepIx = s.blk.stepIx + 1) ∨
      ∃ t, expDetect s = .stalled t ∧ Primitive s t ∧ t.blk.stepIx = s.blk.stepIx := by
  unfold expDetect
  have hprim := expProbe_primitive .a s
  unfold expProbe at hprim ⊢
  cases hr : chipAnswer s.board .a (s.upcoming 0).outcome <;> simp only [hr] at hprim ⊢
  · exact .inl ⟨_, _, rfl, hprim, rfl⟩
  · exact .inl ⟨_, _, rfl, hprim, rfl⟩
  · exact .inr ⟨_, rfl, hprim, rfl⟩

theorem Primitive.setVariant {s t : State} (v : Variant) (h : Primitive s t) :
    Primitive (s.setVariant v) (t.setVariant v) :=
  ⟨h.board, h.host, h.responses, congrArg (fun b => { b with variant := some v }) h.blk, h.trace⟩

/-- INIT succeeds on the fitted chip, fails with `I2c`, or a transaction never completes; it selects a variant unless that is the
probe (R115, R166, R173, R190). -/
theorem exec_init_cases {s t : State} (h : exec .init s = .next t) :
    (∃ v u, Primitive (s.accept.setVariant v) u ∧ s.board.fitted = some v ∧
      t = (u.setPhase .ready).respond [0x00]) ∨
    (∃ v u, Primitive (s.accept.setVariant v) u ∧ t = (u.setPhase .failed).respond [0x02]) ∨
    ((Primitive s.accept t ∨ ∃ v, Primitive (s.accept.setVariant v) t) ∧
      ∃ m < 37, t.blk.stepIx = 1 + BitVec.ofNat 6 m) := by
  have ht : t = (failInit (initSteps s.accept)).finish := exec_next_flow h
  rw [initSteps_eq] at ht
  obtain ⟨v, u, e, hu, hstep⟩ | ⟨u, e, hu, hstep⟩ := expDetect_cases s.accept
  · rw [e, bind_done] at ht
    have hu := hu.setVariant v
    have hreach := initPins_reaches v (u.setVariant v)
    have hraise := initPins_raisesOnly v (u.setVariant v)
    cases hp : initPins v (u.setVariant v) with
    | done a w =>
      rw [hp] at ht hreach
      exact .inl ⟨v, w, hu.trans hreach.1, hu.board ▸ initPins_done hp, ht⟩
    | raised k info w =>
      rw [hp] at ht hreach hraise
      obtain ⟨rfl, rfl⟩ := hraise
      exact .inr (.inl ⟨v, w, hu.trans hreach.1, ht⟩)
    | stalled w =>
      rw [hp] at ht hreach
      obtain ⟨hw, m, hm, hs⟩ := hreach
      refine .inr (.inr ⟨.inr ⟨v, ht ▸ hu.trans hw⟩, 1 + m, by omega, ?_⟩)
      rw [ht, BitVec.ofNat_add, ← BitVec.add_assoc]
      exact hs.trans (congrArg (· + BitVec.ofNat 6 m) hstep)
  · rw [e, bind_stalled] at ht
    exact .inr (.inr ⟨.inl (ht ▸ hu), 0, by omega, ht ▸ hstep⟩)

end Sys2Proof.Machine

namespace Sys2Proof.Machine

/-! ## The bus primitives a command issues -/

/-- The kinds of primitive a command but INIT issues (R111 to R155). -/
def mayIssue : Instr → BusEvent → Prop
  | .gpioSetDirection _ _, .expDir .. => True
  | .gpioSetLevel _ _, .expLevel .. => True
  | .ddsWrite _ _, .qspiWrite .. => True
  | .ddsRead _ _, .qspiRead .. => True
  | .ddsStartStream, .qspiBusy _ => True
  | .ddsStartStream, .qspiStreamOverride => True
  | .attSet _ _, .spiXfer .. => True
  | .attSet _ _, .expLevel .. => True
  | .attGet _, .spiXfer .. => True
  | _, _ => False

/-- From `s` to `t` the trace has grown by primitives of which `P` holds. -/
def Issues (P : BusEvent → Prop) (s t : State) : Prop :=
  ∃ added : List BusEvent, t.io.trace = s.io.trace ++ added ∧ ∀ e ∈ added, P e

section
variable {α β : Type} {P : BusEvent → Prop} {s t u : State}

theorem Issues.none (h : t.io.trace = s.io.trace) : Issues P s t := ⟨[], by simp [h], by simp⟩

theorem Issues.one {e : BusEvent} (h : t.io.trace = s.io.trace ++ [e]) (he : P e) : Issues P s t := ⟨[e], h, by simpa⟩

theorem Issues.trans (h : Issues P s t) (h' : Issues P t u) : Issues P s u := by
  obtain ⟨xs, ht, hx⟩ := h
  obtain ⟨ys, hu, hy⟩ := h'
  exact ⟨xs ++ ys, by rw [hu, ht, List.append_assoc], fun e he => (List.mem_append.1 he).elim (hx e) (hy e)⟩

theorem Flow.All.then_issues {f : Flow α} {g : α → State → Flow β} (hf : f.All (Issues P s))
    (hg : ∀ a t, (g a t).All (Issues P t)) : (f.bind g).All (Issues P s) :=
  hf.bind_same fun a t ht => (hg a t).imp fun _ hu => ht.trans hu

/-- A transaction is issued however it ends. -/
theorem settle_issues {r : BusOutcome} {k : ErrorKind} {info : List Byte} {a : α} {e : BusEvent}
    (h : t.io.trace = s.io.trace ++ [e]) (he : P e) : (settle r k info a t).All (Issues P s) :=
  settle_all (Issues.one h he) fun _ hu => hu

theorem pinPulse_issues (v : Variant) (p : GpioPin) (l : Level) (hP : ∀ i l r, P (.expLevel v i l r)) :
    (pinPulse v p l s).All (Issues P s) :=
  .then_issues (settle_issues rfl (hP ..)) fun _ _ => settle_issues rfl (hP ..)

/-- A command but INIT issues primitives of its own kinds only. -/
theorem commandFlow_issues {i : Instr} (hi : i ≠ .init) (s : State) : (commandFlow i s).All (Issues (mayIssue i) s) := by
  have stop : ∀ t : State, Issues (mayIssue i) t t := fun _ => .none rfl
  cases i with
  | init => exact absurd rfl hi
  | gpioSetDirection p x => exact .then_issues (settle_issues rfl trivial) fun _ t => stop t
  | gpioSetLevel p l => exact .then_issues (settle_issues rfl trivial) fun _ t => stop t
  | ddsConfigureMode m => exact stop s
  | ddsWrite addr payload =>
    have sent : ∀ a p, (qspiWrite a p s).All (Issues (mayIssue (.ddsWrite addr payload)) s) :=
      fun _ _ => settle_issues rfl trivial
    simp only [commandFlow]
    split_ifs
    · exact stop s
    · exact stop s
    · exact stop s
    · refine .then_issues ?_ fun _ t => stop t
      unfold ddsTransmit
      split
      · obtain ⟨first, rest, -, e⟩ := narrowWrite_eq addr payload s
        rw [e]
        exact .then_issues (sent ..) fun _ t => Issues.none rfl
      · exact sent ..
  | ddsRead addr n =>
    simp only [commandFlow]
    split_ifs
    · exact stop s
    · exact stop s
    · exact settle_issues rfl trivial
  | ddsStartStream =>
    simp only [commandFlow]
    refine .then_issues (Issues.one rfl trivial) fun busy t => ?_
    split
    · exact stop t
    · exact Issues.one rfl trivial
  | attSet c x =>
    simp only [commandFlow]
    split_ifs
    · exact .then_issues (settle_issues rfl trivial) fun _ t => .then_issues (settle_issues rfl trivial) fun _ t =>
        .then_issues (pinPulse_issues _ _ _ fun _ _ _ => trivial) fun _ t => stop t
    · exact stop s
  | attGet c =>
    exact .then_issues (settle_issues rfl trivial) fun _ t => .then_issues (settle_issues rfl trivial) fun _ t => stop t

end

theorem exec_next_issues {i : Instr} {s t : State} (hi : i ≠ .init) (h : exec i s = .next t) :
    Issues (mayIssue i) s t := by
  rw [exec_next_flow h]
  exact (commandFlow_issues hi s.accept).finish fun _ _ hu => hu

/-- No command but INIT probes (R118). -/
theorem not_probe_of_mayIssue {i : Instr} {e : BusEvent} (h : mayIssue i e) (v : Variant) (r : BusOutcome) :
    e ≠ .expProbe v r := by
  rintro rfl
  cases i <;> exact h

end Sys2Proof.Machine

namespace Sys2Proof.Machine

/-! ## The device registers a command keeps (R33 to R40) -/

/-- The two chains of bytes, `S` and `O` (R31, R32). -/
def chain (d : Devices) : Quad × Quad := (d.staging, d.output)

/-- `QSTREAM`, and the DDS chip unless it streams (log 29). -/
def calmChip (d : Devices) : Option DdsChip := if d.qstream then none else some d.ddsChip

theorem calmChip_eq_iff {d d' : Devices} :
    calmChip d' = calmChip d ↔ d'.qstream = d.qstream ∧ (d.qstream = false → d'.ddsChip = d.ddsChip) := by
  unfold calmChip
  cases d'.qstream <;> cases d.qstream <;> simp

@[simp] theorem calmChip_settle (r : BusOutcome) (draw : Draw) (d : Devices) :
    calmChip (settleDevices r draw d) = calmChip d :=
  calmChip_eq_iff.2 ⟨rfl, streamedChip_of_not⟩

/-! What is behind a line changes by that line's own function only (R34, R35, R38, R39). -/

theorem lineMoved_chain (b : Board) (draw : Draw) {p : GpioPin} (hc : ∀ c, p ≠ latchPin c) (ha : p ≠ .attRstN)
    (x y : Option Level) (d : Devices) : chain (lineMoved b draw p x y d) = chain d := by
  by_cases hd : p = .ddsReset
  · subst hd
    simp only [lineMoved]
    split <;> rfl
  · rw [lineMoved_plain b draw (chanOf_eq_none hc) ha hd]

theorem lineMoved_ddsChip (b : Board) (draw : Draw) {p : GpioPin} (hd : p ≠ .ddsReset) (x y : Option Level)
    (d : Devices) : (lineMoved b draw p x y d).ddsChip = d.ddsChip := by
  simp only [lineMoved, latchOutput, resetAttenuators]
  split
  · split <;> rfl
  · exact absurd rfl hd
  · repeat' split
    all_goals rfl

section
variable {b : Board} (hb : b.admissible) (draw : Draw) (trusted : Bool) (v : Variant) {p : GpioPin} (l : Level) (x : Dir)
  (d : Devices)
include hb

theorem driveLevel_chain (hc : ∀ c, p ≠ latchPin c) (ha : p ≠ .attRstN) :
    chain (driveLevel b draw trusted v (idx b v p) l d) = chain d := by
  rw [driveLevel_idx hb, lineMoved_chain b draw hc ha]
  rfl

theorem driveDir_chain (hc : ∀ c, p ≠ latchPin c) (ha : p ≠ .attRstN) :
    chain (driveDir b draw trusted v (idx b v p) x d) = chain d := by
  rw [driveDir_idx hb]
  split
  · rfl
  · rw [lineMoved_chain b draw hc ha]
    rfl

theorem driveLevel_calmChip (hd : p ≠ .ddsReset) :
    calmChip (driveLevel b draw trusted v (idx b v p) l d) = calmChip d :=
  calmChip_eq_iff.2 ⟨(driveLevel_frame ..).2.2.2, fun _ => by rw [driveLevel_idx hb, lineMoved_ddsChip b draw hd]⟩

theorem driveDir_calmChip (hd : p ≠ .ddsReset) :
    calmChip (driveDir b draw trusted v (idx b v p) x d) = calmChip d :=
  calmChip_eq_iff.2 ⟨(driveDir_frame ..).2.2.2, fun _ => by
    rw [driveDir_idx hb]
    split
    · rfl
    · rw [lineMoved_ddsChip b draw hd]⟩

end

theorem afterTransfer_calmChip (b : Board) (r : BusOutcome) (draw : Draw) (w : Quad) (d : Devices) :
    calmChip (afterTransfer b r draw w d) = calmChip d := by
  obtain ⟨-, -, hchip, -, hq⟩ := afterTransfer_frame b r draw w d
  exact calmChip_eq_iff.2 ⟨hq, fun _ => hchip⟩

/-- The quantity `q` of the devices is kept by what the primitives of command `i`, addressed to variant `v`, do (R58). -/
def KeptBy {γ : Type} (q : Devices → γ) (b : Board) (v : Variant) : Instr → Prop
  | .init =>
    (∀ r draw d, q (afterProbe b .a r draw d) = q d) ∧
      (∀ draw trusted v i l d, q (driveLevel b draw trusted v i l d) = q d) ∧
      ∀ draw trusted v i x d, q (driveDir b draw trusted v i x d) = q d
  | .gpioSetDirection p x => ∀ draw trusted d, q (driveDir b draw trusted v (idx b v p) x d) = q d
  | .gpioSetLevel p l => ∀ draw trusted d, q (driveLevel b draw trusted v (idx b v p) l d) = q d
  | .ddsConfigureMode _ => True
  | .ddsWrite _ _ => ∀ chip d, q { d with ddsChip := chip } = q d
  | .ddsRead _ _ => ∀ chip d, q { d with ddsChip := chip } = q d
  | .ddsStartStream => ∀ chip d, q { d with qstream := true, ddsChip := chip } = q d
  | .attSet c _ =>
    (∀ r draw w d, q (afterTransfer b r draw w d) = q d) ∧
      ∀ draw trusted l d, q (driveLevel b draw trusted v (idx b v (latchPin c)) l d) = q d
  | .attGet _ => ∀ r draw w d, q (afterTransfer b r draw w d) = q d

/-- From `s` to `t` the quantity `q` of the devices has not changed, nor the board. -/
def Keeps {γ : Type} (q : Devices → γ) (s t : State) : Prop := t.board = s.board ∧ q t.dev = q s.dev

section
variable {α β γ : Type} {q : Devices → γ} {s t u : State}

theorem Keeps.refl (q : Devices → γ) (s : State) : Keeps q s s := ⟨rfl, rfl⟩

theorem Keeps.trans (h : Keeps q s t) (h' : Keeps q t u) : Keeps q s u := ⟨h'.1.trans h.1, h'.2.trans h.2⟩

theorem Flow.All.then_keeps {f : Flow α} {g : α → State → Flow β} (hf : f.All (Keeps q s))
    (hg : ∀ a t, t.board = s.board → (g a t).All (Keeps q t)) : (f.bind g).All (Keeps q s) :=
  hf.bind_same fun a t ht => (hg a t ht.1).imp fun _ hu => ht.trans hu

theorem settle_keeps {r : BusOutcome} {k : ErrorKind} {info : List Byte} {a : α} (hb : t.board = s.board)
    (hd : q t.dev = q s.dev) : (settle r k info a t).All (Keeps q s) := settle_all ⟨hb, hd⟩ fun _ h => h

/-- An expander write is made or not (R58). -/
theorem afterExpander_cases (b : Board) (v : Variant) (r : BusOutcome) (draw : Draw) (old new : Devices) :
    afterExpander b v r draw old new = old ∨ afterExpander b v r draw old new = new := by
  unfold afterExpander
  cases r with
  | ok => exact .inr rfl
  | error => exact (ite_eq_or_eq ..).symm
  | stalled => exact (ite_eq_or_eq ..).symm

variable (hq : ∀ r draw d, q (settleDevices r draw d) = q d)
include hq

theorem expLevel_keeps {v : Variant} {i : Fin 16} {l : Level}
    (h : ∀ draw trusted d, q (driveLevel s.board draw trusted v i l d) = q d) : (expLevel v i l s).All (Keeps q s) := by
  refine settle_keeps rfl ?_
  simp only [record_dev, withDev_dev, hq]
  obtain e | e := afterExpander_cases s.board v (chipAnswer s.board v (s.upcoming 0).outcome) (s.upcoming 0) s.dev
    (driveLevel s.board (s.upcoming 0) s.trusted v i l s.dev)
  · rw [e]
  · rw [e, h]

theorem expDir_keeps {v : Variant} {i : Fin 16} {x : Dir}
    (h : ∀ draw trusted d, q (driveDir s.board draw trusted v i x d) = q d) : (expDir v i x s).All (Keeps q s) := by
  refine settle_keeps rfl ?_
  simp only [record_dev, withDev_dev, hq]
  obtain e | e := afterExpander_cases s.board v (chipAnswer s.board v (s.upcoming 0).outcome) (s.upcoming 0) s.dev
    (driveDir s.board (s.upcoming 0) s.trusted v i x s.dev)
  · rw [e]
  · rw [e, h]

theorem spiXfer_keeps {w : Quad} (h : ∀ r draw w d, q (afterTransfer s.board r draw w d) = q d) :
    (spiXfer w s).All (Keeps q s) :=
  settle_keeps rfl ((hq ..).trans (h ..))

theorem expProbe_keeps {v : Variant} (h : ∀ r draw d, q (afterProbe s.board v r draw d) = q d) :
    (expProbe v s).All (Keeps q s) := by
  have kept : ∀ r, q (settleDevices r (s.upcoming 0) (afterProbe s.board v r (s.upcoming 0) s.dev)) = q s.dev :=
    fun _ => (hq ..).trans (h ..)
  unfold expProbe
  simp only
  split <;> exact ⟨rfl, kept _⟩

theorem qspiWrite_keeps {a : Byte} {payload : List Byte} (h : ∀ chip d, q { d with ddsChip := chip } = q d) :
    (qspiWrite a payload s).All (Keeps q s) := settle_keeps rfl ((hq ..).trans (h ..))

theorem qspiRead_keeps {a : Byte} {n : Nat} (h : ∀ chip d, q { d with ddsChip := chip } = q d) :
    (qspiRead a n s).All (Keeps q s) := settle_keeps rfl ((hq ..).trans (h ..))

/-- The sample of the busy line moves the devices as a stalled transaction's does (R40). -/
theorem qspiBusy_keeps : (qspiBusy s).All (Keeps q s) := ⟨rfl, hq .stalled (s.upcoming 0) s.dev⟩

theorem pinPulse_keeps {v : Variant} {p : GpioPin} {l : Level}
    (h : ∀ draw trusted l d, q (driveLevel s.board draw trusted v (idx s.board v p) l d) = q d) :
    (pinPulse v p l s).All (Keeps q s) :=
  .then_keeps (expLevel_keeps hq fun draw trusted d => h draw trusted l d) fun _ t e =>
    expLevel_keeps hq fun draw trusted d => by rw [e]; exact h draw trusted _ d

theorem pinPhase_keeps {v : Variant} (pins : List GpioPin)
    (hl : ∀ draw trusted v i l d, q (driveLevel s.board draw trusted v i l d) = q d)
    (hx : ∀ draw trusted v i x d, q (driveDir s.board draw trusted v i x d) = q d) :
    (pinPhase v pins s).All (Keeps q s) := by
  induction pins generalizing s with
  | nil => exact .refl q s
  | cons p pins ih =>
    refine .then_keeps (.then_keeps (expLevel_keeps hq fun _ _ _ => hl ..) fun _ t e => ?_) fun _ t e => ?_
    · exact expDir_keeps hq fun _ _ _ => e ▸ hx ..
    · exact ih (e ▸ hl) (e ▸ hx)

theorem initPins_keeps {v : Variant}
    (hl : ∀ draw trusted v i l d, q (driveLevel s.board draw trusted v i l d) = q d)
    (hx : ∀ draw trusted v i x d, q (driveDir s.board draw trusted v i x d) = q d) :
    (initPins v s).All (Keeps q s) :=
  .then_keeps (pinPhase_keeps hq _ hl hx) fun _ _ e =>
    .then_keeps (pinPulse_keeps hq fun _ _ _ _ => e ▸ hl ..) fun _ _ e' =>
      pinPulse_keeps hq fun _ _ _ _ => (e'.trans e) ▸ hl ..

theorem initSteps_keeps (h : KeptBy q s.board v .init) : (initSteps s).All (Keeps q s) := by
  obtain ⟨hp, hl, hx⟩ := h
  rw [initSteps_eq]
  refine .then_keeps (.then_keeps (expProbe_keeps hq hp) fun _ _ _ => .refl q _) fun v t e => ?_
  exact .then_keeps (initPins_keeps hq (e ▸ hl) (e ▸ hx)) fun _ _ _ => .refl q _

/-- A command keeps what its primitives keep, however they end. -/
theorem commandFlow_keeps {i : Instr} (h : KeptBy q s.board (s.blk.variant.getD .a) i) :
    (commandFlow i s).All (Keeps q s) := by
  have stop : ∀ t, Keeps q t t := .refl q
  cases i with
  | init =>
    have hi := initSteps_keeps hq h
    simp only [commandFlow]
    cases e : initSteps s <;> rw [e] at hi <;> exact hi
  | gpioSetDirection p x => exact .then_keeps (expDir_keeps hq h) fun _ t _ => stop t
  | gpioSetLevel p l => exact .then_keeps (expLevel_keeps hq h) fun _ t _ => stop t
  | ddsConfigureMode m => exact stop s
  | ddsWrite addr payload =>
    simp only [commandFlow]
    split_ifs
    · exact stop s
    · exact stop s
    · exact stop s
    · refine .then_keeps ?_ fun _ t _ => stop t
      unfold ddsTransmit
      split
      · obtain ⟨first, rest, -, e⟩ := narrowWrite_eq addr payload s
        rw [e]
        exact .then_keeps (qspiWrite_keeps hq h) fun _ t _ => Keeps.refl q t
      · exact qspiWrite_keeps hq h
  | ddsRead addr n =>
    simp only [commandFlow]
    split_ifs
    · exact stop s
    · exact stop s
    · exact qspiRead_keeps hq h
  | ddsStartStream =>
    simp only [commandFlow]
    refine .then_keeps (qspiBusy_keeps hq) fun busy t _ => ?_
    split
    · exact stop t
    · exact ⟨rfl, h ..⟩
  | attSet c x =>
    obtain ⟨hw, hl⟩ := h
    simp only [commandFlow]
    split_ifs
    · refine .then_keeps (spiXfer_keeps hq hw) fun _ t e => .then_keeps (spiXfer_keeps hq (e ▸ hw)) fun _ u e' => ?_
      exact .then_keeps (pinPulse_keeps hq ((e'.trans e) ▸ hl)) fun _ t _ => stop t
    · exact stop s
  | attGet c =>
    exact .then_keeps (spiXfer_keeps hq h) fun _ t e => .then_keeps (spiXfer_keeps hq (e ▸ h)) fun _ t _ => stop t

theorem exec_keeps {i : Instr} (hk : KeptBy q s.board (s.blk.variant.getD .a) i) (h : exec i s = .next t) :
    q t.dev = q s.dev := by
  rw [exec_next_flow h]
  exact ((commandFlow_keeps hq (s := s.accept) hk).finish fun _ _ hu => hu).2

end

end Sys2Proof.Machine

namespace Sys2Proof.Machine

/-! ## `STREAMING` with `QSTREAM`, and the machine's invariant -/

/-- `QSTREAM` changes by DDS_START_STREAM alone (R40). -/
theorem keptBy_qstream (b : Board) (v : Variant) {i : Instr} (hi : i ≠ .ddsStartStream) :
    KeptBy (fun d => d.qstream) b v i := by
  cases i with
  | init =>
    exact ⟨afterProbe_qstream b .a, fun _ _ _ _ _ _ => (driveLevel_frame ..).2.2.2,
      fun _ _ _ _ _ _ => (driveDir_frame ..).2.2.2⟩
  | gpioSetDirection p x => exact fun _ _ _ => (driveDir_frame ..).2.2.2
  | gpioSetLevel p l => exact fun _ _ _ => (driveLevel_frame ..).2.2.2
  | ddsConfigureMode m => exact trivial
  | ddsWrite a p => exact fun _ _ => rfl
  | ddsRead a n => exact fun _ _ => rfl
  | ddsStartStream => exact absurd rfl hi
  | attSet c x => exact ⟨fun _ _ _ _ => (afterTransfer_frame ..).2.2.2.2, fun _ _ _ _ => (driveLevel_frame ..).2.2.2⟩
  | attGet c => exact fun _ _ _ _ => (afterTransfer_frame ..).2.2.2.2

theorem exec_qstream {i : Instr} {s t : State} (hi : i ≠ .ddsStartStream) (h : exec i s = .next t) :
    t.dev.qstream = s.dev.qstream :=
  exec_keeps (q := fun d => d.qstream) (fun _ _ _ => rfl) (keptBy_qstream _ _ hi) h

/-- DDS_START_STREAM on a busy bus does no more than sample it; else both flags are set (R138). -/
theorem exec_ddsStartStream_cases {s t : State} (h : exec .ddsStartStream s = .next t) :
    (t.blk.streaming = s.blk.streaming ∧ t.dev = settleDevices .stalled (s.upcoming 0) s.dev) ∨
      (t.blk.streaming = true ∧ t.dev.qstream = true) := by
  have ht : t = ((qspiBusy s.accept).bind fun busy s =>
      if busy then .raised .invalidState [] s else enterStreaming s).finish := exec_next_flow h
  simp only [qspiBusy, bind_done] at ht
  split_ifs at ht
  · exact .inl ⟨by rw [ht]; rfl, by rw [ht]; rfl⟩
  · exact .inr ⟨by rw [ht]; rfl, by rw [ht]; rfl⟩

/-- A command keeps the block registers it is not listed as writing, INIT among them (R28, R175). -/
theorem exec_unwritten {i : Instr} {s t : State} (h : exec i s = .next t) :
    t.board = s.board ∧ unwritten i t.blk = unwritten i s.blk := by
  by_cases hi : i = .init
  · subst hi
    obtain ⟨v, u, hu, -, rfl⟩ | ⟨v, u, hu, rfl⟩ | ⟨hu | ⟨v, hu⟩, -⟩ := exec_init_cases h
    all_goals exact ⟨hu.board, (hu.runs .init).blk⟩
  · obtain ⟨u, hu, ⟨r, rfl⟩ | ⟨rfl, -⟩⟩ := exec_next_runs hi h
    · exact ⟨hu.board, (unwritten_stepIx ..).trans hu.blk⟩
    · exact ⟨hu.board, hu.blk⟩

/-- `t.blk` differs from `s.blk` at most in the registers command `i` is listed as writing (R28). -/
theorem blockRegisters_of_unwritten {i : Instr} {b b' : Block} (h : unwritten i b' = unwritten i b) :
    (i ≠ .init → b'.variant = b.variant ∧ b'.phase = b.phase) ∧
    ((∀ m, i ≠ .ddsConfigureMode m) → b'.mode = b.mode) ∧
    (i ≠ .ddsStartStream → b'.streaming = b.streaming) ∧
    ((∀ a p, i ≠ .ddsWrite a p) ∨ b.mode = .native → b'.enc = b.enc) ∧
    ((∀ c x, i ≠ .attSet c x) → (∀ c, i ≠ .attGet c) → b'.buf = b.buf) ∧
    ((∀ c, i ≠ .attGet c) → b'.cap = b.cap) := by
  cases i with
  | ddsWrite a p =>
    simp only [unwritten, Block.mk.injEq] at h
    obtain ⟨hp, hv, hm, hs, hb, hc, he, -⟩ := h
    have henc : b.mode = .native → b'.enc = b.enc := fun hn => by simpa [hm, hn] using he
    exact ⟨fun _ => ⟨hv, hp⟩, fun _ => hm, fun _ => hs, fun ho => henc (ho.resolve_left fun ha => ha a p rfl),
      fun _ _ => hb, fun _ => hc⟩
  | _ => simp_all [unwritten]

/-- Every command keeps what the invariant says of the two streaming flags (R138). -/
theorem exec_streams {i : Instr} {s t : State} (hs : s.dev.qstream = s.blk.streaming) (h : exec i s = .next t) :
    t.dev.qstream = t.blk.streaming := by
  by_cases hi : i = .ddsStartStream
  · subst hi
    obtain ⟨hb, hd⟩ | ⟨hb, hd⟩ := exec_ddsStartStream_cases h
    · rw [hb, hd, ← hs]; rfl
    · rw [hb, hd]
  · obtain ⟨-, -, hkeep, -⟩ := blockRegisters_of_unwritten (exec_unwritten h).2
    rw [hkeep hi, exec_qstream hi h, hs]

/-- The micro-step at which a sequence of at most 37 has stopped is one of 1 to 37 (R26). -/
theorem toNat_stepIx {n : BitVec 6} {m : Nat} (hm : m < 37) (hn : n = 1 + BitVec.ofNat 6 m) : n.toNat = m + 1 := by
  rw [hn, BitVec.toNat_add, BitVec.toNat_ofNat, show (1 : BitVec 6).toNat = 1 from rfl]
  omega

/-- A command but INIT keeps the invariant: its block stays in `Ready`, on the board and the variant it had. -/
theorem Inv.exec_of_ne_init {i : Instr} {s t : State} (hs : Inv s) (hi : i ≠ .init) (h : exec i s = .next t) : Inv t := by
  obtain ⟨hboard, hblk⟩ := exec_unwritten h
  obtain ⟨hkeep, -⟩ := blockRegisters_of_unwritten hblk
  obtain ⟨hvariant, hphase⟩ := hkeep hi
  have hready : s.blk.phase = .ready := exec_next_ready hi h
  rw [hready] at hphase
  refine
    { admissible := hboard ▸ hs.admissible
      streams := exec_streams hs.streams h
      selected := fun _ => ?_
      bringUp := fun hne => absurd hphase hne
      undetected := fun he => by simp [hphase] at he
      failedIdle := fun he => by simp [hphase] at he
      stepBound := ?_ }
  · obtain ⟨v, hv, hf⟩ := hs.selected hready
    exact ⟨v, hvariant.trans hv, hboard ▸ hf⟩
  · obtain ⟨u, -, ⟨r, rfl⟩ | ⟨rfl, m, hm, hstep⟩⟩ := exec_next_runs hi h
    · exact Nat.zero_le _
    · rw [toNat_stepIx (by omega) hstep]; omega

/-- INIT keeps the invariant, however it ends: in `Ready` with the fitted variant, in `Failed` and idle, or stuck in `Uninit`. -/
theorem Inv.exec_init {s t : State} (hs : Inv s) (h : exec .init s = .next t) : Inv t := by
  obtain ⟨-, huninit⟩ := exec_next_gate h
  obtain ⟨hboard, hblk⟩ := exec_unwritten h
  obtain ⟨-, hmode, hstreaming, -⟩ := blockRegisters_of_unwritten hblk
  have hidle : t.blk.mode = .narrowCompat ∧ t.blk.streaming = false := by
    rw [hmode (by simp), hstreaming (by simp)]
    exact hs.bringUp (by simp [huninit, phaseOf])
  have hstreams := exec_streams hs.streams h
  have hadm : t.board.admissible := hboard ▸ hs.admissible
  obtain ⟨v, u, hu, hf, rfl⟩ | ⟨v, u, hu, rfl⟩ | ⟨hu, m, hm, hstep⟩ := exec_init_cases h
  · exact
      { admissible := hadm
        streams := hstreams
        selected := fun _ => ⟨v, hu.variant, hu.board ▸ hf⟩
        bringUp := fun hne => absurd rfl hne
        undetected := nofun
        failedIdle := nofun
        stepBound := Nat.zero_le _ }
  · exact
      { admissible := hadm
        streams := hstreams
        selected := nofun
        bringUp := fun _ => hidle
        undetected := nofun
        failedIdle := fun _ => ⟨rfl, by simp [hu.variant]⟩
        stepBound := Nat.zero_le _ }
  · have hphase : t.blk.phase = .uninit := by
      obtain hu | ⟨v, hu⟩ := hu
      all_goals exact hu.phase.trans huninit
    have hn := toNat_stepIx hm hstep
    exact
      { admissible := hadm
        streams := hstreams
        selected := fun he => by simp [hphase] at he
        bringUp := fun _ => hidle
        undetected := fun _ he => by simp [he] at hn
        failedIdle := fun he => by simp [hphase] at he
        stepBound := by omega }

theorem Inv.exec {i : Instr} {s t : State} (hs : Inv s) (h : exec i s = .next t) : Inv t := by
  by_cases hi : i = .init
  · subst hi
    exact hs.exec_init h
  · exact hs.exec_of_ne_init hi h

/-- The invariant speaks of no port. -/
theorem Inv.withIo {s : State} (hs : Inv s) (io : Ports) : Inv { s with io := io } :=
  ⟨hs.admissible, hs.streams, hs.selected, hs.bringUp, hs.undetected, hs.failedIdle, hs.stepBound⟩

/-- Settles O55: a step waits, or it is a command, INIT or another. -/
theorem everyStepKeepsTheInvariant : Obligations.EveryStepKeepsTheInvariant := by
  intro s t hs h
  obtain ⟨rfl, -⟩ | ⟨_, _, i, -, -, -, hexec⟩ := step_next_cases h
  · exact hs
  · exact (hs.withIo _).exec hexec

theorem nodup_toList_ofFn {n : Nat} {f : Fin n → Fin n} (hf : Function.Injective f) : (Vector.ofFn f).toList.Nodup := by
  rw [← Vector.toList_toArray, Vector.toArray_ofFn, Array.toList_ofFn]
  exact List.nodup_ofFn.2 hf

/-- Settles O54: the index maps are permutations, and before INIT the rest is the values of R43. -/
theorem resetMeetsTheInvariant : Obligations.ResetMeetsTheInvariant where
  admissible := ⟨nodup_toList_ofFn Config.idxAPerm.injective, nodup_toList_ofFn Config.idxBPerm.injective⟩
  streams := rfl
  selected := nofun
  bringUp := fun _ => ⟨rfl, rfl⟩
  undetected := fun _ _ => rfl
  failedIdle := nofun
  stepBound := Nat.zero_le _

/-- Settles O48: the values are the ones `State.reset` writes out. -/
theorem blockResetValues : Obligations.BlockResetValues := ⟨rfl, rfl, rfl, rfl, rfl, rfl⟩

/-- Settles O11: the register frame for the other commands, the three endings of INIT for itself, and the gate for refusals. -/
theorem phaseIsWrittenByInitOnly : Obligations.PhaseIsWrittenByInitOnly := by
  refine ⟨rfl, fun i s t h hi => ?_, fun s t h => ?_, fun i s h0 hi hp => ?_, fun s h0 hp => ?_⟩
  · exact ((blockRegisters_of_unwritten (exec_unwritten h).2).1 hi).2
  · obtain ⟨-, huninit⟩ := exec_next_gate h
    obtain ⟨v, u, hu, -, rfl⟩ | ⟨v, u, hu, rfl⟩ | ⟨hu, m, hm, hstep⟩ := exec_init_cases h
    · exact .inl ⟨by simp [hu.responses], rfl⟩
    · exact .inr (.inl ⟨by simp [hu.responses], rfl⟩)
    · have hn := toNat_stepIx hm hstep
      have hne : t.blk.stepIx ≠ 0 := fun he => by simp [he] at hn
      obtain hu | ⟨v, hu⟩ := hu
      all_goals exact .inr (.inr ⟨hu.responses, hu.phase.trans huninit, hne⟩)
  · obtain ⟨run, hrun⟩ := exec_gate i s
    rw [hrun]
    exact inPhase_wrong h0 (by simpa [phaseOf, hi] using hp) run
  · rw [Machine.exec_init]
    exact inPhase_wrong h0 hp _

/-- Settles O58: a command keeps its unwritten registers, and these are the ones the statement lists. -/
theorem blockRegisterFrame : Obligations.BlockRegisterFrame :=
  fun _ _ _ h => blockRegisters_of_unwritten (exec_unwritten h).2

/-- Settles O35: with a variant selected the block has left `Uninit`, so the command is not INIT. -/
theorem variantIsChosenOnce : Obligations.VariantIsChosenOnce := by
  intro s t hs h hv
  obtain ⟨rfl, -⟩ | ⟨_, rest, i, h0, -, -, hexec⟩ := step_next_cases h
  · exact ⟨rfl, [], by simp, by simp⟩
  · have hi : i ≠ .init := by
      rintro rfl
      exact hv (hs.undetected (exec_next_gate hexec).2 h0)
    obtain ⟨added, htrace, hadded⟩ := exec_next_issues hi hexec
    exact ⟨((blockRegisters_of_unwritten (exec_unwritten hexec).2).1 hi).1, added, htrace,
      fun e he => not_probe_of_mayIssue (hadded e he)⟩

/-- Settles O56: in `Ready` the invariant gives a variant. -/
theorem noFaultFromTheInvariant : Obligations.NoFaultFromTheInvariant := by
  intro s f hs h
  unfold step at h
  split at h
  · cases h
  · split at h
    · cases h
    · split at h
      · obtain ⟨hready, hnone⟩ := exec_fault h
        obtain ⟨v, hv, -⟩ := hs.selected hready
        simp [hv] at hnone
      · cases h

end Sys2Proof.Machine

/-! # The device frame -/

namespace Sys2Proof.Machine

section
variable {b : Board} {v : Variant} {i : Instr}

/-- The chains change by the attenuator commands, INIT, and a pin command on a latch pin or `AttRstN` (R33 to R35). -/
theorem keptBy_chain (hb : b.admissible) (hset : ∀ c x, i ≠ .attSet c x) (hget : ∀ c, i ≠ .attGet c) (hi : i ≠ .init)
    (hl : ∀ p l, i = .gpioSetLevel p l → (∀ c, p ≠ latchPin c) ∧ p ≠ .attRstN)
    (hx : ∀ p x, i = .gpioSetDirection p x → (∀ c, p ≠ latchPin c) ∧ p ≠ .attRstN) : KeptBy chain b v i := by
  cases i with
  | init => exact absurd rfl hi
  | gpioSetDirection p x =>
    obtain ⟨hc, ha⟩ := hx p x rfl
    exact fun draw trusted d => driveDir_chain hb draw trusted v x d hc ha
  | gpioSetLevel p l =>
    obtain ⟨hc, ha⟩ := hl p l rfl
    exact fun draw trusted d => driveLevel_chain hb draw trusted v l d hc ha
  | ddsConfigureMode m => exact trivial
  | ddsWrite a p => exact fun _ _ => rfl
  | ddsRead a n => exact fun _ _ => rfl
  | ddsStartStream => exact fun _ _ => rfl
  | attSet c x => exact absurd rfl (hset c x)
  | attGet c => exact absurd rfl (hget c)

/-- The pin latches change by GPIO_SET_LEVEL, ATT_SET and INIT (R36, R112). -/
theorem keptBy_xlat (hl : ∀ p l, i ≠ .gpioSetLevel p l) (hset : ∀ c x, i ≠ .attSet c x) (hi : i ≠ .init) :
    KeptBy (fun d => d.xlat) b v i := by
  cases i with
  | init => exact absurd rfl hi
  | gpioSetDirection p x => exact fun _ _ _ => (driveDir_frame ..).2.1
  | gpioSetLevel p l => exact absurd rfl (hl p l)
  | ddsConfigureMode m => exact trivial
  | ddsWrite a p => exact fun _ _ => rfl
  | ddsRead a n => exact fun _ _ => rfl
  | ddsStartStream => exact fun _ _ => rfl
  | attSet c x => exact absurd rfl (hset c x)
  | attGet c => exact fun _ _ _ _ => (afterTransfer_frame ..).2.1

/-- The pin directions change by GPIO_SET_DIRECTION and INIT (R36, R111). -/
theorem keptBy_xdir (hx : ∀ p x, i ≠ .gpioSetDirection p x) (hi : i ≠ .init) : KeptBy (fun d => d.xdir) b v i := by
  cases i with
  | init => exact absurd rfl hi
  | gpioSetDirection p x => exact absurd rfl (hx p x)
  | gpioSetLevel p l => exact fun _ _ _ => (driveLevel_frame ..).1
  | ddsConfigureMode m => exact trivial
  | ddsWrite a p => exact fun _ _ => rfl
  | ddsRead a n => exact fun _ _ => rfl
  | ddsStartStream => exact fun _ _ => rfl
  | attSet c x => exact ⟨fun _ _ _ _ => (afterTransfer_frame ..).1, fun _ _ _ _ => (driveLevel_frame ..).1⟩
  | attGet c => exact fun _ _ _ _ => (afterTransfer_frame ..).1

/-- A DDS chip that does not stream changes by the DDS commands, INIT, and a pin command on `DdsReset` (R39). -/
theorem keptBy_calmChip (hb : b.admissible) (hw : ∀ a p, i ≠ .ddsWrite a p) (hr : ∀ a n, i ≠ .ddsRead a n)
    (hs : i ≠ .ddsStartStream) (hi : i ≠ .init) (hl : ∀ l, i ≠ .gpioSetLevel .ddsReset l)
    (hx : ∀ x, i ≠ .gpioSetDirection .ddsReset x) : KeptBy calmChip b v i := by
  cases i with
  | init => exact absurd rfl hi
  | gpioSetDirection p x =>
    have hp : p ≠ .ddsReset := fun e => hx x (e ▸ rfl)
    exact fun draw trusted d => driveDir_calmChip hb draw trusted v x d hp
  | gpioSetLevel p l =>
    have hp : p ≠ .ddsReset := fun e => hl l (e ▸ rfl)
    exact fun draw trusted d => driveLevel_calmChip hb draw trusted v l d hp
  | ddsConfigureMode m => exact trivial
  | ddsWrite a p => exact absurd rfl (hw a p)
  | ddsRead a n => exact absurd rfl (hr a n)
  | ddsStartStream => exact absurd rfl hs
  | attSet c x =>
    exact ⟨afterTransfer_calmChip b,
      fun draw trusted l d => driveLevel_calmChip hb draw trusted v l d (latchPin_ne_ddsReset c)⟩
  | attGet c => exact afterTransfer_calmChip b

end

section
variable {i : Instr} {s t : State} (h : exec i s = .next t)
include h

/-- A pin command changes the registers of no pin but the one it names (R36, R111, R112). -/
theorem exec_gpioSetLevel_other {p : GpioPin} {l : Level} {v : Variant} (hi : i = .gpioSetLevel p l)
    (hv : s.blk.variant = some v) {j : Fin 16} (hj : j ≠ idx s.board v p) : t.dev.xlat[j] = s.dev.xlat[j] := by
  subst hi
  have hne : (idx s.board v p : Nat) ≠ j := fun e => hj (Fin.ext e.symm)
  refine exec_keeps (q := fun d => d.xlat[j]) (fun _ _ _ => rfl) ?_ h
  intro draw trusted d
  simp [hv, (driveLevel_frame ..).2.1, Vector.getElem_set_ne _ _ hne]

theorem exec_gpioSetDirection_other {p : GpioPin} {x : Dir} {v : Variant} (hi : i = .gpioSetDirection p x)
    (hv : s.blk.variant = some v) {j : Fin 16} (hj : j ≠ idx s.board v p) : t.dev.xdir[j] = s.dev.xdir[j] := by
  subst hi
  have hne : (idx s.board v p : Nat) ≠ j := fun e => hj (Fin.ext e.symm)
  refine exec_keeps (q := fun d => d.xdir[j]) (fun _ _ _ => rfl) ?_ h
  intro draw trusted d
  simp [hv, (driveDir_frame ..).1, Vector.getElem_set_ne _ _ hne]

/-- The DDS chip, while it does not stream, over every command that is none of its own (R39). -/
theorem exec_ddsChip (hb : s.board.admissible) (hw : ∀ a p, i ≠ .ddsWrite a p) (hr : ∀ a n, i ≠ .ddsRead a n)
    (hi : i ≠ .init) (hs : i = .ddsStartStream → t.dev.qstream = false) (hl : ∀ l, i ≠ .gpioSetLevel .ddsReset l)
    (hx : ∀ x, i ≠ .gpioSetDirection .ddsReset x) (hn : s.NotStreaming) : t.dev.ddsChip = s.dev.ddsChip := by
  by_cases he : i = .ddsStartStream
  · subst he
    obtain ⟨-, hd⟩ | ⟨-, hd⟩ := exec_ddsStartStream_cases h
    · rw [hd]
      exact streamedChip_of_not hn
    · simp [hs rfl] at hd
  · exact (calmChip_eq_iff.1 (exec_keeps calmChip_settle (keptBy_calmChip hb hw hr he hi hl hx) h)).2 hn

end

/-- Settles O59: each clause is a quantity of the devices that the command's primitives keep. -/
theorem deviceFrame : Obligations.DeviceFrame := by
  intro i s t hb h
  refine ⟨fun hset hget hi hl hx => ?_, fun hl hset hi => ?_, fun hx hi => ?_, fun p l v hi hv j hj => ?_,
    fun p x v hi hv j hj => ?_, fun hn hw hr hi hs hl hx => ?_, fun hi => ?_⟩
  · exact Prod.ext_iff.1 <| exec_keeps (q := chain) (fun _ _ _ => rfl) (keptBy_chain hb hset hget hi hl hx) h
  · exact exec_keeps (q := fun d => d.xlat) (fun _ _ _ => rfl) (keptBy_xlat hl hset hi) h
  · exact exec_keeps (q := fun d => d.xdir) (fun _ _ _ => rfl) (keptBy_xdir hx hi) h
  · exact exec_gpioSetLevel_other h hi hv hj
  · exact exec_gpioSetDirection_other h hi hv hj
  · exact exec_ddsChip h hb hw hr hi hs hl hx hn
  · exact exec_qstream hi h

end Sys2Proof.Machine

/-! # What a pin command that completes does to the devices -/

namespace Sys2Proof.Machine

section
variable {s t : State} {v : Variant} {p : GpioPin} (ha : s.Accepting) (hv : s.Selected v) (hok : s.NextOk 1)
include ha hv hok

/-- A level written: the latch takes it, and the line moves if the pin is an output (R36, R37, R112). -/
theorem exec_gpioSetLevel_dev {l : Level} (h : exec (.gpioSetLevel p l) s = .next t) :
    t.dev = settleDevices .ok (s.upcoming 0) (driveLevel s.board (s.upcoming 0) true v (idx s.board v p) l s.dev) := by
  obtain ⟨u, hu, -, hdev, -⟩ := pinLevel_ok (s := s.accept) (p := p) (l := l) hv.2 (hok 0 Nat.one_pos)
  rw [exec_next_flow h, commandFlow, accept_blk, hv.1, Option.getD_some, hu]
  exact hdev.trans (by rw [trusted_accept, trusted_of_ready ha.2]; rfl)

/-- A direction written: the pin takes it, and the line moves unless the pin had it (R36, R37, R111). -/
theorem exec_gpioSetDirection_dev {x : Dir} (h : exec (.gpioSetDirection p x) s = .next t) :
    t.dev = settleDevices .ok (s.upcoming 0) (driveDir s.board (s.upcoming 0) true v (idx s.board v p) x s.dev) := by
  obtain ⟨u, hu, -, hdev, -⟩ := pinDir_ok (s := s.accept) (p := p) (x := x) hv.2 (hok 0 Nat.one_pos)
  rw [exec_next_flow h, commandFlow, accept_blk, hv.1, Option.getD_some, hu]
  exact hdev.trans (by rw [trusted_accept, trusted_of_ready ha.2]; rfl)

end

/-- The line of an output pin is at its latch's level (R37). -/
theorem lineLevel_output {d : Devices} {i : Fin 16} (h : d.xdir[i] = .output) : lineLevel d i = some d.xlat[i] := by
  simp only [lineLevel, h, lineOf]

/-- The line of an input pin is undriven (R37). -/
theorem lineLevel_input {d : Devices} {i : Fin 16} (h : d.xdir[i] = .input) : lineLevel d i = none := by
  simp only [lineLevel, h, lineOf]

/-- What is behind the lines is not changed by the end of the transaction itself. -/
theorem behind_lines_of_settled {r : BusOutcome} {draw : Draw} {d d' : Devices} (h : d' = settleDevices r draw d) :
    d'.staging = d.staging ∧ d'.output = d.output ∧ (d.qstream = false → d'.ddsChip = d.ddsChip) := by
  subst h
  exact ⟨rfl, rfl, streamedChip_of_not⟩

/-- A reset line that takes its active level resets its devices, and any other acts on nothing (R35, R39). -/
theorem lineMoved_attRstN_cases (b : Board) (draw : Draw) (x y : Option Level) (d : Devices) :
    (takesActive b.attRstActive draw.drops x y = true ∧ lineMoved b draw .attRstN x y d = resetAttenuators b d) ∨
      (takesActive b.attRstActive draw.drops x y ≠ true ∧ lineMoved b draw .attRstN x y d = d) := by
  by_cases h : takesActive b.attRstActive draw.drops x y = true
  · exact .inl ⟨h, if_pos h⟩
  · exact .inr ⟨h, if_neg h⟩

theorem lineMoved_ddsReset_cases (b : Board) (draw : Draw) (x y : Option Level) (d : Devices) :
    (takesActive b.ddsRstActive draw.drops x y = true ∧ lineMoved b draw .ddsReset x y d = resetDds b d) ∨
      (takesActive b.ddsRstActive draw.drops x y ≠ true ∧ lineMoved b draw .ddsReset x y d = d) := by
  by_cases h : takesActive b.ddsRstActive draw.drops x y = true
  · exact .inl ⟨h, if_pos h⟩
  · exact .inr ⟨h, if_neg h⟩

/-- A line driven before and after takes its active level exactly when it was at the other (R35, R39, R61, R112). -/
theorem lineMoved_attRstN_driven (b : Board) (draw : Draw) (k l : Level) (d : Devices) :
    lineMoved b draw .attRstN (some k) (some l) d =
      if l = b.attRstActive ∧ k ≠ b.attRstActive then resetAttenuators b d else d := by
  simp [lineMoved, takesActive]

theorem lineMoved_ddsReset_driven (b : Board) (draw : Draw) (k l : Level) (d : Devices) :
    lineMoved b draw .ddsReset (some k) (some l) d =
      if l = b.ddsRstActive ∧ k ≠ b.ddsRstActive then resetDds b d else d := by
  simp [lineMoved, takesActive]

/-- An undriven line that is driven at its active level takes it (R111, log 30). -/
theorem takesActive_of_driven {d : Devices} {i : Fin 16} {x : Dir} {active : Level} (drops : Bool)
    (hne : d.xdir[i] ≠ x) (h : x = .output ∧ d.xlat[i] = active) :
    takesActive active drops (lineLevel d i) (if x = .output then some d.xlat[i] else none) = true := by
  obtain ⟨rfl, rfl⟩ := h
  have hin : d.xdir[i] = .input := by cases hd : d.xdir[i] <;> simp_all
  simp [takesActive_active, lineLevel_input hin]

/-- A line made undriven moves nothing behind it, if it is no reset line (R34, R38, log 33). -/
theorem lineMoved_undriven (b : Board) (draw : Draw) {p : GpioPin} (hatt : p ≠ .attRstN) (hdds : p ≠ .ddsReset)
    (x : Option Level) (d : Devices) : lineMoved b draw p x none d = d := by
  by_cases hc : ∃ c, p = latchPin c
  · obtain ⟨c, rfl⟩ := hc
    rw [lineMoved_latchPin, latchEdge_none]
    rfl
  · exact lineMoved_plain b draw (chanOf_eq_none fun c e => hc ⟨c, e⟩) hatt hdds _ _ _

/-- An undriven line that becomes driven latches, if at all, at `High` (R34, U9). -/
theorem latchEdge_driven {l : Level} {draw : Draw} (h : latchEdge none (some l) draw = true) : l = .high := by
  cases l with
  | low => cases h
  | high => rfl

/-- Settles O30: a level `Low` never latches, a level `High` does from `Low`. -/
theorem latchLineLatchesOnRisingEdge : Obligations.LatchLineLatchesOnRisingEdge := by
  intro s t v c l ha hv hok hb hout hrun h
  have hdev := exec_gpioSetLevel_dev ha hv hok h
  cases l with
  | low =>
    rw [driveLatch_low hb] at hdev
    obtain ⟨hS, hO, hchip⟩ := behind_lines_of_settled hdev
    exact ⟨hS, hchip, by simpa using hO⟩
  | high =>
    rw [driveLatch_high hb _ _ _ hv.2] at hdev
    simp only [and_true]
    by_cases hlow : s.dev.xlat[idx s.board v (latchPin c)] = .low
    · rw [if_pos ⟨hout, hlow⟩, if_pos hrun] at hdev
      obtain ⟨hS, hO, hchip⟩ := behind_lines_of_settled hdev
      exact ⟨hS, hchip, by rw [if_pos hlow]; exact hO⟩
    · rw [if_neg fun e => hlow e.2] at hdev
      obtain ⟨hS, hO, hchip⟩ := behind_lines_of_settled hdev
      exact ⟨hS, hchip, by rw [if_neg hlow]; exact hO⟩

/-- Settles O31: the line of an input stays undriven, and a plain pin's line is wired to no device. -/
theorem levelOfInputOrPlainPinActsOnNothing : Obligations.LevelOfInputOrPlainPinActsOnNothing := by
  intro s t v p l ha hv hok hb h hp
  have hdev := exec_gpioSetLevel_dev ha hv hok h
  have still : ∀ d, lineMoved s.board (s.upcoming 0) p (lineLevel s.dev (idx s.board v p))
      (if s.dev.xdir[idx s.board v p] = .output then some l else none) d = d := by
    intro d
    obtain hin | ⟨hc, hatt, hdds⟩ := hp
    · simp [lineLevel_input hin, hin]
    · exact lineMoved_plain _ _ (chanOf_eq_none hc) hatt hdds _ _ _
  rw [driveLevel_idx hb, lineBefore_true, still] at hdev
  obtain ⟨hS, hO, hchip⟩ := behind_lines_of_settled hdev
  exact ⟨hS, hO, hchip⟩

/-- Settles O32: the line was driven before and is driven after, so it takes the active level exactly where it was at the other. -/
theorem resetLinesResetTheirDevices : Obligations.ResetLinesResetTheirDevices := by
  intro s t v l ha hv hok hb
  refine ⟨fun h hout => ?_, fun h hout => ?_⟩
  · have hdev := exec_gpioSetLevel_dev ha hv hok h
    rw [driveLevel_idx hb, lineBefore_true, lineLevel_output hout, if_pos hout, lineMoved_attRstN_driven] at hdev
    by_cases hedge : l = s.board.attRstActive ∧ s.dev.xlat[idx s.board v .attRstN] ≠ s.board.attRstActive
    · rw [if_pos hedge] at hdev ⊢
      obtain ⟨hS, hO, hchip⟩ := behind_lines_of_settled hdev
      exact ⟨hchip, hS, hO⟩
    · rw [if_neg hedge] at hdev ⊢
      obtain ⟨hS, hO, hchip⟩ := behind_lines_of_settled hdev
      exact ⟨hchip, hS, hO⟩
  · have hdev := exec_gpioSetLevel_dev ha hv hok h
    rw [driveLevel_idx hb, lineBefore_true, lineLevel_output hout, if_pos hout, lineMoved_ddsReset_driven] at hdev
    by_cases hedge : l = s.board.ddsRstActive ∧ s.dev.xlat[idx s.board v .ddsReset] ≠ s.board.ddsRstActive
    · rw [if_pos hedge] at hdev ⊢
      obtain ⟨hS, hO, hchip⟩ := behind_lines_of_settled hdev
      exact ⟨hS, hO, hchip⟩
    · rw [if_neg hedge] at hdev ⊢
      obtain ⟨hS, hO, hchip⟩ := behind_lines_of_settled hdev
      exact ⟨hS, hO, hchip⟩

/-- Settles O33: the line goes from driven to undriven or back, and the pin's own function says what that does. -/
theorem directionChangeDrivesTheLatchedLevel : Obligations.DirectionChangeDrivesTheLatchedLevel := by
  intro s t v p x ha hv hok hb h
  have hdev := exec_gpioSetDirection_dev ha hv hok h
  rw [driveDir_idx hb, lineBefore_true] at hdev
  refine ⟨fun hp => ?_, ?_, ?_, ?_⟩
  · by_cases hsame : s.dev.xdir[idx s.board v p] = x
    · rw [if_pos hsame] at hdev
      exact behind_lines_of_settled hdev
    · obtain ⟨hp, hatt, hdds⟩ := hp.resolve_left hsame
      have still : ∀ d, lineMoved s.board (s.upcoming 0) p (lineLevel s.dev (idx s.board v p))
          (if x = .output then some s.dev.xlat[idx s.board v p] else none) d = d := by
        intro d
        obtain rfl | hc := hp
        · exact lineMoved_undriven _ _ hatt hdds _ _
        · exact lineMoved_plain _ _ (chanOf_eq_none hc) hatt hdds _ _ _
      rw [if_neg hsame, still] at hdev
      obtain ⟨hS, hO, hchip⟩ := behind_lines_of_settled hdev
      exact ⟨hS, hO, hchip⟩
  · rintro c rfl rfl hin hrun
    rw [if_neg (by simp [hin]), if_pos rfl, lineLevel_input hin, lineMoved_latchPin, latchOutput,
      attReleased_setDir hb _ _ hv.2 (latchPin_ne_attRstN c), if_pos hrun] at hdev
    by_cases hedge : latchEdge none (some s.dev.xlat[idx s.board v (latchPin c)]) (s.upcoming 0) = true
    · rw [if_pos hedge] at hdev
      obtain ⟨hS, hO, hchip⟩ := behind_lines_of_settled hdev
      exact ⟨hS, hchip, .inr ⟨latchEdge_driven hedge, hO⟩⟩
    · rw [if_neg hedge] at hdev
      obtain ⟨hS, hO, hchip⟩ := behind_lines_of_settled hdev
      exact ⟨hS, hchip, .inl hO⟩
  · rintro rfl hne
    rw [if_neg hne] at hdev
    obtain ⟨-, e⟩ | ⟨htake, e⟩ := lineMoved_attRstN_cases s.board (s.upcoming 0) _ _ _
    all_goals
      rw [e] at hdev
      obtain ⟨hS, hO, hchip⟩ := behind_lines_of_settled hdev
    · exact ⟨hchip, .inl ⟨hS, hO⟩⟩
    · exact ⟨hchip, .inr ⟨fun hact => htake (takesActive_of_driven _ hne hact), hS, hO⟩⟩
  · rintro rfl hne
    rw [if_neg hne] at hdev
    obtain ⟨-, e⟩ | ⟨htake, e⟩ := lineMoved_ddsReset_cases s.board (s.upcoming 0) _ _ _
    all_goals
      rw [e] at hdev
      obtain ⟨hS, hO, hchip⟩ := behind_lines_of_settled hdev
    · exact ⟨hS, hO, fun hn => .inl (hchip hn)⟩
    · exact ⟨hS, hO, fun hn => .inr ⟨fun hact => htake (takesActive_of_driven _ hne hact), hchip hn⟩⟩

end Sys2Proof.Machine

/-! # What an attenuator command that completes leaves -/

namespace Sys2Proof.Machine

section
variable {s : State} {c : Channel}

/-- A transfer that completes (R149); what it returns and leaves is said for running attenuators. -/
theorem attXfer_ok {w : Quad} (h : (s.upcoming 0).outcome = .ok) :
    ∃ rx t, attXfer w s = .done rx t ∧ Ran 1 [.spiXfer w .ok (some rx)] s t ∧ t.dev.qbusy = false ∧
      (s.AttRunning → rx = s.dev.staging ∧ t.AttRunning ∧ t.dev.staging = w ∧ t.dev.output = s.dev.output ∧
        t.dev.xdir = s.dev.xdir) := by
  refine ⟨_, _, spiXfer_ok_any h, ran_completed .., rfl, fun hr => ?_⟩
  have hr : attReleased s.board s.dev = true := hr
  simp only [spiReturned, afterTransfer, hr, if_true]
  exact ⟨trivial, (attReleased_congr s.board rfl rfl).trans hr, rfl, rfl, rfl⟩

/-- An ATT_GET whose transfers complete answers the byte the first returned, and sends back what it returned (R155, R156). -/
theorem attGetSteps_ok (hok : s.NextOk 2) :
    ∃ rx rx' t, attGetSteps c s = .done (attResult (codeOf rx[chanIndex c])) t ∧ t.board = s.board ∧
      t.blk = { s.blk with buf := rx, cap := rx, stepIx := s.blk.stepIx + 1 + 1 } ∧
      t.io = { s.io with
        env := s.io.env.drop 2
        draws := s.io.draws + 2
        trace := s.io.trace ++ [.spiXfer attXferFill .ok (some rx), .spiXfer rx .ok (some rx')] } ∧
      t.dev.qbusy = false ∧
      (s.AttRunning → t.dev.staging = s.dev.staging ∧ t.dev.output = s.dev.output) := by
  obtain ⟨rx, t, ht, hran, -, hrun⟩ := attXfer_ok (w := attXferFill) (hok 0 (by omega))
  have hnext : (((t.setBuf rx).setCap rx).upcoming 0).outcome = .ok := by
    simpa [hran.upcoming] using hok 1 (by omega)
  obtain ⟨rx', u, hu, hran', hq, hrun'⟩ := attXfer_ok (w := rx) hnext
  refine ⟨rx, rx', u, ?_, hran'.board.trans hran.board, ?_, ?_, hq, fun hr => ?_⟩
  · simp only [attGetSteps, ht, bind_done, hu, hran'.blk]
    rfl
  · rw [hran'.blk, setCap_blk, setBuf_blk, hran.blk]
    rfl
  · rw [hran'.io, setCap_io, setBuf_io, hran.io]
    simp
  · obtain ⟨hrx, hr, -, hout, -⟩ := hrun hr
    obtain ⟨-, -, hstaging, hout', -⟩ := hrun' hr
    exact ⟨hstaging.trans hrx, hout'.trans hout⟩

/-- An ATT_SET whose transactions complete, with the attenuators running: the byte goes into the channel's place in `S`, and in `O`
if the latch pin is an output (R150, R153). -/
theorem attSetSteps_running {v : Variant} {code : Nat} (hf : s.board.fitted = some v) (hb : s.board.admissible)
    (ht : s.trusted = true) (hok : s.NextOk 4) (hr : s.AttRunning) :
    ∃ t, attSetSteps v c code s = .done (attResult code) t ∧
      t.dev.staging = s.dev.staging.set (chanIndex c) (byteOf code) ∧
      t.dev.output =
        if s.PinOutput v (latchPin c) then s.dev.output.set (chanIndex c) (byteOf code) else s.dev.output := by
  obtain ⟨rx, t, h1, hran, -, hrun⟩ := attXfer_ok (w := attXferFill) (hok 0 (by omega))
  obtain ⟨rfl, hr1, -, hout1, hxdir1⟩ := hrun hr
  have hnext : ((t.setBuf (s.dev.staging.set (chanIndex c) (byteOf code))).upcoming 0).outcome = .ok := by
    simpa [hran.upcoming] using hok 1 (by omega)
  obtain ⟨rx', u, h2, hran', -, hrun'⟩ := attXfer_ok (w := s.dev.staging.set (chanIndex c) (byteOf code)) hnext
  obtain ⟨-, hr2, hstaging2, hout2, hxdir2⟩ := hrun' hr1
  have hboard : u.board = s.board := hran'.board.trans hran.board
  have hup : ∀ j, u.upcoming j = s.upcoming (2 + j) := fun j => by
    rw [hran'.upcoming, upcoming_setBuf, hran.upcoming, ← Nat.add_assoc]
  have h3 := attLatch_ok (v := v) (c := c) (s := u) (hboard ▸ hf) (hboard ▸ hb)
    (by rw [hran'.trusted, trusted_setBuf, hran.trusted, ht]) (hup 0 ▸ hok 2 (by omega)) (hup 1 ▸ hok 3 (by omega))
  refine ⟨_, by simp only [attSetSteps, h1, bind_done, h2, h3]; rfl, ?_, ?_⟩
  · simp only [completed_dev, afterLatch_running (hboard ▸ hb) _ _ c u.dev (hboard ▸ hf) hr2]
    exact hstaging2
  · simp only [completed_dev, afterLatch_running (hboard ▸ hb) _ _ c u.dev (hboard ▸ hf) hr2]
    simp only [hboard, hxdir2, setBuf_dev, hxdir1, hout2, hout1, hstaging2, Fin.getElem_fin, Vector.getElem_set_self]
    rfl

end

/-- Devices that agree on the pin registers and `QSTREAM` differ in the chains, `QBUSY` and the DDS chip alone. -/
theorem devices_eq_of_pins {d d' : Devices} {busy : Bool} (hxdir : d'.xdir = d.xdir) (hxlat : d'.xlat = d.xlat)
    (hbusy : d'.qbusy = busy) (hstream : d'.qstream = d.qstream) :
    d' = { d with staging := d'.staging, output := d'.output, qbusy := busy, ddsChip := d'.ddsChip } := by
  cases d'
  cases hxdir; cases hxlat; cases hbusy; cases hstream
  rfl

/-- Settles O43: neither transfer touches a pin register, wherever the reset line is. -/
theorem attGetInResetAnswersWhatItRead : Obligations.AttGetInResetAnswersWhatItRead := by
  intro s c ha hok _
  obtain ⟨rx, rx', u, hu, hboard, hblk, hio, hq, -⟩ := attGetSteps_ok (c := c) (s := s.accept) hok
  have hexec : exec (.attGet c) s = .next (u.respond (successResponse (attResult (codeOf rx[chanIndex c])))) := by
    rw [exec_attGet, inPhase_accepts ha.1 ha.2, hu, finish_done]
  have kept : ∀ {γ : Type} {q : Devices → γ}, (∀ r draw d, q (settleDevices r draw d) = q d) →
      (∀ r draw w d, q (afterTransfer s.board r draw w d) = q d) → q u.dev = q s.dev :=
    fun hq hk => exec_keeps hq (i := .attGet c) (t := u.respond _) hk hexec
  have hxdir : u.dev.xdir = s.dev.xdir := kept (fun _ _ _ => rfl) fun _ _ _ _ => (afterTransfer_frame ..).1
  have hxlat : u.dev.xlat = s.dev.xlat := kept (fun _ _ _ => rfl) fun _ _ _ _ => (afterTransfer_frame ..).2.1
  obtain ⟨hstream, hchip⟩ := calmChip_eq_iff.1 (kept calmChip_settle (afterTransfer_calmChip s.board))
  refine ⟨_, rx, rx', hexec, ?_, hboard, ?_, hchip, ?_⟩
  · rw [respond_blk, hblk]
    exact congrArg (fun b : Block => { b with buf := rx, cap := rx }) (blk_idle ha.1)
  · exact devices_eq_of_pins hxdir hxlat hq hstream
  · rw [respond_io, hio]
    rfl

/-- Settles O45: with `S = O` before, both get the same byte in the same place, or none does. -/
theorem attenuatorCommandsKeepSynchronisation : Obligations.AttenuatorCommandsKeepSynchronisation := by
  intro s v c x ha hv hb hok hr hout hsync
  have hsync : s.dev.staging = s.dev.output := hsync
  refine ⟨fun t h => ?_, fun t h => ?_⟩
  · have ht := exec_next_flow h
    simp only [commandFlow, accept_blk, hv.1, Option.getD_some] at ht
    split at ht
    · obtain ⟨u, hu, hstaging, houtput⟩ := attSetSteps_running (c := c) (s := s.accept) (code := attCode x) hv.2 hb
        (trusted_of_ready ha.2) hok hr
      rw [hu] at ht
      rw [if_pos (show s.accept.PinOutput v (latchPin c) from hout)] at houtput
      rw [ht]
      exact hstaging.trans (hsync ▸ houtput.symm)
    · rw [ht]
      exact hsync
  · obtain ⟨rx, rx', u, hu, -, -, -, -, hrun⟩ := attGetSteps_ok (c := c) (s := s.accept) fun j hj => hok j (by omega)
    obtain ⟨hstaging, houtput⟩ := hrun hr
    rw [exec_next_flow h, commandFlow, hu]
    exact hstaging.trans (hsync.trans houtput.symm)

end Sys2Proof.Machine

/-! # The command port: decoder and encoder (spec/30_encoding.md Part B) -/

namespace Sys2Proof

/-! ## What the decoder reads of an encoding -/

/-- The operands of a command are read back from its operand bytes; a length fits its byte (R87, R88). -/
theorem decodeOperands_operandBytes {i : Instr} (h : i.wellFormed = true) :
    decodeOperands (opcode i) (operandBytes i) = .ok i := by
  cases i with
  | init => rfl
  | gpioSetDirection p x => simp [opcode, operandBytes, decodeOperands, decodeSetDirection]
  | gpioSetLevel p l => simp [opcode, operandBytes, decodeOperands, decodeSetLevel]
  | ddsConfigureMode m => simp [opcode, operandBytes, decodeOperands, decodeConfigureMode]
  | ddsWrite a payload =>
    have hle : payload.length ≤ 255 := of_decide_eq_true h
    have hlen : payload.length = payload.length % 256 := by omega
    exact if_pos hlen
  | ddsRead a n =>
    have hle : n ≤ 255 := of_decide_eq_true h
    have hn : n % 256 = n := by omega
    exact congrArg (fun k => Except.ok (Instr.ddsRead a k)) hn
  | ddsStartStream => rfl
  | attSet c x =>
    simp [opcode, operandBytes, decodeOperands, decodeAttSet, bytesOfWord32, word32OfBytes_bytes]
  | attGet c => simp [opcode, operandBytes, decodeOperands, decodeAttGet]

theorem decode_encode {i : Instr} (h : i.wellFormed = true) : decode (encode i) = .ok i :=
  (decode_cons _ _).trans (decodeOperands_operandBytes h)

/-- Settles O1: byte 0 gives back the opcode, the other bytes the operands. -/
theorem decodeOfEncodeIsTheCommand : Obligations.DecodeOfEncodeIsTheCommand := fun _ => decode_encode

/-- Settles O5: each string is the encoding of its command. -/
theorem writtenOutCommandsDecode : Obligations.WrittenOutCommandsDecode :=
  ⟨decode_encode (i := .init) rfl, decode_encode (i := .gpioSetDirection .extClkSel .input) rfl,
    decode_encode (i := .gpioSetLevel .attLe2 .high) rfl, decode_encode (i := .ddsConfigureMode .native) rfl,
    decode_encode (i := .ddsWrite 0x03 [0x12, 0x34]) rfl, decode_encode (i := .ddsRead 0x04 4) rfl,
    decode_encode (i := .ddsStartStream) rfl, decode_encode (i := .attSet .in1 0x41200000) rfl,
    decode_encode (i := .attGet .in1) rfl⟩

/-- Settles O4: no level byte is illegal. -/
theorem levelByteIsLowOnlyAtZero : Obligations.LevelByteIsLowOnlyAtZero := by
  intro p e
  rw [show (0x11 : Byte) = opcodeByte .gpioSetLevel from rfl, decode_cons]
  simp [decodeOperands, decodeSetLevel, levelOfByte]

/-! ## Operand bytes that are legal, and those that are not (R88) -/

theorem byteOfPin_of_pinOfByte {b : Byte} {p : GpioPin} (h : pinOfByte b = some p) : byteOfPin p = b := by
  have ordinals : ∀ n : Fin 16, byteOfPin allPins[n] = BitVec.ofNat 8 n.val := by decide
  obtain ⟨hlt, rfl⟩ := List.getElem?_eq_some_iff.1 h
  simpa using ordinals ⟨b.toNat, hlt⟩

theorem byteOfChannel_of_channelOfByte {b : Byte} {c : Channel} (h : channelOfByte b = some c) : byteOfChannel c = b := by
  have numbers : ∀ n : Fin 4, byteOfChannel allChannels[n] = BitVec.ofNat 8 n.val := by decide
  obtain ⟨hlt, rfl⟩ := List.getElem?_eq_some_iff.1 h
  simpa using numbers ⟨b.toNat, hlt⟩

theorem byteOfDir_of_dirOfByte {b : Byte} {x : Dir} (h : dirOfByte b = some x) : byteOfDir x = b := by
  unfold dirOfByte at h
  split_ifs at h with h0 h1
  · cases h; exact h0.symm
  · cases h; exact h1.symm

theorem byteOfMode_of_modeOfByte {b : Byte} {m : Mode} (h : modeOfByte b = some m) : byteOfMode m = b := by
  unfold modeOfByte at h
  split_ifs at h with h0 h1
  · cases h; exact h0.symm
  · cases h; exact h1.symm

theorem pinOfByte_eq_none {b : Byte} (h : 15 < b.toNat) : pinOfByte b = none := List.getElem?_eq_none h

theorem channelOfByte_eq_none {b : Byte} (h : 3 < b.toNat) : channelOfByte b = none := List.getElem?_eq_none h

theorem exists_pinOfByte {b : Byte} (h : b.toNat ≤ 15) : ∃ p, pinOfByte b = some p :=
  ⟨_, List.getElem?_eq_getElem (Nat.lt_succ_of_le h)⟩

/-- A byte over 1 is neither of the two legal bytes of `dir` and `mode`. -/
theorem ne_zero_one_of_one_lt {b : Byte} (h : 1 < b.toNat) : b ≠ 0 ∧ b ≠ 1 :=
  ⟨by rintro rfl; exact absurd h (by decide), by rintro rfl; exact absurd h (by decide)⟩

theorem dirOfByte_eq_none {b : Byte} (h : 1 < b.toNat) : dirOfByte b = none := by
  obtain ⟨h0, h1⟩ := ne_zero_one_of_one_lt h
  rw [dirOfByte, if_neg h0, if_neg h1]

theorem modeOfByte_eq_none {b : Byte} (h : 1 < b.toNat) : modeOfByte b = none := by
  obtain ⟨h0, h1⟩ := ne_zero_one_of_one_lt h
  rw [modeOfByte, if_neg h0, if_neg h1]

theorem opcodeOfByte_eq_none {b : Byte} (h : b.toNat ∉ [0x00, 0x10, 0x11, 0x20, 0x21, 0x22, 0x23, 0x30, 0x31]) :
    opcodeOfByte b = none := by
  cases hop : opcodeOfByte b with
  | none => rfl
  | some op =>
    rw [← opcodeOfByte_eq_some hop] at h
    exact absurd (by cases op <;> decide) h

/-! ## What the decoder accepts -/

/-- Operand bytes that decode are those of a well-formed command of the opcode, but for the level byte, of which
GPIO_SET_LEVEL reads any (R87, R88, R89). -/
theorem decodeOperands_eq_ok {op : Opcode} {args : List Byte} {i : Instr} (h : decodeOperands op args = .ok i) :
    opcode i = op ∧ i.wellFormed = true ∧
      (((∀ p l, i ≠ .gpioSetLevel p l) ∧ args = operandBytes i) ∨
        ∃ p e, i = .gpioSetLevel p (levelOfByte e) ∧ args = [byteOfPin p, e]) := by
  cases op <;> simp only [decodeOperands] at h
  case init =>
    unfold decodeNone at h
    split at h <;> cases h
    exact ⟨rfl, rfl, .inl ⟨nofun, rfl⟩⟩
  case gpioSetDirection =>
    unfold decodeSetDirection at h
    split at h
    · split at h <;> cases h
      rename_i hp hx
      exact ⟨rfl, rfl, .inl ⟨nofun, by rw [operandBytes, byteOfPin_of_pinOfByte hp, byteOfDir_of_dirOfByte hx]⟩⟩
    · cases h
  case gpioSetLevel =>
    unfold decodeSetLevel at h
    split at h
    · split at h <;> cases h
      rename_i hp
      exact ⟨rfl, rfl, .inr ⟨_, _, rfl, by rw [byteOfPin_of_pinOfByte hp]⟩⟩
    · cases h
  case ddsConfigureMode =>
    unfold decodeConfigureMode at h
    split at h
    · split at h <;> cases h
      rename_i hm
      exact ⟨rfl, rfl, .inl ⟨nofun, by rw [operandBytes, byteOfMode_of_modeOfByte hm]⟩⟩
    · cases h
  case ddsWrite =>
    unfold decodeDdsWrite at h
    split at h
    · rename_i a n payload
      split_ifs at h with hlen
      cases h
      have hle : payload.length ≤ 255 := by omega
      exact ⟨rfl, decide_eq_true hle, .inl ⟨nofun, by rw [operandBytes, hlen]; simp⟩⟩
    · cases h
  case ddsRead =>
    unfold decodeDdsRead at h
    split at h <;> cases h
    rename_i a n
    have hle : n.toNat ≤ 255 := by omega
    exact ⟨rfl, decide_eq_true hle, .inl ⟨nofun, by simp [operandBytes]⟩⟩
  case ddsStartStream =>
    unfold decodeNone at h
    split at h <;> cases h
    exact ⟨rfl, rfl, .inl ⟨nofun, rfl⟩⟩
  case attSet =>
    unfold decodeAttSet at h
    split at h
    · split at h <;> cases h
      rename_i hc
      exact ⟨rfl, rfl, .inl ⟨nofun, by
        rw [operandBytes, byteOfChannel_of_channelOfByte hc, bytesOfWord32_word32]⟩⟩
    · cases h
  case attGet =>
    unfold decodeAttGet at h
    split at h
    · split at h <;> cases h
      rename_i hc
      exact ⟨rfl, rfl, .inl ⟨nofun, by rw [operandBytes, byteOfChannel_of_channelOfByte hc]⟩⟩
    · cases h

/-- The length told by the first bytes of an encoding is its own, for every command (R87, R94). -/
theorem commandLength_encode {i : Instr} (h : i.wellFormed = true) : commandLength (encode i) = some (encode i).length := by
  have statement : Laws.EncodedLength.Statement i := by
    cases i with
    | init => exact Laws.EncodedLength.init
    | gpioSetDirection p x => exact Laws.EncodedLength.gpioSetDirection p x
    | gpioSetLevel p l => exact Laws.EncodedLength.gpioSetLevel p l
    | ddsConfigureMode m => exact Laws.EncodedLength.ddsConfigureMode m
    | ddsWrite a payload => exact Laws.EncodedLength.ddsWrite a payload
    | ddsRead a n => exact Laws.EncodedLength.ddsRead a n
    | ddsStartStream => exact Laws.EncodedLength.ddsStartStream
    | attSet c x => exact Laws.EncodedLength.attSet c x
    | attGet c => exact Laws.EncodedLength.attGet c
  exact (statement h).2

/-- Settles O2: the accepted bytes are an opcode and its operand bytes; the level byte is the one with several spellings. -/
theorem acceptedBytesAreAnEncoding : Obligations.AcceptedBytesAreAnEncoding := by
  intro bs i h
  obtain ⟨op, args, rfl, hargs⟩ := decode_eq_ok h
  obtain ⟨rfl, hwf, ⟨hne, rfl⟩ | ⟨p, e, rfl, rfl⟩⟩ := decodeOperands_eq_ok hargs
  · exact ⟨hwf, commandLength_encode hwf, fun _ => rfl, fun p l hi => absurd hi (hne p l)⟩
  · refine ⟨hwf, rfl, fun hne => absurd rfl (hne p (levelOfByte e)), ?_⟩
    rintro p l ⟨⟩
    exact ⟨e, rfl, rfl⟩

/-! ## What the decoder rejects (R93) -/

/-- Operand bytes of another length than the format's are rejected as that. -/
theorem decodeOperands_wrongLength {op : Opcode} {args : List Byte} {n : Nat} (hn : formatLength op args = some n)
    (h : args.length + 1 ≠ n) : decodeOperands op args = .error (.wrongLength op) := by
  cases op with
  | ddsWrite =>
    match args with
    | [] => rfl
    | [_] => rfl
    | _ :: k :: payload =>
      obtain rfl : 3 + k.toNat = n := Option.some.inj hn
      exact if_neg fun hlen => h (by simp only [List.length_cons, hlen]; omega)
  | _ =>
    cases hn
    simp only [decodeOperands, decodeNone, decodeSetDirection, decodeSetLevel, decodeConfigureMode, decodeDdsRead,
      decodeAttSet, decodeAttGet]
    split
    · exact absurd rfl h
    · rfl

theorem decode_wrongLength {bs : List Byte} {n : Nat} (hn : commandLength bs = some n) (h : bs.length ≠ n) :
    ∃ op : Opcode, bs.head? = some (opcodeByte op) ∧ decode bs = .error (.wrongLength op) := by
  cases bs with
  | nil => cases hn
  | cons b args =>
    obtain ⟨op, hop, hfmt⟩ := Option.bind_eq_some_iff.1 hn
    obtain rfl := opcodeOfByte_eq_some hop
    exact ⟨op, rfl, (decode_cons op args).trans (decodeOperands_wrongLength hfmt h)⟩

/-- Settles O3: each clause is the decoder's own test for it. -/
theorem malformedBytesAreRejected : Obligations.MalformedBytesAreRejected := by
  refine ⟨rfl, fun op args h => ?_, fun bs n => decode_wrongLength, ⟨rfl, fun _ => rfl⟩, fun p e hp => ⟨?_, ?_⟩,
    fun p e hp he => ?_, fun e he => ?_, fun c hc => ⟨?_, fun f3 f2 f1 f0 => ?_⟩⟩
  · rw [decode, opcodeOfByte_eq_none h]
  · refine (decode_cons .gpioSetDirection _).trans ?_
    rw [decodeOperands, decodeSetDirection, pinOfByte_eq_none hp]
  · refine (decode_cons .gpioSetLevel _).trans ?_
    rw [decodeOperands, decodeSetLevel, pinOfByte_eq_none hp]
  · obtain ⟨pin, hpin⟩ := exists_pinOfByte hp
    refine (decode_cons .gpioSetDirection _).trans ?_
    rw [decodeOperands, decodeSetDirection, hpin, dirOfByte_eq_none he]
  · refine (decode_cons .ddsConfigureMode _).trans ?_
    rw [decodeOperands, decodeConfigureMode, modeOfByte_eq_none he]
  · refine (decode_cons .attGet _).trans ?_
    rw [decodeOperands, decodeAttGet, channelOfByte_eq_none hc]
  · refine (decode_cons .attSet _).trans ?_
    rw [decodeOperands, decodeAttSet, channelOfByte_eq_none hc]

end Sys2Proof

/-! # A step, and the response of a command -/

namespace Sys2Proof.Machine

/-- A step of an idle block to which bytes are presented is decided by what they decode to (R85, R93). -/
theorem step_command {s : State} {bytes : List Byte} {rest : List (List Byte)} (h0 : s.blk.stepIx = 0)
    (hhost : s.io.host = bytes :: rest) :
    (∀ i, decode bytes = .ok i → step s = exec i { s with io := { s.io with host := rest } }) ∧
      ∀ e, decode bytes = .error e → step s = .refused (.malformed e) := by
  unfold step
  rw [if_neg (not_not.2 h0), hhost]
  exact ⟨fun i hi => by simp only [hi], fun e he => by simp only [he]⟩

/-- Settles O6: the bytes decode, so they are executed. -/
theorem stepRunsTheDecodedCommand : Obligations.StepRunsTheDecodedCommand :=
  fun _ _ _ i h0 hhost hi => (step_command h0 hhost).1 i hi

/-- Settles O7: the bytes do not decode, and the refusal carries the decoder's reason. -/
theorem stepRefusesMalformedBytes : Obligations.StepRefusesMalformedBytes :=
  fun _ _ _ e h0 hhost he => (step_command h0 hhost).2 e he

/-- A micro-step at which a sequence of at most 37 has stopped is not 0 (R26). -/
theorem stepIx_ne_zero {n : BitVec 6} {m : Nat} (hm : m < 37) (hn : n = 1 + BitVec.ofNat 6 m) : n ≠ 0 := by
  have hnat := toNat_stepIx hm hn
  rintro rfl
  exact absurd hnat (by simp)

/-- Settles O10: INIT by its three endings, every other command by its sequence's two. -/
theorem oneResponsePerCommand : Obligations.OneResponsePerCommand := by
  intro i s t h
  by_cases hi : i = .init
  · subst hi
    obtain ⟨v, u, hu, -, rfl⟩ | ⟨v, u, hu, rfl⟩ | ⟨hu, m, hm, hstep⟩ := exec_init_cases h
    · exact ⟨.inl ⟨rfl, _, congrArg (· ++ _) hu.responses⟩, hu.trace, hu.host, hu.board⟩
    · exact ⟨.inl ⟨rfl, _, congrArg (· ++ _) hu.responses⟩, hu.trace, hu.host, hu.board⟩
    · have hne := stepIx_ne_zero hm hstep
      obtain hu | ⟨v, hu⟩ := hu
      all_goals exact ⟨.inr ⟨hne, hu.responses⟩, hu.trace, hu.host, hu.board⟩
  · obtain ⟨added, htrace, -⟩ := exec_next_issues hi h
    have htrace : s.io.trace <+: t.io.trace := ⟨added, htrace.symm⟩
    obtain ⟨u, hu, ⟨r, rfl⟩ | ⟨rfl, m, hm, hstep⟩⟩ := exec_next_runs hi h
    · exact ⟨.inl ⟨rfl, r, congrArg (· ++ _) hu.responses⟩, htrace, hu.host, hu.board⟩
    · exact ⟨.inr ⟨stepIx_ne_zero (by omega) hstep, hu.responses⟩, htrace, hu.host, hu.board⟩

end Sys2Proof.Machine

/-! # The narrow-compatibility frame (spec/30_encoding.md A.1) -/

namespace Sys2Proof.Machine

theorem getLsbD_bitByte (b : Byte) (n j : Nat) : (bitByte b n).getLsbD j = (decide (j = 0) && b.getLsbD n) := by
  unfold bitByte
  split <;> simp_all

/-- Bit 4 of an encoded byte carries the high bit of its pair, bit 0 the low one, and no other bit anything (R72). -/
theorem getLsbD_encPair (b : Byte) (k j : Nat) :
    (encPair b k).getLsbD j = if j = 4 then b.getLsbD (2 * k + 1) else if j = 0 then b.getLsbD (2 * k) else false := by
  simp only [encPair, BitVec.getLsbD_or, BitVec.getLsbD_shiftLeft, getLsbD_bitByte]
  split_ifs with h4 h0
  · simp [h4]
  · simp [h0]
  · obtain hlt | hne : j < 4 ∨ j - 4 ≠ 0 := by omega
    · simp [hlt, h0]
    · simp [hne, h0]

theorem getElem_enc4 (b : Byte) {k : Nat} (h : k < 4) : (enc4 b)[3 - k]? = some (encPair b k) :=
  match k, h with
  | 0, _ => rfl
  | 1, _ => rfl
  | 2, _ => rfl
  | 3, _ => rfl

/-- Settles O15: the element at `3 - k` is the encoded byte of pair `k`. -/
theorem encodedBytePlacement : Obligations.EncodedBytePlacement := by
  intro b k hk
  refine ⟨encPair b k, getElem_enc4 b hk, ?_, ?_, fun j h4 h0 => ?_⟩
  · rw [getLsbD_encPair, if_pos rfl]
  · rw [getLsbD_encPair, if_neg (by decide), if_pos rfl]
  · rw [getLsbD_encPair, if_neg h4, if_neg h0]

/-! ## A frame is the four encoded bytes of each raw byte, address first (R73) -/

theorem narrowFrame_eq_flatMap (a : Byte) (payload : List Byte) : narrowFrame a payload = (a :: payload).flatMap enc4 := rfl

theorem mem_enc4 {b e : Byte} (h : e ∈ enc4 b) : ∃ k, e = encPair b k := by
  simp only [enc4, List.mem_cons, List.not_mem_nil, or_false] at h
  obtain h | h | h | h := h
  all_goals exact ⟨_, h⟩

/-- Decoding four encoded bytes puts each bit pair back in its place (R76). -/
theorem dec4_enc4 (b : Byte) : dec4 (encPair b 3) (encPair b 2) (encPair b 1) (encPair b 0) = b := by
  revert b; decide

theorem decodeFrame_flatMap_enc4 (bytes : List Byte) : decodeFrame (bytes.flatMap enc4) = bytes := by
  induction bytes with
  | nil => rfl
  | cons b bytes ih => exact congrArg₂ List.cons (dec4_enc4 b) ih

/-- Settles O16: byte by byte, the address first. -/
theorem narrowFrameRoundTrip : Obligations.NarrowFrameRoundTrip := by
  intro a payload
  refine ⟨length_narrowFrame a payload, fun e he => ?_, decodeFrame_flatMap_enc4 (a :: payload)⟩
  rw [narrowFrame_eq_flatMap] at he
  obtain ⟨b, -, hb⟩ := List.mem_flatMap.1 he
  obtain ⟨k, rfl⟩ := mem_enc4 hb
  exact encPair_mem b k

/-! ## What the four lines carry (R56, R75) -/

theorem lineBits_flatMap (j : Nat) (f : Byte → List Byte) (bytes : List Byte) :
    lineBits j (bytes.flatMap f) = bytes.flatMap fun b => lineBits j (f b) := by
  induction bytes with
  | nil => rfl
  | cons b bytes ih => rw [List.flatMap_cons, lineBits_append, ih, List.flatMap_cons]

/-- A byte puts bit `j` of its high nibble on line `j`, then that of its low nibble (R56). -/
theorem lineBits_cons {j : Nat} (hj : j < 4) (e : Byte) (bytes : List Byte) :
    lineBits j (e :: bytes) = e.getLsbD (4 + j) :: e.getLsbD j :: lineBits j bytes := by
  simp [lineBits, busCycles, hj]

/-- The eight cycles of a raw byte carry its bits on `IO0` (R75). -/
theorem lineBits_zero_enc4 (b : Byte) : lineBits 0 (enc4 b) = bitsMsbFirst b := by
  simp only [enc4, lineBits_cons (show 0 < 4 by decide), getLsbD_encPair]
  rfl

/-- On the other three lines they carry nothing (R75). -/
theorem lineBits_enc4_of_pos {j : Nat} (hpos : 0 < j) (hj : j < 4) (b : Byte) :
    lineBits j (enc4 b) = List.replicate 8 false := by
  have hhigh : ∀ k, (encPair b k).getLsbD (4 + j) = false := fun k => by
    rw [getLsbD_encPair, if_neg (by omega), if_neg (by omega)]
  have hlow : ∀ k, (encPair b k).getLsbD j = false := fun k => by
    rw [getLsbD_encPair, if_neg (by omega), if_neg (by omega)]
  simp only [enc4, lineBits_cons hj, hhigh, hlow]
  rfl

/-- Settles O17: line by line, over the raw bytes of the frame. -/
theorem narrowFrameDrivesOneLine : Obligations.NarrowFrameDrivesOneLine := by
  intro a payload
  rw [narrowFrame_eq_flatMap]
  refine ⟨?_, fun j hj => ?_⟩
  · simp only [lineBits_flatMap, lineBits_zero_enc4]
  · have hpos : 0 < j := by omega
    have hlt : j < 4 := by omega
    simp only [lineBits_flatMap, lineBits_enc4_of_pos hpos hlt]
    rw [List.flatMap_def, List.map_const', List.flatten_replicate_replicate, List.length_cons, Nat.mul_comm]

end Sys2Proof.Machine

/-! # The pin and channel maps (spec/40_addressing.md) -/

namespace Sys2Proof.Machine

/-- Every physical index is the index of the pin that `pin_of` gives (R105). -/
theorem exists_pinOf_eq_some {b : Board} (h : b.admissible) (v : Variant) (i : Fin 16) :
    ∃ p, pinOf b v i = some p ∧ idx b v p = i := by
  obtain ⟨p, rfl⟩ := idx_surjective h v i
  exact ⟨p, pinOf_idx h v p, rfl⟩

/-- The physical index of a channel's latch pin leads back to the channel (R105). -/
theorem pinOf_idx_latchPin_bind_chanOf {b : Board} (h : b.admissible) (v : Variant) (c : Channel) :
    (pinOf b v (idx b v (latchPin c))).bind chanOf = some c := by
  rw [pinOf_idx h, Option.bind_some, chanOf_latchPin]

/-- Settles O14: an admissible board's `idx` is a bijection, and `chan_of` is defined on the latch pins alone. -/
theorem addressMapsRoundTrip : Obligations.AddressMapsRoundTrip := by
  intro b v hb
  refine ⟨pinOf_idx hb v, exists_pinOf_eq_some hb v, chanOf_latchPin, fun p => chanOf_eq_none, fun c => ?_⟩
  rw [pinOf_idx_latchPin_bind_chanOf hb, Option.map_some]

end Sys2Proof.Machine

/-! # The expander's commands and INIT's detection (spec/41_gpio_expander.md) -/

namespace Sys2Proof.Machine

/-! ## A pin command is the write of its pin -/

section
variable {s : State} {v : Variant} {p : GpioPin}

/-- An accepted GPIO_SET_LEVEL is the write of its pin's latch, and then its answer (R112, R116). -/
theorem exec_gpioSetLevel_eq {l : Level} (ha : s.Accepting) (hv : s.blk.variant = some v) :
    exec (.gpioSetLevel p l) s = .next ((pinLevel v p l s.accept).bind fun _ s => .done [] s).finish := by
  rw [exec_gpioSetLevel, inPhase_accepts ha.1 ha.2, withVariant_some (by simpa using hv)]

/-- An accepted GPIO_SET_DIRECTION is the write of its pin's direction, and then its answer (R111, R116). -/
theorem exec_gpioSetDirection_eq {x : Dir} (ha : s.Accepting) (hv : s.blk.variant = some v) :
    exec (.gpioSetDirection p x) s = .next ((pinDir v p x s.accept).bind fun _ s => .done [] s).finish := by
  rw [exec_gpioSetDirection, inPhase_accepts ha.1 ha.2, withVariant_some (by simpa using hv)]

end

/-- The answer of a command that has written no block register but `STEP` leaves an idle block's registers as they were. -/
theorem respond_blk_of_idle {s t : State} (h0 : s.blk.stepIx = 0) (h : ∃ n, t.blk = { s.blk with stepIx := n })
    (r : List Byte) : (t.respond r).blk = s.blk := by
  obtain ⟨n, hn⟩ := h
  rw [respond_blk, hn]
  exact blk_idle h0

/-- Settles O28: the write completes, and a write of a latch touches no other pin register. -/
theorem setLevelWritesOnePin : Obligations.SetLevelWritesOnePin := by
  intro s v p l ha hv hok
  obtain ⟨t, ht, hran, hdev, hxdir, hxlat, hq⟩ := pinLevel_ok (s := s.accept) (p := p) (l := l) hv.2 (hok 0 Nat.one_pos)
  have hbusy : t.dev.qbusy = false := by rw [hdev]; rfl
  refine ⟨t.respond [0x00], ?_, respond_blk_of_idle ha.1 ⟨_, hran.blk⟩ _, hran.board, hxlat, hxdir, hbusy, hq, ?_⟩
  · rw [exec_gpioSetLevel_eq ha hv.1, ht]
    rfl
  · rw [respond_io, hran.io]
    rfl

/-- Settles O29: the write completes, and a write of a direction touches no other pin register. -/
theorem setDirectionWritesOnePin : Obligations.SetDirectionWritesOnePin := by
  intro s v p x ha hv hok
  obtain ⟨t, ht, hran, hdev, hxdir, hxlat, hq⟩ := pinDir_ok (s := s.accept) (p := p) (x := x) hv.2 (hok 0 Nat.one_pos)
  have hbusy : t.dev.qbusy = false := by rw [hdev]; rfl
  refine ⟨t.respond [0x00], ?_, respond_blk_of_idle ha.1 ⟨_, hran.blk⟩ _, hran.board, hxdir, hxlat, hbusy, hq, ?_⟩
  · rw [exec_gpioSetDirection_eq ha hv.1, ht]
    rfl
  · rw [respond_io, hran.io]
    rfl

/-! ## A pin's write on the fitted chip, however it ends (R58, R117) -/

/-- From `s` to `t` one transaction has been issued, the event `e`; the block has not moved and nothing has been answered. -/
structure IssuedOnce (e : BusEvent) (s t : State) : Prop where
  blk : t.blk = s.blk
  responses : t.io.responses = s.io.responses
  trace : t.io.trace = s.io.trace ++ [e]

section
variable {s : State} {v : Variant} {p : GpioPin} (hf : s.board.fitted = some v)
include hf

/-- A write of a latch leaves the old or the new level in it, and every other pin register. -/
theorem pinLevel_eq_settle (l : Level) :
    ∃ t, pinLevel v p l s = settle (s.upcoming 0).outcome .i2c [] () t ∧
      IssuedOnce (.expLevel v (idx s.board v p) l (s.upcoming 0).outcome) s t ∧ t.dev.xdir = s.dev.xdir ∧
      (t.dev.xlat = s.dev.xlat ∨ t.dev.xlat = s.dev.xlat.set (idx s.board v p) l) := by
  simp only [pinLevel, expLevel, chipAnswer_fitted hf]
  refine ⟨_, rfl, ⟨rfl, rfl, rfl⟩, ?_⟩
  obtain ⟨hxdir, hxlat, -⟩ := driveLevel_frame s.board (s.upcoming 0) s.trusted v (idx s.board v p) l s.dev
  simp only [record_dev, withDev_dev, settleDevices]
  obtain e | e := afterExpander_cases s.board v (s.upcoming 0).outcome (s.upcoming 0) s.dev
    (driveLevel s.board (s.upcoming 0) s.trusted v (idx s.board v p) l s.dev)
  all_goals rw [e]
  · exact ⟨rfl, .inl rfl⟩
  · exact ⟨hxdir, .inr hxlat⟩

/-- A write of a direction leaves the old or the new one in it, and every other pin register. -/
theorem pinDir_eq_settle (x : Dir) :
    ∃ t, pinDir v p x s = settle (s.upcoming 0).outcome .i2c [] () t ∧
      IssuedOnce (.expDir v (idx s.board v p) x (s.upcoming 0).outcome) s t ∧ t.dev.xlat = s.dev.xlat ∧
      (t.dev.xdir = s.dev.xdir ∨ t.dev.xdir = s.dev.xdir.set (idx s.board v p) x) := by
  simp only [pinDir, expDir, chipAnswer_fitted hf]
  refine ⟨_, rfl, ⟨rfl, rfl, rfl⟩, ?_⟩
  obtain ⟨hxdir, hxlat, -⟩ := driveDir_frame s.board (s.upcoming 0) s.trusted v (idx s.board v p) x s.dev
  simp only [record_dev, withDev_dev, settleDevices]
  obtain e | e := afterExpander_cases s.board v (s.upcoming 0).outcome (s.upcoming 0) s.dev
    (driveDir s.board (s.upcoming 0) s.trusted v (idx s.board v p) x s.dev)
  all_goals rw [e]
  · exact ⟨rfl, .inl rfl⟩
  · exact ⟨hxlat, .inr hxdir⟩

end

/-- Settles O34: the write was made or not, and its outcome alone decides between the answer `I2c` and none. -/
theorem gpioErrorLeavesOldOrNewElement : Obligations.GpioErrorLeavesOldOrNewElement := by
  intro s v p l x ha hv
  obtain ⟨t, ht, hiss, hxdir, hxlat⟩ := pinLevel_eq_settle (s := s.accept) (p := p) hv.2 l
  obtain ⟨u, hu, hiss', hxlat', hxdir'⟩ := pinDir_eq_settle (s := s.accept) (p := p) hv.2 x
  rw [exec_gpioSetLevel_eq ha hv.1, exec_gpioSetDirection_eq ha hv.1, ht, hu]
  simp only [upcoming_accept] at hiss hiss' ⊢
  have idle : ∀ {w : State} (r : List Byte), w.blk = s.accept.blk → (w.respond r).blk = s.blk :=
    fun r hw => respond_blk_of_idle ha.1 ⟨_, hw⟩ r
  refine ⟨fun hr => ?_, fun hr => ?_⟩
  all_goals rw [hr] at hiss hiss' ⊢
  · exact ⟨⟨t.respond [0x02], rfl, congrArg (· ++ _) hiss.responses, hiss.trace, idle _ hiss.blk, hxdir, hxlat⟩,
      u.respond [0x02], rfl, congrArg (· ++ _) hiss'.responses, hiss'.trace, idle _ hiss'.blk, hxlat', hxdir'⟩
  · exact ⟨⟨t, rfl, hiss.responses, hiss.trace, hiss.blk, hxdir, hxlat⟩,
      u, rfl, hiss'.responses, hiss'.trace, hiss'.blk, hxlat', hxdir'⟩

end Sys2Proof.Machine

namespace Sys2Proof.Machine

/-! ## A transaction with the chip that is not fitted (R114, R115) -/

/-- A transaction never completes exactly when the environment answers so, fitted chip or not. -/
theorem chipAnswer_stalled {b : Board} {v : Variant} {r : BusOutcome} : chipAnswer b v r = .stalled ↔ r = .stalled := by
  unfold chipAnswer
  split
  · rfl
  · cases r <;> simp

/-- A transaction with a chip that is not there fails, unless it never completes (R114, R115; log 8). -/
theorem chipAnswer_absent {b : Board} {v : Variant} {r : BusOutcome} (hf : b.fitted ≠ some v) (hr : r ≠ .stalled) :
    chipAnswer b v r = .error := by
  cases r with
  | ok => simp [chipAnswer, hf]
  | error => simp [chipAnswer, hf]
  | stalled => exact absurd rfl hr

@[simp] theorem chipAnswer_error (b : Board) (v : Variant) : chipAnswer b v .error = .error := by
  unfold chipAnswer
  split <;> rfl

/-! ## Detection (R113, R114, R115) -/

/-- How the probe of Variant A ends (R114; log 8). -/
def State.probeOutcome (s : State) : BusOutcome := chipAnswer s.board .a (s.upcoming 0).outcome

/-- The state in which the probe of Variant A has ended, its micro-step not yet done. -/
def State.probed (s : State) : State :=
  ((s.drawn 1).withDev
    (settleDevices s.probeOutcome (s.upcoming 0) (afterProbe s.board .a s.probeOutcome (s.upcoming 0) s.dev))).record
    (.expProbe .a s.probeOutcome)

/-- The variant that detection takes after a probe that has completed (R113, R115). -/
def variantAfter (r : BusOutcome) : Variant := if r = .ok then .a else .b

section
variable (s : State)

@[simp] theorem probed_blk : s.probed.blk = s.blk := rfl
@[simp] theorem probed_board : s.probed.board = s.board := rfl
@[simp] theorem probed_io : s.probed.io = { s.io with
    env := s.io.env.drop 1
    draws := s.io.draws + 1
    trace := s.io.trace ++ [.expProbe .a s.probeOutcome] } := rfl
@[simp] theorem upcoming_probed (k : Nat) : s.probed.upcoming k = s.upcoming (1 + k) := by simp [State.probed]
@[simp] theorem probeOutcome_accept : s.accept.probeOutcome = s.probeOutcome := rfl

end

/-- The devices after a probe of a chip that is not fitted (log 31). -/
theorem probed_dev_of_absent {s : State} (h : s.board.fitted ≠ some .a) :
    s.probed.dev = settleDevices s.probeOutcome (s.upcoming 0) s.dev := by
  simp [State.probed, afterProbe_absent h]

section
variable {s : State}

/-- A probe that completes lets detection choose, and choose by its outcome alone. -/
theorem expDetect_of_completed (h : s.probeOutcome ≠ .stalled) :
    expDetect s = .done (variantAfter s.probeOutcome) (s.probed.advance.setVariant (variantAfter s.probeOutcome)) := by
  simp only [expDetect, expProbe, State.probed]
  unfold State.probeOutcome at h ⊢
  cases hr : chipAnswer s.board .a (s.upcoming 0).outcome with
  | ok => rfl
  | error => rfl
  | stalled => exact absurd hr h

/-- A probe that never completes leaves detection there (R190). -/
theorem expDetect_of_stalled (h : s.probeOutcome = .stalled) : expDetect s = .stalled s.probed := by
  simp only [expDetect, expProbe, State.probed]
  unfold State.probeOutcome at h ⊢
  rw [h]
  rfl

end

/-! ## INIT's writes as far as they are made (R166, R173) -/

/-- `rest` is what is made of the writes `evs` by a sequence that stops at the first that is not ok; the last one made ended
`r`. -/
structure MadeUpTo (r : BusOutcome) (evs rest : List BusEvent) : Prop where
  wanted : rest.map BusEvent.asCompleted <+: evs
  earlier : ∀ e ∈ rest.dropLast, e.outcome = some .ok
  last : ∃ e, rest.getLast? = some e ∧ e.outcome = some r
  all : rest = evs ↔ r = .ok

/-- An expander write that has completed ok. -/
def BusEvent.Completed (e : BusEvent) : Prop := e.asCompleted = e ∧ e.outcome = some .ok

/-- The state a flow has reached. -/
def Flow.state {α : Type} : Flow α → State
  | .done _ s => s
  | .raised _ _ s => s
  | .stalled s => s

/-- How the transaction that ended a flow has ended: ok if it has run to its end. -/
def Flow.lastOutcome {α : Type} : Flow α → BusOutcome
  | .done _ _ => .ok
  | .raised _ _ _ => .error
  | .stalled _ => .stalled

section
variable {evs : List BusEvent} (hc : ∀ e ∈ evs, e.Completed)
include hc

theorem map_asCompleted_of_completed : evs.map BusEvent.asCompleted = evs :=
  (List.map_congr_left fun e he => (hc e he).1).trans (List.map_id' evs)

/-- All of them, when each has completed. -/
theorem madeUpTo_ok (hne : evs ≠ []) : MadeUpTo .ok evs evs where
  wanted := by rw [map_asCompleted_of_completed hc]
  earlier e he := (hc e (List.dropLast_subset _ he)).2
  last := ⟨evs.getLast hne, List.getLast?_eq_some_getLast hne, (hc _ (List.getLast_mem hne)).2⟩
  all := iff_of_true rfl rfl

/-- A first part of them, when the last of it has not. -/
theorem CutShort.madeUpTo {r : BusOutcome} (hr : r ≠ .ok) {s t : State} (h : CutShort r evs s t) :
    ∃ rest, t.io.trace = s.io.trace ++ rest ∧ MadeUpTo r evs rest := by
  obtain ⟨made, e, htrace, hpre, he⟩ := h
  have hmade : ∀ f ∈ made, f.Completed := fun f hf => hc f (hpre.subset (List.mem_append_left _ hf))
  refine ⟨made ++ [e], htrace, ?_, ?_, ⟨e, by simp, he⟩, iff_of_false ?_ hr⟩
  · rw [List.map_append, map_asCompleted_of_completed hmade]
    exact hpre
  · rw [List.dropLast_concat]
    exact fun f hf => (hmade f hf).2
  · rintro rfl
    have hok := (hc e (by simp)).2
    exact hr (Option.some.inj (he.symm.trans hok))

/-- What a sequence of writes has made of them tells how it ended. -/
theorem Flow.Writes.madeUpTo {α : Type} (hne : evs ≠ []) {f : Flow α} {s : State} (hf : f.Writes evs s) :
    ∃ rest, f.state.io.trace = s.io.trace ++ rest ∧ f.state.blk.variant = s.blk.variant ∧
      MadeUpTo f.lastOutcome evs rest := by
  cases f with
  | done a t =>
    obtain ⟨-, hv, htrace⟩ := hf
    exact ⟨evs, htrace, hv, madeUpTo_ok hc hne⟩
  | raised k info t =>
    obtain ⟨-, hv, hcut⟩ := hf
    obtain ⟨rest, htrace, hmade⟩ := hcut.madeUpTo hc (r := .error) nofun
    exact ⟨rest, htrace, hv, hmade⟩
  | stalled t =>
    obtain ⟨-, hv, hcut⟩ := hf
    obtain ⟨rest, htrace, hmade⟩ := hcut.madeUpTo hc (r := .stalled) nofun
    exact ⟨rest, htrace, hv, hmade⟩

end

theorem initWrites_completed (b : Board) (v : Variant) : ∀ e ∈ initWrites b v, e.Completed := by
  intro e he
  obtain he | he := List.mem_append.1 he
  · obtain ⟨p, -, he⟩ := List.mem_flatMap.1 he
    simp only [List.mem_cons, List.not_mem_nil, or_false] at he
    obtain rfl | rfl := he
    all_goals exact ⟨rfl, rfl⟩
  · simp only [List.mem_cons, List.not_mem_nil, or_false] at he
    obtain rfl | rfl | rfl | rfl := he
    all_goals exact ⟨rfl, rfl⟩

/-- The first of them is the latch of the first pin (R166). -/
theorem initWrites_eq_cons (b : Board) (v : Variant) :
    initWrites b v = .expLevel v (idx b v .led4Green) .low .ok :: (initWrites b v).tail := rfl

theorem initWrites_ne_nil (b : Board) (v : Variant) : initWrites b v ≠ [] :=
  initWrites_eq_cons b v ▸ List.cons_ne_nil _ _

theorem initPins_writes (v : Variant) (s : State) : (initPins v s).Writes (initWrites s.board v) s :=
  Flow.Writes.bind (pinPhase_writes v allPins s) fun _ _ e =>
    Flow.Writes.bind (evs := [_, _]) (evs' := [_, _]) (e ▸ pinPulse_writes ..) fun _ _ e' =>
      (e'.trans e) ▸ pinPulse_writes ..

/-- What INIT leaves once the last of its writes has ended `r`: success, the error `I2c`, or no answer (R166, R173, R190). -/
def InitEnds (r : BusOutcome) (s t : State) : Prop :=
  match r with
  | .ok => t.io.responses = s.io.responses ++ [[0x00]] ∧ t.blk.phase = .ready
  | .error => t.io.responses = s.io.responses ++ [[0x02]] ∧ t.blk.phase = .failed
  | .stalled => t.io.responses = s.io.responses

/-- INIT's answer to its writes adds nothing to what they have left but `PHASE`, `STEP` and the response. -/
theorem initPins_end {v : Variant} {s t : State}
    (ht : t = (failInit ((initPins v s).bind fun _ s => .done [] (s.setPhase .ready))).finish) :
    t.io.trace = (initPins v s).state.io.trace ∧ t.blk.variant = (initPins v s).state.blk.variant ∧
      InitEnds (initPins v s).lastOutcome s t := by
  have hreach := initPins_reaches v s
  have hraise := initPins_raisesOnly v s
  subst ht
  cases hi : initPins v s with
  | done a u =>
    rw [hi] at hreach
    exact ⟨rfl, rfl, congrArg (· ++ [[0x00]]) hreach.1.responses, rfl⟩
  | raised k info u =>
    rw [hi] at hreach hraise
    obtain ⟨rfl, rfl⟩ := hraise
    exact ⟨rfl, rfl, congrArg (· ++ [[0x02]]) hreach.1.responses, rfl⟩
  | stalled u =>
    rw [hi] at hreach
    exact ⟨rfl, rfl, hreach.1.responses⟩

/-- INIT stops in its probe, or makes the writes of the variant that the probe has selected until one is not ok (R166, R173). -/
theorem exec_init_writes {s t : State} (h : exec .init s = .next t) :
    (s.probeOutcome = .stalled ∧ t = s.accept.probed) ∨
      s.probeOutcome ≠ .stalled ∧ ∃ r rest, t.io.trace = s.io.trace ++ .expProbe .a s.probeOutcome :: rest ∧
        t.blk.variant = some (variantAfter s.probeOutcome) ∧
        MadeUpTo r (initWrites s.board (variantAfter s.probeOutcome)) rest ∧ InitEnds r s t := by
  have ht : t = (failInit (initSteps s.accept)).finish := exec_next_flow h
  rw [initSteps_eq] at ht
  by_cases hp : s.probeOutcome = .stalled
  · rw [expDetect_of_stalled (s := s.accept) hp, bind_stalled] at ht
    exact .inl ⟨hp, ht⟩
  · rw [expDetect_of_completed (s := s.accept) hp, bind_done] at ht
    obtain ⟨htrace, hv, hend⟩ := initPins_end ht
    obtain ⟨rest, hrest, hvariant, hmade⟩ :=
      (initPins_writes _ _).madeUpTo (initWrites_completed _ _) (initWrites_ne_nil _ _)
    exact .inr ⟨hp, _, rest, by rw [htrace, hrest]; simp, hv.trans hvariant, hmade, hend⟩

theorem eq_expLevel_of_asCompleted {e : BusEvent} {v : Variant} {i : Fin 16} {l : Level}
    (h : e.asCompleted = .expLevel v i l .ok) : ∃ r, e = .expLevel v i l r := by
  cases e <;> cases h
  exact ⟨_, rfl⟩

/-- The first write made is the first one wanted, however it ended. -/
theorem MadeUpTo.head {r : BusOutcome} {b : Board} {v : Variant} {rest : List BusEvent}
    (h : MadeUpTo r (initWrites b v) rest) :
    ∃ r' more, rest = .expLevel v (idx b v .led4Green) .low r' :: more := by
  obtain ⟨e, hlast, -⟩ := h.last
  have hpre := h.wanted
  cases rest with
  | nil => cases hlast
  | cons f more =>
    rw [initWrites_eq_cons, List.map_cons, List.cons_prefix_cons] at hpre
    obtain ⟨r', rfl⟩ := eq_expLevel_of_asCompleted hpre.1
    exact ⟨r', more, rfl⟩

/-- Settles O50: the probe ends as the environment answers on a fitted chip and with an error on an absent one, and the first
write is made in either case. -/
theorem probeDecidesTheVariant : Obligations.ProbeDecidesTheVariant := by
  intro s t _ _ h
  have first : ∀ r v, s.probeOutcome = r → r ≠ .stalled → variantAfter r = v →
      t.blk.variant = some v ∧
      ∃ r' rest, t.io.trace = s.io.trace ++ .expProbe .a r :: .expLevel v (idx s.board v .led4Green) .low r' :: rest := by
    rintro r v rfl hr rfl
    obtain ⟨hp, -⟩ | ⟨-, _, _, htrace, hv, hmade, -⟩ := exec_init_writes h
    · exact absurd hp hr
    · obtain ⟨r', more, rfl⟩ := hmade.head
      exact ⟨hv, r', more, htrace⟩
  refine ⟨fun hok => first .ok .a (chipAnswer_ok.2 hok) (by decide) rfl, fun herr => ?_, fun hst => ?_⟩
  · refine first .error .b ?_ (by decide) rfl
    obtain ⟨hf, hr⟩ | hr := herr
    · exact chipAnswer_absent hf hr
    · rw [State.probeOutcome, hr, chipAnswer_error]
  · obtain ⟨hp, rfl⟩ | ⟨hp, -⟩ := exec_init_writes h
    · exact ⟨rfl, rfl, rfl, by simp [hp]⟩
    · exact absurd (chipAnswer_stalled.2 hst) hp

/-! ## A board with no chip (R115, R173) -/

/-- A write to a chip that is not there fails and changes nothing behind the expander (R115; log 8). -/
theorem pinLevel_absent {v : Variant} {p : GpioPin} {l : Level} {s : State} (hf : s.board.fitted ≠ some v)
    (hr : (s.upcoming 0).outcome ≠ .stalled) :
    pinLevel v p l s = .raised .i2c [] (((s.drawn 1).withDev (settleDevices .error (s.upcoming 0) s.dev)).record
      (.expLevel v (idx s.board v p) l .error)) := by
  simp [pinLevel, expLevel, chipAnswer_absent hf hr, afterExpander, hf, settle]

/-- INIT's writes stop at the first if it fails (R173). -/
theorem initPins_raised {v : Variant} {k : ErrorKind} {info : List Byte} {s t : State}
    (h : pinLevel v .led4Green .low s = .raised k info t) : initPins v s = .raised k info t := by
  simp only [initPins, allPins, pinPhase, pinLowOut, h, bind_raised]

theorem failInit_raised (k : ErrorKind) (info : List Byte) (s : State) :
    failInit (.raised k info s) = .raised k info (s.setPhase .failed) := rfl

/-- Settles O51: the probe fails, Variant B is taken, and its first write fails too. -/
theorem initWithoutAChipFails : Obligations.InitWithoutAChipFails := by
  intro s h0 hp hf hr0 hr1
  have habsent : ∀ v, s.board.fitted ≠ some v := by simp [hf]
  have hprobe : s.accept.probeOutcome = .error := chipAnswer_absent (habsent .a) hr0
  have hdetect := expDetect_of_completed (s := s.accept) (by simp [hprobe])
  have hpins := initPins_raised (pinLevel_absent (v := .b) (p := .led4Green) (l := .low)
    (s := s.accept.probed.advance.setVariant .b) (habsent .b) (by simpa using hr1))
  rw [hprobe, show variantAfter .error = .b from rfl] at hdetect
  refine ⟨streamedChip (s.upcoming 1) (settleDevices .error (s.upcoming 0) s.dev), fun hn => ?_, ?_⟩
  · exact (streamedChip_of_not (d := settleDevices .error (s.upcoming 0) s.dev) hn).trans (streamedChip_of_not hn)
  · rw [exec_init, inPhase_accepts h0 hp, initSteps_eq, hdetect, bind_done, hpins, bind_raised,
      failInit_raised, finish_raised]
    refine congrArg _ (State.eq_of_parts ?_ ?_ rfl ?_)
    · exact congrArg (fun b : Block => { b with phase := .failed, variant := some .b }) (blk_idle h0)
    · simp [probed_dev_of_absent (s := s.accept) (habsent .a), hprobe, settleDevices]
    · simp [hprobe, errorResponse, errorCode]

/-! ## The expander writes of every command (R116) -/

/-- What an ATT_SET of channel `c` may issue: transfers, and level writes of the channel's latch pin (R150, R153). -/
def latchesOnly (b : Board) (v : Variant) (c : Channel) : BusEvent → Prop
  | .spiXfer .. => True
  | .expLevel w k _ _ => w = v ∧ k = idx b v (latchPin c)
  | _ => False

/-- From `s` to `t` the board is the same and only such primitives have been issued. -/
def Latches (v : Variant) (c : Channel) (s t : State) : Prop :=
  t.board = s.board ∧ Issues (latchesOnly s.board v c) s t

theorem settle_latches {α : Type} {v : Variant} {c : Channel} {s t u : State} {e : BusEvent} {r : BusOutcome} {k : ErrorKind}
    {info : List Byte} {a : α} (ht : Latches v c s t) (hb : u.board = t.board) (hu : u.io.trace = t.io.trace ++ [e])
    (he : latchesOnly t.board v c e) : (settle r k info a u).All (Latches v c s) :=
  settle_all ⟨hb.trans ht.1, ht.2.trans (.one hu (ht.1 ▸ he))⟩ fun _ h => h

/-- Two transfers, then the two writes of the pulse on the latch pin (R150). -/
theorem attSetSteps_latches (v : Variant) (c : Channel) (code : Nat) (s : State) :
    (attSetSteps v c code s).All (Latches v c s) := by
  have xfer : ∀ w t, Latches v c s t → (attXfer w t).All (Latches v c s) := fun _ _ ht =>
    settle_latches ht rfl rfl trivial
  have write : ∀ l t, Latches v c s t → (pinLevel v (latchPin c) l t).All (Latches v c s) := fun _ _ ht =>
    settle_latches ht rfl rfl ⟨rfl, rfl⟩
  refine .bind_same (xfer _ s ⟨rfl, .none rfl⟩) fun rx t ht => .bind_same (xfer _ _ ht) fun _ t ht => ?_
  exact .bind_same (.bind_same (write _ t ht) fun _ t ht => write _ t ht) fun _ _ ht => ht

theorem exec_attSet_latches {s t : State} {v : Variant} {c : Channel} {x : BitVec 32} (hv : s.blk.variant = some v)
    (h : exec (.attSet c x) s = .next t) : Issues (latchesOnly s.board v c) s t := by
  rw [exec_next_flow h]
  simp only [commandFlow, accept_blk, hv, Option.getD_some]
  split
  · exact ((attSetSteps_latches v c (attCode x) s.accept).finish fun _ _ hu => hu).2
  · exact .none rfl

/-- What holds of the state a write has left, and is no matter of the answer, holds after the answer. -/
theorem Flow.All.answered {α : Type} {P : State → Prop} {f : Flow α} (hf : f.All P) (h : ∀ s r, P s → P (s.respond r)) :
    P (f.bind fun _ s => .done [] s).finish :=
  (hf.bind_same (g := fun _ s => .done [] s) fun _ _ hs => hs).finish h

/-- INIT's three endings answer differently, so its answer tells how its last write ended. -/
theorem InitEnds.iff {r : BusOutcome} {s t : State} (h : InitEnds r s t) :
    (r = .error ↔ t.io.responses = s.io.responses ++ [[0x02]] ∧ t.blk.phase = .failed) ∧
      (r = .stalled ↔ t.io.responses = s.io.responses) ∧
      (r = .ok ↔ t.io.responses = s.io.responses ++ [[0x00]] ∧ t.blk.phase = .ready) := by
  cases r with
  | ok =>
    obtain ⟨hresponses, hphase⟩ := h
    simp [hresponses, hphase]
  | error =>
    obtain ⟨hresponses, hphase⟩ := h
    simp [hresponses, hphase]
  | stalled =>
    have hresponses : t.io.responses = s.io.responses := h
    simp [hresponses]

theorem MadeUpTo.last_iff {r r' : BusOutcome} {evs rest : List BusEvent} (h : MadeUpTo r evs rest) :
    (∃ e, rest.getLast? = some e ∧ e.outcome = some r') ↔ r = r' := by
  obtain ⟨e, he, hr⟩ := h.last
  simp [he, hr]

/-- Only the pin commands, ATT_SET and INIT write to the expander (R116). -/
theorem not_expander_of_mayIssue {i : Instr} (hl : ∀ p l, i ≠ .gpioSetLevel p l) (hx : ∀ p x, i ≠ .gpioSetDirection p x)
    (hset : ∀ c y, i ≠ .attSet c y) (w : Variant) (k : Fin 16) :
    (∀ l r, ¬mayIssue i (.expLevel w k l r)) ∧ ∀ x r, ¬mayIssue i (.expDir w k x r) := by
  cases i with
  | gpioSetLevel p l => exact absurd rfl (hl p l)
  | gpioSetDirection p x => exact absurd rfl (hx p x)
  | attSet c y => exact absurd rfl (hset c y)
  | _ => exact ⟨fun _ _ h => h, fun _ _ h => h⟩

/-- Settles O36: a pin command is one write, ATT_SET issues nothing on another pin, and INIT's writes are as far made as its
answer tells. -/
theorem expanderWritesNameTheSelectedVariant : Obligations.ExpanderWritesNameTheSelectedVariant := by
  refine ⟨fun s t v p l hv h => ?_, fun s t v p x hv h => ?_, fun s t v c y hv h => ?_, fun s t h => ?_,
    fun i s t h hi hl hx hset => ?_⟩
  · rw [exec_next_flow h]
    simp only [commandFlow, accept_blk, hv, Option.getD_some]
    have hwrite : (pinLevel v p l s.accept).All fun t =>
        ∃ r, t.io.trace = s.io.trace ++ [.expLevel v (idx s.board v p) l r] := settle_all ⟨_, rfl⟩ fun _ h => h
    exact hwrite.answered fun _ _ h => h
  · rw [exec_next_flow h]
    simp only [commandFlow, accept_blk, hv, Option.getD_some]
    have hwrite : (pinDir v p x s.accept).All fun t =>
        ∃ r, t.io.trace = s.io.trace ++ [.expDir v (idx s.board v p) x r] := settle_all ⟨_, rfl⟩ fun _ h => h
    exact hwrite.answered fun _ _ h => h
  · obtain ⟨added, htrace, hadded⟩ := exec_attSet_latches hv h
    exact ⟨added, htrace, fun w k l r he => hadded _ he, fun w k x r he => hadded _ he⟩
  · obtain ⟨hp, rfl⟩ | ⟨hp, r, rest, htrace, hv, hmade, hend⟩ := exec_init_writes h
    · exact ⟨.stalled, [], by simp [hp], fun _ => ⟨rfl, rfl⟩, fun hne => absurd rfl hne⟩
    · obtain ⟨herror, hstalled, hok⟩ := hend.iff
      exact ⟨_, rest, htrace, fun he => absurd he hp, fun _ => ⟨_, hv, hmade.wanted, hmade.earlier,
        hmade.last_iff.trans herror, hmade.last_iff.trans hstalled, hmade.all.trans hok⟩⟩
  · obtain ⟨added, htrace, hadded⟩ := exec_next_issues hi h
    refine ⟨added, htrace, fun w k => ?_⟩
    obtain ⟨hlevel, hdir⟩ := not_expander_of_mayIssue hl hx hset w k
    exact ⟨fun l r he => hlevel l r (hadded _ he), fun x r he => hdir x r (hadded _ he)⟩

end Sys2Proof.Machine

/-! # The DDS encoder's commands (spec/42_dds_encoder.md) -/

namespace Sys2Proof.Machine

/-! ## The checks of a DDS command (R127, R137) -/

/-- `s` with one response more. -/
def State.answered (s : State) (r : List Byte) : State :=
  { s with io := { s.io with responses := s.io.responses ++ [r] } }

section
variable {s : State} {addr : Byte} {payload : List Byte} {n : Nat}

/-- An accepted DDS_WRITE: each check that fails answers at once, and the transaction comes last (R127, R128). -/
theorem exec_ddsWrite_eq (ha : s.Accepting) :
    exec (.ddsWrite addr payload) s =
      if addressIllegal addr then .next (s.answered [0x05])
      else if s.blk.streaming then .next (s.answered [0x08])
      else if s.blk.mode = .narrowCompat ∧ narrowMaxPayload < payload.length then .next (s.answered [0x04])
      else .next ((ddsTransmit addr payload s.accept).bind fun _ s => .done [] s).finish := by
  rw [exec_ddsWrite, inPhase_accepts ha.1 ha.2]
  simp only [raise_eq, respond_accept ha.1]
  rfl

/-- An accepted DDS_READ, likewise, with the refusal while streaming (R127, R135, R137). -/
theorem exec_ddsRead_eq (ha : s.Accepting) :
    exec (.ddsRead addr n) s =
      if addressIllegal addr then .next (s.answered [0x05])
      else if s.blk.mode ≠ .native then .next (s.answered [0x08])
      else if s.blk.streaming then .refused .readWhileStreaming
      else .next (qspiRead (readAddress addr) n s.accept).finish := by
  rw [exec_ddsRead, inPhase_accepts ha.1 ha.2]
  simp only [raise_eq, respond_accept ha.1]
  rfl

theorem not_addressIllegal (h : addr.getLsbD 7 = false) : ¬addressIllegal addr = true := Bool.eq_false_iff.1 h

/-- A DDS_WRITE whose checks have passed is its transaction, and then its answer (R128). -/
theorem exec_ddsWrite_of_checked (ha : s.Accepting) (hlegal : addr.getLsbD 7 = false) (hs : s.blk.streaming = false)
    (hfits : s.blk.mode = .narrowCompat → payload.length ≤ 2) :
    exec (.ddsWrite addr payload) s =
      .next ((ddsTransmit addr payload s.accept).bind fun _ s => .done [] s).finish := by
  have hfits : ¬(s.blk.mode = .narrowCompat ∧ narrowMaxPayload < payload.length) :=
    fun ⟨hm, hlt⟩ => Nat.not_lt.2 (hfits hm) hlt
  rw [exec_ddsWrite_eq ha, if_neg (not_addressIllegal hlegal), if_neg (Bool.eq_false_iff.1 hs), if_neg hfits]

/-- A DDS_READ whose checks have passed is its transaction (R135). -/
theorem exec_ddsRead_of_checked (ha : s.Accepting) (hlegal : addr.getLsbD 7 = false) (hs : s.blk.streaming = false)
    (hm : s.blk.mode = .native) :
    exec (.ddsRead addr n) s = .next (qspiRead (readAddress addr) n s.accept).finish := by
  rw [exec_ddsRead_eq ha, if_neg (not_addressIllegal hlegal), if_neg (not_not.2 hm), if_neg (Bool.eq_false_iff.1 hs)]

end

/-- Settles O18: the one micro-step writes `MODE`, and the answer brings `STEP` back to 0. -/
theorem configureModeWritesModeOnly : Obligations.ConfigureModeWritesModeOnly := by
  intro s m ha
  rw [exec_ddsConfigureMode, inPhase_accepts ha.1 ha.2]
  exact congrArg _ (State.eq_of_parts (congrArg (fun b : Block => { b with mode := m }) (blk_idle ha.1)) rfl rfl rfl)

/-- Settles O19: the checks come in the order of the equations, and each that fails answers at once. -/
theorem ddsChecksInOrder : Obligations.DdsChecksInOrder := by
  intro s addr payload n ha answer
  refine ⟨fun h => ⟨?_, ?_⟩, fun h hs => ?_, fun h hm => ?_, fun h hs hm hlen => ?_⟩
  · exact (exec_ddsWrite_eq ha).trans (if_pos h)
  · exact (exec_ddsRead_eq ha).trans (if_pos h)
  · rw [exec_ddsWrite_eq ha, if_neg (not_addressIllegal h), if_pos hs]
    rfl
  · rw [exec_ddsRead_eq ha, if_neg (not_addressIllegal h), if_pos hm]
    rfl
  · rw [exec_ddsWrite_eq ha, if_neg (not_addressIllegal h), if_neg (Bool.eq_false_iff.1 hs), if_pos ⟨hm, hlen⟩]
    rfl

/-- Settles O20: both checks before the refusal pass. -/
theorem readWhileStreamingIsRefused : Obligations.ReadWhileStreamingIsRefused := by
  intro s addr n ha hlegal hm hs
  rw [exec_ddsRead_eq ha, if_neg (not_addressIllegal hlegal), if_neg (not_not.2 hm), if_pos hs]

/-! ## A DDS transfer that ends (R58, R91) -/

/-- What a DDS transfer leaves that has ended, ok or with an error, and has been answered `r`: its one event in the trace,
and of the devices nothing changed but the DDS chip and `QBUSY` (R39, R40). -/
def State.transferred (s : State) (e : BusEvent) (r : List Byte) : State :=
  { s with
    dev := { s.dev with qbusy := false, ddsChip := (s.upcoming 0).chip }
    io := { s.io with
      env := s.io.env.drop 1
      draws := s.io.draws + 1
      trace := s.io.trace ++ [e]
      responses := s.io.responses ++ [r] } }

/-- The state right after a transaction has ended with an error, its micro-step not done. -/
def State.failed (s : State) (e : BusEvent) (d : Devices) : State :=
  ((s.drawn 1).withDev (settleDevices .error (s.upcoming 0) d)).record e

theorem qspiWrite_error {a : Byte} {payload : List Byte} {s : State} (h : (s.upcoming 0).outcome = .error) :
    qspiWrite a payload s =
      .raised .qspi [(s.upcoming 0).driver]
        (s.failed (.qspiWrite a payload .error) { s.dev with ddsChip := (s.upcoming 0).chip }) := by
  simp [qspiWrite, h, settle, State.failed]

theorem qspiRead_error {a : Byte} {n : Nat} {s : State} (h : (s.upcoming 0).outcome = .error) :
    qspiRead a n s =
      .raised .qspi [(s.upcoming 0).driver]
        (s.failed (.qspiRead a n .error []) { s.dev with ddsChip := (s.upcoming 0).chip }) := by
  simp [qspiRead, h, settle, State.failed]

section
variable {s : State} (h0 : s.blk.stepIx = 0)
include h0

/-- Once answered, a DDS transfer that has completed and one that has failed leave the same: `STEP` alone was different. -/
theorem respond_completed_eq_transferred (e : BusEvent) (r : List Byte) :
    (s.accept.completed e { s.dev with ddsChip := (s.upcoming 0).chip }).respond r = s.transferred e r := by
  refine State.eq_of_parts (blk_idle h0) ?_ rfl rfl
  rw [respond_dev, completed_dev, upcoming_accept, streamedChip_drawn]
  rfl

theorem respond_failed_eq_transferred (e : BusEvent) (r : List Byte) :
    (s.accept.failed e { s.dev with ddsChip := (s.upcoming 0).chip }).respond r = s.transferred e r := by
  refine State.eq_of_parts (blk_idle h0) ?_ rfl rfl
  rw [respond_dev, State.failed, record_dev, withDev_dev, settleDevices, upcoming_accept, streamedChip_drawn]
  rfl

end

/-- The one transaction of a narrow DDS_WRITE that fits sends the frame; only one that completes writes `ENC` (R74, R128). -/
theorem narrowWrite_of_fits {addr : Byte} {payload : List Byte} (h : payload.length ≤ 2) (s : State) :
    ∃ first rest, narrowFrame addr payload = first :: rest ∧
      narrowWrite addr payload s = (qspiWrite first rest s).bind fun _ t =>
        .done () (t.setEnc (writeEnc s.blk.enc (narrowFrame addr payload))) := by
  obtain ⟨first, rest, hread, hwrite⟩ := narrowWrite_eq addr payload s
  have hlen := length_narrowFrame addr payload
  rw [← hlen, readEnc_writeEnc _ _ (by omega)] at hread
  exact ⟨first, rest, hread, hwrite⟩

section
variable {s : State} {addr : Byte} {payload : List Byte}

theorem ddsTransmit_native (hm : s.blk.mode = .native) : ddsTransmit addr payload s = qspiWrite addr payload s := by
  simp only [ddsTransmit, hm]

theorem ddsTransmit_narrow (hm : s.blk.mode = .narrowCompat) :
    ddsTransmit addr payload s = narrowWrite addr payload s := by
  simp only [ddsTransmit, hm]

end

/-- Settles O21: the one transaction completes, and the command answers. -/
theorem nativeWritePassesThrough : Obligations.NativeWritePassesThrough := by
  intro s addr payload ha hm hs hlegal hok
  rw [exec_ddsWrite_of_checked ha hlegal hs (by simp [hm]), ddsTransmit_native (s := s.accept) hm,
    qspiWrite_ok (s := s.accept) (hok 0 Nat.one_pos)]
  exact congrArg _ (respond_completed_eq_transferred ha.1 _ _)

/-- Settles O22: `ENC` is read back as the frame that was laid over it, and the rest of `ENC` is kept. -/
theorem narrowWriteSendsTheFrame : Obligations.NarrowWriteSendsTheFrame := by
  intro s addr payload ha hm hs hlegal hlen hok
  obtain ⟨first, rest, hframe, hwrite⟩ := narrowWrite_of_fits (addr := addr) hlen s.accept
  have hn := length_narrowFrame addr payload
  refine ⟨writeEnc s.blk.enc (narrowFrame addr payload), first, rest, hframe, ?_, ?_, ?_⟩
  · rw [← hn, ← hframe]
    exact readEnc_writeEnc _ _ (by omega)
  · rw [← hn]
    exact writeEnc_drop _ _
  · rw [exec_ddsWrite_of_checked ha hlegal hs fun _ => hlen, ddsTransmit_narrow (s := s.accept) hm, hwrite,
      qspiWrite_ok (s := s.accept) (hok 0 Nat.one_pos)]
    exact congrArg (fun t => Host.Outcome.next (State.setEnc _ t)) (respond_completed_eq_transferred ha.1 _ _)

/-- Settles O23: the bytes are those that the completed read delivers. -/
theorem nativeReadReturnsTheBytes : Obligations.NativeReadReturnsTheBytes := by
  intro s addr n ha hm hs hlegal hok
  refine ⟨readData (s.upcoming 0) s.io.draws n, length_readData _ _ _, ?_⟩
  rw [exec_ddsRead_of_checked ha hlegal hs hm, qspiRead_ok (s := s.accept) (hok 0 Nat.one_pos)]
  exact congrArg _ (respond_completed_eq_transferred ha.1 _ _)

/-- Settles O24: the one transaction raises `Qspi`, and in narrow-compatibility mode before `ENC` is written. -/
theorem qspiErrorsCarryTheDriverByte : Obligations.QspiErrorsCarryTheDriverByte := by
  intro s addr payload n ha hs hlegal herr after
  have answer : ∀ e, Host.Outcome.next ((s.accept.failed e { s.dev with ddsChip := (s.upcoming 0).chip }).respond
      (errorResponse .qspi [(s.upcoming 0).driver])) = after e :=
    fun e => congrArg _ (respond_failed_eq_transferred ha.1 e _)
  refine ⟨fun hm => ⟨?_, ?_⟩, fun hm hlen => ?_⟩
  · rw [exec_ddsWrite_of_checked ha hlegal hs (by simp [hm]), ddsTransmit_native (s := s.accept) hm,
      qspiWrite_error (s := s.accept) herr]
    exact answer _
  · rw [exec_ddsRead_of_checked ha hlegal hs hm, qspiRead_error (s := s.accept) herr]
    exact answer _
  · obtain ⟨first, rest, hframe, hwrite⟩ := narrowWrite_of_fits (addr := addr) hlen s.accept
    rw [exec_ddsWrite_of_checked ha hlegal hs fun _ => hlen, ddsTransmit_narrow (s := s.accept) hm, hwrite,
      qspiWrite_error (s := s.accept) herr]
    exact ⟨_, first, rest, answer _, hframe, rfl, rfl, rfl, rfl, rfl⟩

/-! ## Streaming (R138 to R140) -/

/-- Settles O25: the sample's answer decides, and the override comes with the next. -/
theorem startStreamChecksBusyFirst : Obligations.StartStreamChecksBusyFirst := by
  intro s ha
  rw [exec_ddsStartStream, inPhase_accepts ha.1 ha.2]
  simp only [qspiBusy, bind_done, upcoming_accept]
  refine ⟨fun hbusy => ⟨streamedChip (s.upcoming 0) s.dev, streamedChip_of_not, ?_⟩, fun hidle => ?_⟩
  · rw [hbusy, if_pos rfl]
    exact congrArg _ (State.eq_of_parts (blk_idle ha.1) rfl rfl rfl)
  · rw [hidle, if_neg (by decide)]
    refine congrArg _ (State.eq_of_parts (congrArg (fun b : Block => { b with streaming := true }) (blk_idle ha.1)) ?_ rfl ?_)
    · simp [enterStreaming, qspiStreamOverride]
    · simp [enterStreaming, qspiStreamOverride, successResponse]

/-- No command clears `STREAMING` or `QSTREAM` (R140). -/
theorem exec_keeps_streaming {i : Instr} {s t : State} (h : exec i s = .next t) :
    (s.blk.streaming = true → t.blk.streaming = true) ∧ (s.dev.qstream = true → t.dev.qstream = true) := by
  by_cases hi : i = .ddsStartStream
  · subst hi
    obtain ⟨hb, hd⟩ | ⟨hb, hd⟩ := exec_ddsStartStream_cases h
    · exact ⟨hb.trans, fun hq => by rw [hd]; exact hq⟩
    · exact ⟨fun _ => hb, fun _ => hd⟩
  · obtain ⟨-, -, hkeep, -⟩ := blockRegisters_of_unwritten (exec_unwritten h).2
    exact ⟨(hkeep hi).trans, (exec_qstream hi h).trans⟩

/-- Settles O26: a step waits, or it is a command, and no command clears them. -/
theorem streamingIsNeverLeft : Obligations.StreamingIsNeverLeft := by
  intro s t h
  obtain ⟨rfl, -⟩ | ⟨_, rest, i, -, -, -, hexec⟩ := step_next_cases h
  · exact ⟨id, id⟩
  · exact exec_keeps_streaming (s := { s with io := { s.io with host := rest } }) hexec

/-- No addressed transaction on the 4-wire bus: neither a `QspiWrite` nor a `QspiRead` (R139). -/
def unaddressed (e : BusEvent) : Prop := (∀ a p r, e ≠ .qspiWrite a p r) ∧ ∀ a n r d, e ≠ .qspiRead a n r d

/-- Of the commands but INIT only DDS_WRITE and DDS_READ issue one. -/
theorem unaddressed_of_mayIssue {i : Instr} (hw : ∀ a p, i ≠ .ddsWrite a p) (hr : ∀ a n, i ≠ .ddsRead a n) {e : BusEvent}
    (h : mayIssue i e) : unaddressed e := by
  refine ⟨?_, ?_⟩
  · rintro a p r rfl
    cases i with
    | ddsWrite a p => exact hw a p rfl
    | _ => exact h
  · rintro a n r d rfl
    cases i with
    | ddsRead a n => exact hr a n rfl
    | _ => exact h

/-- None of INIT's writes is one. -/
theorem initWrites_unaddressed (b : Board) (v : Variant) : ∀ e ∈ initWrites b v, unaddressed e := by
  intro e he
  obtain he | he := List.mem_append.1 he
  · obtain ⟨p, -, he⟩ := List.mem_flatMap.1 he
    simp only [List.mem_cons, List.not_mem_nil, or_false] at he
    obtain rfl | rfl := he
    all_goals exact ⟨nofun, nofun⟩
  · simp only [List.mem_cons, List.not_mem_nil, or_false] at he
    obtain rfl | rfl | rfl | rfl := he
    all_goals exact ⟨nofun, nofun⟩

/-- How a transaction has ended does not matter for that. -/
theorem unaddressed_of_asCompleted {e : BusEvent} (h : unaddressed e.asCompleted) : unaddressed e := by
  refine ⟨?_, ?_⟩
  · rintro a p r rfl
    exact h.1 a p r rfl
  · rintro a n r d rfl
    exact h.2 a n r d rfl

/-- INIT acts on the expander alone (R166). -/
theorem exec_init_unaddressed {s t : State} (h : exec .init s = .next t) : Issues unaddressed s t := by
  have hprobe : ∀ r, unaddressed (.expProbe .a r) := fun _ => ⟨nofun, nofun⟩
  obtain ⟨-, rfl⟩ | ⟨-, r, rest, htrace, -, hmade, -⟩ := exec_init_writes h
  · exact .one rfl (hprobe _)
  · refine ⟨_, htrace, List.forall_mem_cons.2 ⟨hprobe _, fun e he => unaddressed_of_asCompleted ?_⟩⟩
    exact initWrites_unaddressed _ _ _ (hmade.wanted.subset (List.mem_map_of_mem he))

/-- While streaming a DDS_WRITE fails in one of its checks (R130). -/
theorem exec_ddsWrite_trace_of_streaming {s t : State} {addr : Byte} {payload : List Byte} (hs : s.blk.streaming = true)
    (h : exec (.ddsWrite addr payload) s = .next t) : t.io.trace = s.io.trace := by
  rw [exec_ddsWrite_eq (exec_next_gate h)] at h
  split_ifs at h
  all_goals
    injection h with h
    exact h ▸ rfl

/-- While streaming a DDS_READ that is not refused fails in one of its checks (R137). -/
theorem exec_ddsRead_trace_of_streaming {s t : State} {addr : Byte} {n : Nat} (hs : s.blk.streaming = true)
    (h : exec (.ddsRead addr n) s = .next t) : t.io.trace = s.io.trace := by
  rw [exec_ddsRead_eq (exec_next_gate h)] at h
  split_ifs at h
  all_goals
    injection h with h
    exact h ▸ rfl

/-- A command given while streaming issues no addressed transaction (R139). -/
theorem exec_unaddressed_of_streaming {i : Instr} {s t : State} (hs : s.blk.streaming = true) (h : exec i s = .next t) :
    Issues unaddressed s t := by
  cases i with
  | init => exact exec_init_unaddressed h
  | ddsWrite a p => exact .none (exec_ddsWrite_trace_of_streaming hs h)
  | ddsRead a n => exact .none (exec_ddsRead_trace_of_streaming hs h)
  | _ =>
    obtain ⟨added, htrace, hadded⟩ := exec_next_issues (by simp) h
    exact ⟨added, htrace, fun e he => unaddressed_of_mayIssue (by simp) (by simp) (hadded e he)⟩

/-- Settles O27: a step waits, or it is a command given while streaming. -/
theorem noAddressedTransactionWhileStreaming : Obligations.NoAddressedTransactionWhileStreaming := by
  intro s t h hs
  obtain ⟨rfl, -⟩ | ⟨_, rest, i, -, -, -, hexec⟩ := step_next_cases h
  · exact Issues.none (P := unaddressed) rfl
  · exact exec_unaddressed_of_streaming (s := { s with io := { s.io with host := rest } }) hs hexec

end Sys2Proof.Machine

/-! # The operand and the byte of an attenuation (spec/43_attenuator.md R146 to R148) -/

namespace Sys2Proof.Machine

/-- A datum that denotes no negative number denotes its magnitude (R90). -/
theorem f32Val_of_nonneg {x : BitVec 32} (h : 0 ≤ f32Val x) : f32Val x = (f32Units x : ℚ) / 2 ^ 149 := by
  obtain hs | hu := (f32Val_nonneg_iff x).1 h
  · simp [f32Val, hs]
  · simp [f32Val, hu]

/-- The operand check of ATT_SET is the interval of R146: half a dB is `2^148` units. -/
theorem attValid_iff (x : BitVec 32) :
    attValid x = true ↔ f32Finite x = true ∧ 0 ≤ f32Val x ∧ f32Val x ≤ 63 / 2 := by
  have hle (h : 0 ≤ f32Val x) : f32Units x ≤ 63 * 2 ^ 148 ↔ f32Val x ≤ 63 / 2 := by
    rw [f32Val_of_nonneg h, div_le_iff₀ (by positivity), ← Nat.cast_le (α := ℚ)]
    norm_num
  have hcheck : attValid x = true ↔ f32Finite x = true ∧ 0 ≤ f32Val x ∧ f32Units x ≤ 63 * 2 ^ 148 := by
    simp only [attValid, f32Val_nonneg_iff, Bool.and_eq_true, Bool.or_eq_true, Bool.not_eq_true', decide_eq_true_eq, and_assoc]
  exact hcheck.trans (and_congr_right fun _ => and_congr_right hle)

/-- The code of a valid operand rounds twice its value down (R148). -/
theorem attCode_eq_floor {x : BitVec 32} (h : attValid x = true) : (attCode x : ℤ) = ⌊2 * f32Val x⌋ := by
  obtain ⟨-, hnonneg, -⟩ := (attValid_iff x).1 h
  have hhalves : 2 * f32Val x = (f32Units x : ℚ) / (2 ^ 148 : ℕ) := by
    rw [f32Val_of_nonneg hnonneg]
    push_cast
    ring
  rw [hhalves, Rat.floor_natCast_div_natCast, attCode, Int.natCast_ediv]

theorem attCode_le {x : BitVec 32} (h : attValid x = true) : attCode x ≤ 63 := by
  obtain ⟨-, -, hle⟩ := (attValid_iff x).1 h
  have hfloor : (attCode x : ℤ) ≤ 63 := by
    rw [attCode_eq_floor h, ← Int.lt_add_one_iff, Int.floor_lt]
    norm_num
    linarith
  exact_mod_cast hfloor

/-- Half a code is a binary32 datum, exactly (R150). -/
theorem f32Val_f32OfHalf {code : Nat} (h : code ≤ 63) : f32Val (f32OfHalf code) = (code : ℚ) / 2 := by
  obtain ⟨-, hsign, hunits⟩ := f32OfHalf_fields ⟨code, Nat.lt_succ_of_le h⟩
  simp only at hsign hunits
  simp only [f32Val, hsign, hunits]
  push_cast
  ring

/-- Settles O37: the check is the interval, and an operand that fails it is answered at once. -/
theorem invalidAttenuationRaisesBounds : Obligations.InvalidAttenuationRaisesBounds := by
  refine ⟨attValid_iff, by decide, ?_, fun s c x ha hx => ?_⟩
  · rw [f32Val_of_nonneg ((f32Val_nonneg_iff _).2 (.inr rfl)), show f32Units 0x80000000 = 0 from rfl]
    simp
  · rw [exec_attSet, inPhase_accepts ha.1 ha.2, if_neg (mt (attValid_iff x).1 hx), raise_eq, respond_accept ha.1]
    rfl

/-- Settles O38: a byte's code is one of the 64, and the shift drops the low two bits. -/
theorem attenuationOfAByte : Obligations.AttenuationOfAByte := by
  intro b
  have hle := codeOf_le b
  obtain ⟨hfinite, -⟩ := f32OfHalf_fields ⟨codeOf b, Nat.lt_succ_of_le hle⟩
  refine ⟨rfl, hle, f32Val_f32OfHalf hle, hfinite, fun b' hb => ?_⟩
  have hcode : ((~~~b') >>> 2) = ((~~~b) >>> 2) := by
    ext j hj
    have hbit : b'.getLsbD (2 + j) = b.getLsbD (2 + j) := by
      simpa only [BitVec.getLsbD_ushiftRight] using congrArg (·.getLsbD j) hb
    simp [hbit]
  rw [attOf, attOf, codeOf, codeOf, hcode]

/-- Settles O39: the 64 codes are checked one by one. -/
theorem codeIsTheFloorOfTwiceTheValue : Obligations.CodeIsTheFloorOfTwiceTheValue := by
  refine ⟨fun x hx => ⟨attCode_eq_floor hx, attCode_le hx⟩, fun code h => ⟨?_, ?_⟩⟩
  · have hbytes : ∀ k : Fin 64, byteOf k = (BitVec.ofNat 8 (63 - k) <<< 2) ||| 3 := by decide
    exact hbytes ⟨code, Nat.lt_succ_of_le h⟩
  · rw [attOf, codeOf_byteOf ⟨code, Nat.lt_succ_of_le h⟩]

end Sys2Proof.Machine

/-! # The two transfers of an attenuator command, and its latch pulse -/

namespace Sys2Proof.Machine

section
variable {s t : State} {v : Variant} {c : Channel}

/-- What holds wherever a flow has come holds where it has run to its end. -/
theorem Flow.All.of_done {α : Type} {P : State → Prop} {f : Flow α} {a : α} (h : f.All P) (e : f = .done a t) : P t := by
  subst e
  exact h

/-! ## One transfer, however it ends (R33, R58) -/

/-- From `s` to `t` no device has changed but the chain, `QBUSY` and a streaming DDS chip; no pin register has, so the reset line
is where it was, and running attenuators have kept `O`. -/
structure ChainOnly (s t : State) : Prop where
  board : t.board = s.board
  xdir : t.dev.xdir = s.dev.xdir
  xlat : t.dev.xlat = s.dev.xlat
  chip : calmChip t.dev = calmChip s.dev
  output : s.AttRunning → t.dev.output = s.dev.output

theorem ChainOnly.running (h : ChainOnly s t) (hr : s.AttRunning) : t.AttRunning := by
  rw [State.AttRunning, h.board, attReleased_congr s.board h.xdir h.xlat]
  exact hr

theorem ChainOnly.trans {u : State} (h : ChainOnly s t) (h' : ChainOnly t u) : ChainOnly s u where
  board := h'.board.trans h.board
  xdir := h'.xdir.trans h.xdir
  xlat := h'.xlat.trans h.xlat
  chip := h'.chip.trans h.chip
  output hr := (h'.output (h.running hr)).trans (h.output hr)

/-- A transfer shifts the chain and latches nothing, unless the attenuators are not known to be out of reset (R33, R35). -/
theorem afterTransfer_output {b : Board} {d : Devices} (hr : attReleased b d = true) (r : BusOutcome) (draw : Draw)
    (w : Quad) : (afterTransfer b r draw w d).output = d.output := by
  simp only [afterTransfer, hr, if_true]
  cases r <;> rfl

theorem attXfer_chainOnly (w : Quad) (s : State) : (attXfer w s).All (ChainOnly s) := by
  obtain ⟨hxdir, hxlat, -⟩ := afterTransfer_frame s.board (s.upcoming 0).outcome (s.upcoming 0) w s.dev
  refine settle_all ⟨rfl, hxdir, hxlat, ?_, fun hr => afterTransfer_output hr ..⟩ fun _ h =>
    ⟨h.board, h.xdir, h.xlat, h.chip, h.output⟩
  exact (calmChip_settle ..).trans (afterTransfer_calmChip ..)

/-- A transfer that fails raises `Spi` (R149, R158). -/
theorem attXfer_error {w : Quad} (h : (s.upcoming 0).outcome = .error) :
    ∃ t, attXfer w s = .raised .spi [] t ∧ IssuedOnce (.spiXfer w .error none) s t ∧ ChainOnly s t := by
  have hchain := attXfer_chainOnly w s
  simp only [attXfer, spiXfer, h, settle] at hchain ⊢
  exact ⟨_, rfl, ⟨rfl, rfl, rfl⟩, hchain⟩

/-! ## The two transfers (R150, R155) -/

/-- What ATT_SET and ATT_GET begin with: the chain is read, what is returned is changed by `array` and sent back; `BUF` takes the
array sent, and `CAP` what `keep` makes of its old value and the bytes read. -/
def writeBack (array : Quad → Quad) (keep : Quad → Quad → Quad) (s : State) : Flow Quad :=
  (attXfer attXferFill s).bind fun rx t => attXfer (array rx) ((t.setBuf (array rx)).setCap (keep t.blk.cap rx))

/-- ATT_SET replaces its channel's byte, leaves `CAP`, and then latches (R150). -/
theorem attSetSteps_eq (v : Variant) (c : Channel) (code : Nat) (s : State) :
    attSetSteps v c code s =
      (writeBack (fun rx => rx.set (chanIndex c) (byteOf code)) (fun cap _ => cap) s).bind fun _ t =>
        (attLatch v c t).bind fun _ u => .done (attResult code) u := by
  rw [writeBack, Flow.bind_assoc]
  rfl

/-- ATT_GET sends back what it read, and captures it (R155). -/
theorem attGetSteps_eq (c : Channel) (s : State) :
    attGetSteps c s =
      (writeBack (fun rx => rx) (fun _ rx => rx) s).bind fun _ t =>
        .done (attResult (codeOf t.blk.cap[chanIndex c])) t := by
  rw [writeBack, Flow.bind_assoc]
  rfl

section
variable (array : Quad → Quad) (keep : Quad → Quad → Quad)

/-- The first transfer fails: there is no second, and nothing was noted (R158). -/
theorem writeBack_error_first (h : (s.upcoming 0).outcome = .error) :
    ∃ t, writeBack array keep s = .raised .spi [] t ∧ IssuedOnce (.spiXfer attXferFill .error none) s t ∧
      ChainOnly s t := by
  obtain ⟨t, ht, hissued, hchain⟩ := attXfer_error (w := attXferFill) h
  exact ⟨t, by rw [writeBack, ht, bind_raised], hissued, hchain⟩

/-- The first transfer completes: what is left is the second, made in a state where the array stands in `BUF` (R150). -/
theorem writeBack_second (h : (s.upcoming 0).outcome = .ok) :
    ∃ rx t, writeBack array keep s = attXfer (array rx) t ∧
      Ran 1 [.spiXfer attXferFill .ok (some rx)] ((s.setBuf (array rx)).setCap (keep s.blk.cap rx)) t ∧ ChainOnly s t ∧
      (s.AttRunning → rx = s.dev.staging ∧ t.dev.staging = attXferFill) := by
  obtain ⟨rx, t, ht, hran, -, hrun⟩ := attXfer_ok (w := attXferFill) h
  have hchain := (attXfer_chainOnly attXferFill s).of_done ht
  have hcap : t.blk.cap = s.blk.cap := by rw [hran.blk]
  refine ⟨rx, (t.setBuf (array rx)).setCap (keep s.blk.cap rx), by rw [writeBack, ht, bind_done, hcap],
    ⟨?_, hran.board, hran.io⟩, ⟨hchain.board, hchain.xdir, hchain.xlat, hchain.chip, hchain.output⟩, fun hr => ?_⟩
  · rw [setCap_blk, setBuf_blk, hran.blk]
    rfl
  · obtain ⟨hrx, -, hstaging, -⟩ := hrun hr
    exact ⟨hrx, hstaging⟩

/-- The second transfer fails: `CAP` has been written, and the chain alone has moved (R158). -/
theorem writeBack_error_second (h : s.NextOk 1) (herr : (s.upcoming 1).outcome = .error) :
    ∃ rx t, writeBack array keep s = .raised .spi [] t ∧ t.io.responses = s.io.responses ∧
      t.io.trace = s.io.trace ++ [.spiXfer attXferFill .ok (some rx), .spiXfer (array rx) .error none] ∧
      t.blk.cap = keep s.blk.cap rx ∧ ChainOnly s t := by
  obtain ⟨rx, t, ht, hran, hchain, -⟩ := writeBack_second array keep (h 0 Nat.one_pos)
  obtain ⟨u, hu, hissued, hchain'⟩ := attXfer_error (s := t) (w := array rx) (by rw [hran.upcoming]; exact herr)
  refine ⟨rx, u, ht.trans hu, ?_, ?_, ?_, hchain.trans hchain'⟩
  · rw [hissued.responses, hran.io]
    rfl
  · rw [hissued.trace, hran.io]
    simp
  · rw [hissued.blk, hran.blk]
    rfl

/-- Both transfers complete: running attenuators return `S` to the first, and to the second the fill that the first shifted in
(R33). -/
theorem writeBack_ok (h : s.NextOk 2) :
    ∃ rx rx' t, writeBack array keep s = .done rx' t ∧
      Ran 2 [.spiXfer attXferFill .ok (some rx), .spiXfer (array rx) .ok (some rx')]
        ((s.setBuf (array rx)).setCap (keep s.blk.cap rx)) t ∧
      ChainOnly s t ∧ t.dev.qbusy = false ∧
      (s.AttRunning → rx = s.dev.staging ∧ rx' = attXferFill ∧ t.dev.staging = array rx) := by
  obtain ⟨rx, t, ht, hran, hchain, hrun⟩ := writeBack_second array keep (h 0 Nat.two_pos)
  obtain ⟨rx', u, hu, hran', hbusy, hrun'⟩ := attXfer_ok (s := t) (w := array rx)
    (by rw [hran.upcoming]; exact h 1 Nat.one_lt_two)
  refine ⟨rx, rx', u, ht.trans hu, hran.trans hran', hchain.trans ((attXfer_chainOnly ..).of_done hu), hbusy,
    fun hr => ?_⟩
  obtain ⟨hrx, hfill⟩ := hrun hr
  obtain ⟨hrx', -, hstaging, -⟩ := hrun' (hchain.running hr)
  exact ⟨hrx, hrx'.trans hfill, hstaging⟩

end

/-! ## The latch pulse (R153) -/

/-- A pulse that completes leaves the latch pin's level high. -/
theorem attLatch_ran (hf : s.board.fitted = some v) (hb : s.board.admissible) (ht : s.trusted = true) (hok : s.NextOk 2) :
    ∃ t, attLatch v c s = .done () t ∧
      Ran 2 [.expLevel v (idx s.board v (latchPin c)) .low .ok, .expLevel v (idx s.board v (latchPin c)) .high .ok] s t ∧
      t.dev.xlat = s.dev.xlat.set (idx s.board v (latchPin c)) .high ∧ t.dev.qbusy = false := by
  obtain ⟨-, hxlat, -⟩ := afterLatch_frame hb v (s.upcoming 0) (s.upcoming 1) c s.dev
  exact ⟨_, attLatch_ok hf hb ht (hok 0 Nat.two_pos) (hok 1 Nat.one_lt_two), (ran_completed ..).trans (ran_completed ..),
    hxlat, rfl⟩

/-- A latch pin's level written with the attenuators running leaves `S`, and `O` but for its channel's byte, which takes the
staging byte if the line rises (R34). -/
theorem driveLatch_running {b : Board} (hb : b.admissible) {d : Devices} (hf : b.fitted = some v)
    (hr : attReleased b d = true) (draw : Draw) (l : Level) :
    (driveLevel b draw true v (idx b v (latchPin c)) l d).staging = d.staging ∧
      ((driveLevel b draw true v (idx b v (latchPin c)) l d).output = d.output ∨
        l = .high ∧ (driveLevel b draw true v (idx b v (latchPin c)) l d).output =
          d.output.set (chanIndex c) d.staging[chanIndex c]) := by
  cases l with
  | low =>
    rw [driveLatch_low hb]
    exact ⟨rfl, .inl rfl⟩
  | high =>
    simp only [driveLatch_high hb _ c d hf, hr, if_true]
    split
    · exact ⟨rfl, .inr ⟨trivial, rfl⟩⟩
    · exact ⟨rfl, .inl rfl⟩

/-- The same of the write, however it ends (R58). -/
theorem pinLevel_latchPin_running (hb : s.board.admissible) (hf : s.board.fitted = some v) (ht : s.trusted = true)
    (hr : s.AttRunning) (l : Level) :
    (pinLevel v (latchPin c) l s).All fun t => t.dev.staging = s.dev.staging ∧
      (t.dev.output = s.dev.output ∨
        l = .high ∧ t.dev.output = s.dev.output.set (chanIndex c) s.dev.staging[chanIndex c]) := by
  refine settle_all ?_ fun _ h => h
  simp only [record_dev, withDev_dev, settleDevices, ht]
  obtain e | e := afterExpander_cases s.board v (chipAnswer s.board v (s.upcoming 0).outcome) (s.upcoming 0) s.dev
    (driveLevel s.board (s.upcoming 0) true v (idx s.board v (latchPin c)) l s.dev)
  all_goals rw [e]
  · exact ⟨rfl, .inl rfl⟩
  · exact driveLatch_running hb hf hr ..

/-- A write of a latch pin's level leaves the reset line where it is (R35). -/
theorem running_of_latchPin_written {l : Level} (hb : s.board.admissible) (hf : s.board.fitted = some v)
    (hboard : t.board = s.board) (hxdir : t.dev.xdir = s.dev.xdir)
    (hxlat : t.dev.xlat = s.dev.xlat.set (idx s.board v (latchPin c)) l) (hr : s.AttRunning) : t.AttRunning := by
  rw [State.AttRunning, hboard, ← hr, ← attReleased_setLevel hb l s.dev hf (latchPin_ne_attRstN c)]
  exact attReleased_congr s.board hxdir hxlat

end

end Sys2Proof.Machine

/-! # ATT_SET and ATT_GET, completed and cut short (spec/43_attenuator.md R150 to R158) -/

namespace Sys2Proof.Machine

section
variable {s : State} {v : Variant} {c : Channel} {x : BitVec 32}

/-- An accepted ATT_SET of a valid operand is its four micro-steps, and then its answer (R146, R150). -/
theorem exec_attSet_eq (ha : s.Accepting) (hv : s.blk.variant = some v) (hx : attValid x = true) :
    exec (.attSet c x) s = .next (attSetSteps v c (attCode x) s.accept).finish := by
  rw [exec_attSet, inPhase_accepts ha.1 ha.2, if_pos hx, withVariant_some (by simpa using hv)]

/-- An accepted ATT_GET is its two micro-steps, and then its answer (R155). -/
theorem exec_attGet_eq (ha : s.Accepting) : exec (.attGet c) s = .next (attGetSteps c s.accept).finish := by
  rw [exec_attGet, inPhase_accepts ha.1 ha.2]

/-- The latch steps of an ATT_SET come when its transfers have completed, and `BUF` holds the array sent (R150). -/
theorem attSetSteps_latch (code : Nat) (hok : s.NextOk 2) :
    ∃ rx rx' t, attSetSteps v c code s = ((attLatch v c t).bind fun _ u => .done (attResult code) u) ∧
      Ran 2 [.spiXfer attXferFill .ok (some rx), .spiXfer (rx.set (chanIndex c) (byteOf code)) .ok (some rx')]
        (s.setBuf (rx.set (chanIndex c) (byteOf code))) t ∧
      ChainOnly s t ∧
      (s.AttRunning → rx = s.dev.staging ∧ t.dev.staging = s.dev.staging.set (chanIndex c) (byteOf code)) := by
  obtain ⟨rx, rx', t, hback, hran, hchain, -, hrun⟩ := writeBack_ok (fun rx => rx.set (chanIndex c) (byteOf code))
    (fun cap _ => cap) hok
  refine ⟨rx, rx', t, by rw [attSetSteps_eq, hback, bind_done], hran, hchain, fun hr => ?_⟩
  obtain ⟨rfl, -, hstaging⟩ := hrun hr
  exact ⟨rfl, hstaging⟩

/-! ## Completed -/

/-- An ATT_SET whose transactions complete: two transfers and a pulse, of the block registers `BUF` written alone (R150). -/
theorem attSetSteps_ok {code : Nat} (hf : s.board.fitted = some v) (hb : s.board.admissible) (ht : s.trusted = true)
    (hok : s.NextOk 4) :
    ∃ rx rx' t, attSetSteps v c code s = .done (attResult code) t ∧
      Ran 4 [.spiXfer attXferFill .ok (some rx), .spiXfer (rx.set (chanIndex c) (byteOf code)) .ok (some rx'),
          .expLevel v (idx s.board v (latchPin c)) .low .ok, .expLevel v (idx s.board v (latchPin c)) .high .ok]
        (s.setBuf (rx.set (chanIndex c) (byteOf code))) t ∧
      t.dev.xlat = s.dev.xlat.set (idx s.board v (latchPin c)) .high ∧ t.dev.qbusy = false ∧
      (s.AttRunning → rx = s.dev.staging) := by
  obtain ⟨rx, rx', t, hsteps, hran, hchain, hrun⟩ := attSetSteps_latch (v := v) (c := c) code fun j hj => hok j (by omega)
  obtain ⟨u, hlatch, hran', hxlat, hbusy⟩ := attLatch_ran (s := t) (v := v) (c := c) (hchain.board ▸ hf)
    (hchain.board ▸ hb) (hran.trusted.trans ht) fun j hj => by rw [hran.upcoming]; exact hok (2 + j) (by omega)
  simp only [hchain.board, hchain.xlat] at hran' hxlat
  exact ⟨rx, rx', u, by rw [hsteps, hlatch, bind_done], hran.trans hran', hxlat, hbusy, fun hr => (hrun hr).1⟩

/-- Settles O40: the pulse leaves the pin high, and every other device register is one ATT_SET keeps. -/
theorem attSetAnswersTheAppliedValue : Obligations.AttSetAnswersTheAppliedValue := by
  intro s v c x ha hv hb hx hok
  have hfloor : ((attCode x : ℤ) : ℚ) = ⌊2 * f32Val x⌋ := congrArg _ (attCode_eq_floor hx)
  have hle := Int.floor_le (2 * f32Val x)
  have hlt := Int.lt_floor_add_one (2 * f32Val x)
  rw [← hfloor, Int.cast_natCast] at hle hlt
  refine ⟨by linarith, by linarith, f32Val_f32OfHalf (attCode_le hx), ?_⟩
  obtain ⟨rx, rx', u, hu, hran, hxlat, hbusy, -⟩ := attSetSteps_ok (c := c) (code := attCode x) (s := s.accept) hv.2 hb
    (trusted_of_ready ha.2) hok
  have hexec : exec (.attSet c x) s = .next (u.respond (successResponse (attResult (attCode x)))) := by
    rw [exec_attSet_eq ha hv.1 hx, hu, finish_done]
  have hxdir : u.dev.xdir = s.dev.xdir :=
    exec_keeps (q := fun d => d.xdir) (t := u.respond _) (fun _ _ _ => rfl) (keptBy_xdir (by simp) (by simp)) hexec
  have hchip : calmChip u.dev = calmChip s.dev :=
    exec_keeps (t := u.respond _) calmChip_settle (keptBy_calmChip hb (by simp) (by simp) (by simp) (by simp) (by simp)
      (by simp)) hexec
  obtain ⟨hstream, hchip⟩ := calmChip_eq_iff.1 hchip
  refine ⟨_, _, rx, rx', hexec, ?_, rfl, hran.board, hxdir, hxlat, hbusy, hstream, hchip, ?_⟩
  · rw [respond_blk, hran.blk]
    exact congrArg (fun b : Block => { b with buf := rx.set (chanIndex c) (byteOf (attCode x)) }) (blk_idle ha.1)
  · rw [respond_io, hran.io]
    rfl

/-- Settles O41: what was read is `S`, so the array sent is `S` with the channel's byte replaced. -/
theorem attSetChangesOneChannel : Obligations.AttSetChangesOneChannel := by
  intro s t v c x ha hv hb hx hok hr h
  obtain ⟨u, hu, hstaging, houtput⟩ := attSetSteps_running (c := c) (s := s.accept) (code := attCode x) hv.2 hb
    (trusted_of_ready ha.2) hok hr
  obtain ⟨rx, rx', u', hu', hran, -, -, hrx⟩ := attSetSteps_ok (c := c) (code := attCode x) (s := s.accept) hv.2 hb
    (trusted_of_ready ha.2) hok
  obtain ⟨-, rfl⟩ := Flow.done.inj (hu.symm.trans hu')
  rw [exec_attSet_eq ha hv.1 hx, hu, finish_done] at h
  obtain rfl := Host.Outcome.next.inj h
  refine ⟨hstaging, ?_, houtput⟩
  rw [respond_blk, hran.blk, hrx hr]
  rfl

/-- Settles O42: the second transfer shifts back in what the first shifted out. -/
theorem attGetReadsAndRestores : Obligations.AttGetReadsAndRestores := by
  intro s c ha hok hr
  obtain ⟨rx, rx', t, hback, hran, hchain, hbusy, hrun⟩ := writeBack_ok (fun rx => rx) (fun _ rx => rx) (s := s.accept) hok
  obtain ⟨rfl, rfl, hstaging⟩ := hrun hr
  have hexec : exec (.attGet c) s =
      .next (t.respond (successResponse (attResult (codeOf s.dev.staging[chanIndex c])))) := by
    rw [exec_attGet_eq ha, attGetSteps_eq, hback, bind_done, hran.blk]
    rfl
  obtain ⟨hstream, hchip⟩ := calmChip_eq_iff.1 hchain.chip
  refine ⟨t.dev.ddsChip, hchip, hexec.trans (congrArg _ (State.eq_of_parts ?_ ?_ hchain.board ?_))⟩
  · rw [respond_blk, hran.blk]
    exact congrArg (fun b : Block => { b with buf := s.dev.staging, cap := s.dev.staging }) (blk_idle ha.1)
  · refine (devices_eq_of_pins hchain.xdir hchain.xlat hbusy hstream).trans ?_
    rw [hstaging, hchain.output hr]
    rfl
  · rw [respond_io, hran.io]
    rfl

/-- Settles O44: the byte the one command stages is the byte the other reads. -/
theorem attenuationRoundTrip : Obligations.AttenuationRoundTrip := by
  intro s t v c x ha hv hb hx hok hr h
  have hok4 : s.NextOk 4 := fun j hj => hok j (by omega)
  obtain ⟨-, -, hval, t', w, rx, rx', h', hblk, -, hboard, hxdir, hxlat, -, -, -, hio⟩ :=
    attSetAnswersTheAppliedValue s v c x ha hv hb hx hok4
  obtain rfl := Host.Outcome.next.inj (h.symm.trans h')
  obtain ⟨hstaging, -⟩ := attSetChangesOneChannel s t v c x ha hv hb hx hok4 hr h
  have hcode : codeOf t.dev.staging[chanIndex c] = attCode x := by
    rw [hstaging, Fin.getElem_fin, Vector.getElem_set_self]
    exact codeOf_byteOf ⟨attCode x, Nat.lt_succ_of_le (attCode_le hx)⟩
  have hupcoming (j : Nat) : t.upcoming j = s.upcoming (4 + j) := by simp [State.upcoming, hio, Nat.add_assoc]
  obtain ⟨chip, -, hget⟩ := attGetReadsAndRestores t c ⟨hblk ▸ ha.1, hblk ▸ ha.2⟩
    (fun j hj => hupcoming j ▸ hok (4 + j) (by omega)) (running_of_latchPin_written hb hv.2 hboard hxdir hxlat hr)
  have hfloor : (⌊2 * f32Val x⌋ : ℚ) = attCode x := by rw [← attCode_eq_floor hx, Int.cast_natCast]
  refine ⟨_, hget, ?_, by rw [hval, hfloor], fun m hm => ?_⟩
  · simp only [hcode, hio, List.append_assoc]
    rfl
  · rw [hval, ← hfloor, hm, mul_div_cancel₀ _ two_ne_zero, Int.floor_intCast]

end

end Sys2Proof.Machine

/-! # ATT_SET and ATT_GET cut short by a bus error (spec/43_attenuator.md R158) -/

namespace Sys2Proof.Machine

section
variable {s : State} {v : Variant} {c : Channel}

section
variable (hf : s.board.fitted = some v) (hb : s.board.admissible) (ht : s.trusted = true)
include hf hb ht

/-- A write of a latch pin's level that fails raises `I2c`, and was made or not (R58, R158). -/
theorem pinLevel_latchPin_error (l : Level) (h : (s.upcoming 0).outcome = .error) :
    ∃ t, pinLevel v (latchPin c) l s = .raised .i2c [] t ∧
      IssuedOnce (.expLevel v (idx s.board v (latchPin c)) l .error) s t ∧ t.dev.xdir = s.dev.xdir ∧
      (t.dev.xlat = s.dev.xlat ∨ t.dev.xlat = s.dev.xlat.set (idx s.board v (latchPin c)) l) ∧
      (s.AttRunning → t.dev.staging = s.dev.staging ∧
        (t.dev.output = s.dev.output ∨
          l = .high ∧ t.dev.output = s.dev.output.set (chanIndex c) s.dev.staging[chanIndex c])) := by
  obtain ⟨t, hwrite, hissued, hxdir, hxlat⟩ := pinLevel_eq_settle (p := latchPin c) hf l
  rw [h] at hwrite hissued
  refine ⟨t, hwrite, hissued, hxdir, hxlat, fun hr => ?_⟩
  have hleft := pinLevel_latchPin_running (c := c) hb hf ht hr l
  rw [hwrite] at hleft
  exact hleft

/-- A pulse whose first write completes and whose second fails: the pin is left low or high, and running attenuators have latched
the channel or not. -/
theorem attLatch_error_high (hok : s.NextOk 1) (herr : (s.upcoming 1).outcome = .error) :
    ∃ t, attLatch v c s = .raised .i2c [] t ∧ t.io.responses = s.io.responses ∧
      t.io.trace = s.io.trace ++
        [.expLevel v (idx s.board v (latchPin c)) .low .ok, .expLevel v (idx s.board v (latchPin c)) .high .error] ∧
      t.dev.xdir = s.dev.xdir ∧
      (t.dev.xlat = s.dev.xlat.set (idx s.board v (latchPin c)) .low ∨
        t.dev.xlat = s.dev.xlat.set (idx s.board v (latchPin c)) .high) ∧
      (s.AttRunning → t.dev.staging = s.dev.staging ∧
        (t.dev.output = s.dev.output ∨
          t.dev.output = s.dev.output.set (chanIndex c) s.dev.staging[chanIndex c])) := by
  obtain ⟨t, hlow, hran, -, hxdir, hxlat, -⟩ := pinLevel_ok (p := latchPin c) (l := .low) hf (hok 0 Nat.one_pos)
  obtain ⟨u, hhigh, hissued, hxdir', hxlat', hrun'⟩ := pinLevel_latchPin_error (c := c) (hran.board ▸ hf)
    (hran.board ▸ hb) (hran.trusted.trans ht) .high (by rw [hran.upcoming]; exact herr)
  simp only [hran.board, hxlat, Vector.set_set] at hissued hxlat'
  refine ⟨u, ?_, ?_, ?_, hxdir'.trans hxdir, hxlat', fun hr => ?_⟩
  · rw [attLatch, pinPulse, hlow]
    exact hhigh
  · rw [hissued.responses, hran.io]
  · rw [hissued.trace, hran.io]
    simp
  · obtain ⟨hstaging, houtput⟩ := (pinLevel_latchPin_running (c := c) hb hf ht hr .low).of_done hlow
    have houtput := houtput.resolve_right (by simp)
    obtain ⟨hstaging', houtput'⟩ := hrun' (running_of_latchPin_written hb hf hran.board hxdir hxlat hr)
    rw [hstaging, houtput] at houtput'
    exact ⟨hstaging'.trans hstaging, houtput'.imp_right And.right⟩

/-- An ATT_SET whose third micro-step fails: both transfers have completed, and nothing has latched (R158). -/
theorem attSetSteps_error_low (code : Nat) (hok : s.NextOk 2) (herr : (s.upcoming 2).outcome = .error) :
    ∃ rx rx' t, attSetSteps v c code s = .raised .i2c [] t ∧ t.io.responses = s.io.responses ∧
      t.io.trace = s.io.trace ++ [.spiXfer attXferFill .ok (some rx),
        .spiXfer (rx.set (chanIndex c) (byteOf code)) .ok (some rx'),
        .expLevel v (idx s.board v (latchPin c)) .low .error] ∧
      t.dev.xdir = s.dev.xdir ∧
      (t.dev.xlat = s.dev.xlat ∨ t.dev.xlat = s.dev.xlat.set (idx s.board v (latchPin c)) .low) ∧
      (s.AttRunning → t.dev.staging = s.dev.staging.set (chanIndex c) (byteOf code) ∧ t.dev.output = s.dev.output) := by
  obtain ⟨rx, rx', t, hsteps, hran, hchain, hrun⟩ := attSetSteps_latch (v := v) (c := c) code hok
  obtain ⟨u, hlow, hissued, hxdir, hxlat, hrun'⟩ := pinLevel_latchPin_error (s := t) (c := c) (hchain.board ▸ hf)
    (hchain.board ▸ hb) (hran.trusted.trans ht) .low (by rw [hran.upcoming]; exact herr)
  simp only [hchain.board, hchain.xlat] at hissued hxlat
  refine ⟨rx, rx', u, ?_, ?_, ?_, hxdir.trans hchain.xdir, hxlat, fun hr => ?_⟩
  · rw [hsteps, attLatch, pinPulse, hlow, bind_raised, bind_raised]
  · rw [hissued.responses, hran.io, setBuf_io]
  · rw [hissued.trace, hran.io, setBuf_io]
    simp
  · obtain ⟨hstaging, houtput⟩ := hrun' (hchain.running hr)
    have houtput := houtput.resolve_right (by simp)
    exact ⟨hstaging.trans (hrun hr).2, houtput.trans (hchain.output hr)⟩

/-- An ATT_SET whose fourth micro-step fails: the pin is low or high, and the channel's byte has latched or not (R158). -/
theorem attSetSteps_error_high (code : Nat) (hok : s.NextOk 3) (herr : (s.upcoming 3).outcome = .error) :
    ∃ rx rx' t, attSetSteps v c code s = .raised .i2c [] t ∧ t.io.responses = s.io.responses ∧
      t.io.trace = s.io.trace ++ [.spiXfer attXferFill .ok (some rx),
        .spiXfer (rx.set (chanIndex c) (byteOf code)) .ok (some rx'),
        .expLevel v (idx s.board v (latchPin c)) .low .ok, .expLevel v (idx s.board v (latchPin c)) .high .error] ∧
      t.dev.xdir = s.dev.xdir ∧
      (t.dev.xlat = s.dev.xlat.set (idx s.board v (latchPin c)) .low ∨
        t.dev.xlat = s.dev.xlat.set (idx s.board v (latchPin c)) .high) ∧
      (s.AttRunning → t.dev.staging = s.dev.staging.set (chanIndex c) (byteOf code) ∧
        (t.dev.output = s.dev.output ∨ t.dev.output = s.dev.output.set (chanIndex c) (byteOf code))) := by
  obtain ⟨rx, rx', t, hsteps, hran, hchain, hrun⟩ := attSetSteps_latch (v := v) (c := c) code fun j hj => hok j (by omega)
  obtain ⟨u, hhigh, hresponses, htrace, hxdir, hxlat, hrun'⟩ := attLatch_error_high (s := t) (c := c)
    (hchain.board ▸ hf) (hchain.board ▸ hb) (hran.trusted.trans ht)
    (fun j hj => by rw [hran.upcoming]; exact hok (2 + j) (by omega)) (by rw [hran.upcoming]; exact herr)
  simp only [hchain.board, hchain.xlat] at htrace hxlat
  refine ⟨rx, rx', u, ?_, ?_, ?_, hxdir.trans hchain.xdir, hxlat, fun hr => ?_⟩
  · rw [hsteps, hhigh, bind_raised]
  · rw [hresponses, hran.io, setBuf_io]
  · rw [htrace, hran.io, setBuf_io]
    simp
  · obtain ⟨hstaging, houtput⟩ := hrun' (hchain.running hr)
    simp only [(hrun hr).2, hchain.output hr, Fin.getElem_fin, Vector.getElem_set_self] at hstaging houtput
    exact ⟨hstaging, houtput⟩

end

end

/-- Settles O47: the first transaction that fails ends the command, and what the ones before it left stays. -/
theorem attenuatorErrorsKeepEarlierEffects : Obligations.AttenuatorErrorsKeepEarlierEffects := by
  intro s v c x ha hv hb hx fill byte pin
  have hset := exec_attSet_eq (c := c) ha hv.1 hx
  have hget := exec_attGet_eq (c := c) ha
  have htrusted : s.accept.trusted = true := trusted_of_ready ha.2
  refine ⟨fun h => ?_, fun hok h => ?_, fun hok h => ?_, fun hok h => ?_, fun h => ?_, fun hok h => ?_⟩
  · obtain ⟨t, hback, hissued, hchain⟩ := writeBack_error_first (s := s.accept) (fun rx => rx.set (chanIndex c) byte)
      (fun cap _ => cap) h
    rw [attSetSteps_eq, hback] at hset
    exact ⟨_, hset, congrArg (· ++ _) hissued.responses, hissued.trace, hchain.xdir, hchain.xlat, hchain.output⟩
  · obtain ⟨rx, t, hback, hresponses, htrace, -, hchain⟩ := writeBack_error_second (s := s.accept)
      (fun rx => rx.set (chanIndex c) byte) (fun cap _ => cap) hok h
    rw [attSetSteps_eq, hback] at hset
    exact ⟨_, rx, hset, congrArg (· ++ _) hresponses, htrace, hchain.xdir, hchain.xlat, hchain.output⟩
  · obtain ⟨rx, rx', t, hsteps, hresponses, hleft⟩ := attSetSteps_error_low (s := s.accept) (c := c) hv.2 hb htrusted
      (attCode x) hok h
    rw [hsteps] at hset
    exact ⟨_, rx, rx', hset, congrArg (· ++ _) hresponses, hleft⟩
  · obtain ⟨rx, rx', t, hsteps, hresponses, hleft⟩ := attSetSteps_error_high (s := s.accept) (c := c) hv.2 hb htrusted
      (attCode x) hok h
    rw [hsteps] at hset
    exact ⟨_, rx, rx', hset, congrArg (· ++ _) hresponses, hleft⟩
  · obtain ⟨t, hback, hissued, hchain⟩ := writeBack_error_first (s := s.accept) (fun rx => rx) (fun _ rx => rx) h
    rw [attGetSteps_eq, hback] at hget
    exact ⟨_, hget, congrArg (· ++ _) hissued.responses, hissued.trace, hchain.xdir, hchain.xlat, hchain.output⟩
  · obtain ⟨rx, t, hback, hresponses, htrace, hcap, hchain⟩ := writeBack_error_second (s := s.accept) (fun rx => rx)
      (fun _ rx => rx) hok h
    rw [attGetSteps_eq, hback] at hget
    exact ⟨_, rx, hget, congrArg (· ++ _) hresponses, htrace, hcap, hchain.xdir, hchain.xlat, hchain.output⟩

end Sys2Proof.Machine

/-! # INIT: refused, completed, and what it issues (spec/44_init_sequence.md) -/

namespace Sys2Proof.Machine

/-- Settles O12: neither phase is the one that INIT's gate lets pass. -/
theorem secondInitIsRefused : Obligations.SecondInitIsRefused := by
  intro s h0 hp
  have hne : s.blk.phase ≠ .uninit := by
    obtain hp | hp := hp
    all_goals simp [hp]
  rw [exec_init]
  exact inPhase_wrong h0 hne _

/-! ## What INIT issues (R175) -/

/-- The primitive is a transaction with the expander. -/
def BusEvent.onExpander : BusEvent → Bool
  | .expProbe .. => true
  | .expLevel .. => true
  | .expDir .. => true
  | _ => false

theorem BusEvent.onExpander_iff {e : BusEvent} :
    e.onExpander = true ↔
      (∃ v r, e = .expProbe v r) ∨ (∃ v i l r, e = .expLevel v i l r) ∨ ∃ v i x r, e = .expDir v i x r := by
  cases e <;> simp [onExpander]

@[simp] theorem BusEvent.onExpander_asCompleted (e : BusEvent) : e.asCompleted.onExpander = e.onExpander := by
  cases e <;> rfl

/-- Which pins and levels the 36 writes name is of no matter here. -/
theorem initWrites_onExpander (b : Board) (v : Variant) : ∀ e ∈ initWrites b v, e.onExpander = true :=
  List.all_eq_true.1 rfl

/-- Writes made of expander writes are expander writes, however the last of them ended. -/
theorem MadeUpTo.onExpander {r : BusOutcome} {b : Board} {v : Variant} {rest : List BusEvent}
    (h : MadeUpTo r (initWrites b v) rest) : ∀ e ∈ rest, e.onExpander = true := fun e he =>
  e.onExpander_asCompleted ▸ initWrites_onExpander b v _ (h.wanted.subset (List.mem_map_of_mem he))

/-- INIT issues transactions with the expander alone, however they end (R175). -/
theorem exec_init_issues {s t : State} (h : exec .init s = .next t) : Issues (fun e => e.onExpander = true) s t := by
  obtain ⟨-, rfl⟩ | ⟨-, r, rest, htrace, -, hmade, -⟩ := exec_init_writes h
  · exact .one rfl rfl
  · exact ⟨_, htrace, List.forall_mem_cons.2 ⟨rfl, hmade.onExpander⟩⟩

/-- Settles O53: the register frame of INIT, and the events it issues. -/
theorem initUsesTheExpanderOnly : Obligations.InitUsesTheExpanderOnly := by
  intro s t h
  obtain ⟨-, hmode, hstreaming, henc, hbuf, hcap⟩ := blockRegisters_of_unwritten (exec_unwritten h).2
  obtain ⟨added, htrace, hadded⟩ := exec_init_issues h
  exact ⟨hmode nofun, hstreaming nofun, henc (.inl nofun), hbuf nofun nofun, hcap nofun, added, htrace,
    fun e he => BusEvent.onExpander_iff.1 (hadded e he)⟩

/-! ## INIT completed (R44, R166 to R172) -/

/-- The devices `d'` are as INIT's writes through variant `v` leave devices `d` (R44, R172). -/
structure BroughtUp (b : Board) (v : Variant) (d d' : Devices) : Prop where
  xdir : ∀ i : Fin 16, d'.xdir[i] = .output
  xlat : ∀ p, d'.xlat[idx b v p] =
    if p = .attRstN then otherLevel b.attRstActive else if p = .ddsReset then otherLevel b.ddsRstActive else .low
  staging : d'.staging = Vector.replicate 4 b.attResetByte
  output : d'.output = Vector.replicate 4 b.attResetByte
  ddsChip : d.qstream = false → d'.ddsChip = b.ddsPowerOn
  qbusy : d'.qbusy = false
  qstream : d'.qstream = d.qstream

/-- A write at one pin's index, read at another's (R104). -/
theorem getElem_set_idx {b : Board} (hb : b.admissible) {α : Type} (v : Variant) (x : Vector α 16) (a : α) (p q : GpioPin) :
    (x.set (idx b v q) a)[idx b v p] = if p = q then a else x[idx b v p] :=
  (getElem_foldl_set hb a [q] x p).trans (by simp)

/-- After the pin phase over all pins every pin is an output and `Low` (R168). -/
theorem initPinPhase_ok {v : Variant} {s : State} (hf : s.board.fitted = some v) (hb : s.board.admissible)
    (h : s.NextOk 32) :
    ∃ t, pinPhase v allPins s = .done () t ∧
      Ran 32 (allPins.flatMap fun p =>
        [.expLevel v (idx s.board v p) .low .ok, .expDir v (idx s.board v p) .output .ok]) s t ∧
      (∀ i : Fin 16, t.dev.xdir[i] = .output) ∧ (∀ p, t.dev.xlat[idx s.board v p] = .low) ∧
      t.dev.qstream = s.dev.qstream := by
  obtain ⟨t, ht, hran, hxdir, hxlat, hq⟩ := pinPhase_ok allPins hf h
  refine ⟨t, ht, hran, fun i => ?_, fun p => ?_, hq⟩
  · obtain ⟨p, rfl⟩ := idx_surjective hb v i
    rw [hxdir, getElem_foldl_set hb, if_pos (mem_allPins p)]
  · rw [hxlat, getElem_foldl_set hb, if_pos (mem_allPins p)]

/-- The 36 writes of INIT, when each completes: the pins low and outputs, then the two reset pulses (R166, R168 to R170). -/
theorem initPins_ok {v : Variant} {s : State} (hf : s.board.fitted = some v) (hb : s.board.admissible)
    (ht : s.trusted = false) (h : s.NextOk 36) :
    ∃ t, initPins v s = .done () t ∧ Ran 36 (initWrites s.board v) s t ∧ BroughtUp s.board v s.dev t.dev := by
  obtain ⟨s1, e1, r1, hxdir, hxlat, hq⟩ := initPinPhase_ok hf hb fun j hj => h j (by omega)
  obtain ⟨s2, chip, e2, r2, d2, -⟩ := attResetPulse_ok (v := v) (s := s1) (r1.board ▸ hf) (r1.board ▸ hb)
    (r1.trusted.trans ht) (hxdir _) (r1.upcoming 0 ▸ h 32 (by omega)) (r1.upcoming 1 ▸ h 33 (by omega))
  have r12 := r1.trans r2
  obtain ⟨s3, chip', e3, r3, d3, hchip⟩ := ddsResetPulse_ok (v := v) (s := s2) (r12.board ▸ hf) (r12.board ▸ hb)
    (r12.trusted.trans ht) (by rw [d2]; exact hxdir _) (r12.upcoming 0 ▸ h 34 (by omega))
    (r12.upcoming 1 ▸ h 35 (by omega))
  have r123 := r12.trans r3
  simp only [r12.board, r1.board] at r123 d2 d3 hchip
  refine ⟨s3, by simp only [initPins, e1, bind_done, e2, e3], ?_, ?_⟩
  · simpa [initWrites] using r123
  · rw [d3, d2]
    exact
      { xdir := hxdir
        xlat := fun p => by
          simp only [getElem_set_idx hb, hxlat]
          by_cases hp : p = .attRstN <;> simp [hp]
        staging := rfl
        output := rfl
        ddsChip := fun hn => hchip (by rw [State.NotStreaming, d2]; exact hq.trans hn)
        qbusy := rfl
        qstream := hq }

/-- The probe of a board with a fitted chip ends ok exactly where that chip is of Variant A (R114; log 8). -/
theorem probeOutcome_fitted {s : State} {v : Variant} (hf : s.board.fitted = some v)
    (ha : v = .a → (s.upcoming 0).outcome = .ok) (hs : v = .b → (s.upcoming 0).outcome ≠ .stalled) :
    s.probeOutcome = if v = .a then .ok else .error := by
  cases v with
  | a => exact chipAnswer_ok.2 ⟨hf, ha rfl⟩
  | b => exact chipAnswer_absent (by simp [hf]) (hs rfl)

/-- Settles O49: detection finds the fitted variant, and its 36 writes complete. -/
theorem initEndsInTheReadyState : Obligations.InitEndsInTheReadyState := by
  intro s v h0 hp hb hf ha hs hok
  have hprobe : s.accept.probeOutcome = if v = .a then .ok else .error := probeOutcome_fitted hf ha hs
  have hdetect := expDetect_of_completed (s := s.accept) (by rw [hprobe]; cases v <;> decide)
  have hv : variantAfter s.accept.probeOutcome = v := by rw [hprobe]; cases v <;> rfl
  rw [hv] at hdetect
  obtain ⟨t, ht, hran, hdev⟩ := initPins_ok (v := v) (s := s.accept.probed.advance.setVariant v) hf hb
    (trusted_of_uninit hp) fun j hj => by simpa using hok (1 + j) (by omega) (by omega)
  have hq : s.accept.probed.dev.qstream = s.dev.qstream := afterProbe_qstream ..
  refine ⟨(t.setPhase .ready).respond [0x00], ?_, ?_, hran.board, hdev.xdir, hdev.xlat, hdev.staging, hdev.output,
    fun hn => hdev.ddsChip (hq.trans hn), hdev.qbusy, hdev.qstream.trans hq, ?_⟩
  · rw [exec_init, inPhase_accepts h0 hp, initSteps_eq, hdetect, bind_done, ht]
    rfl
  · rw [respond_blk, setPhase_blk, hran.blk]
    exact congrArg (fun b : Block => { b with phase := .ready, variant := some v }) (blk_idle h0)
  · rw [respond_io, setPhase_io, hran.io]
    simp [← hprobe, initWrites]

end Sys2Proof.Machine

/-! # How a command's sequence ends (spec/60_exceptions.md R180 to R193) -/

namespace Sys2Proof.Machine

/-- Settles O52: no command is accepted in `Failed`, and a block that waits keeps its state. -/
theorem failedIsLasting : Obligations.FailedIsLasting := by
  intro s t hp h
  obtain ⟨rfl, -⟩ | ⟨_, rest, i, -, -, -, hexec⟩ := step_next_cases h
  · rfl
  · have hgate : s.blk.phase = phaseOf i := (exec_next_gate hexec).2
    rw [hp, phaseOf] at hgate
    split_ifs at hgate

/-! ## A bus transaction, however it ends (R58, R190) -/

theorem issuedOnce_record (s : State) (e : BusEvent) (d : Devices) : IssuedOnce e s (((s.drawn 1).withDev d).record e) :=
  ⟨rfl, rfl, rfl⟩

/-- An error kind this block does raise: all but two are (R183). -/
abbrev ErrorKind.InUse (k : ErrorKind) : Prop := k ≠ .invalidChannel ∧ k ≠ .adc

theorem errorCode_of_inUse {k : ErrorKind} (h : k.InUse) : errorCode k ≠ 0x06 ∧ errorCode k ≠ 0x07 := by
  obtain ⟨hchannel, hadc⟩ := h
  cases k with
  | invalidChannel => exact absurd rfl hchannel
  | adc => exact absurd rfl hadc
  | _ => exact ⟨by decide, by decide⟩

/-- From `s` to `t` no response has been given, and every transaction issued has completed, ok or with an error. -/
structure Unanswered (s t : State) : Prop where
  responses : t.io.responses = s.io.responses
  completes : Issues (fun e => e.outcome ≠ some .stalled) s t

/-- The flow, begun in `s`, has given no response; it has stalled exactly at its first transaction that never completes, the last
it made, and any error it has raised is of a kind in use. -/
def Flow.Ends {α : Type} (s : State) : Flow α → Prop
  | .done _ t => Unanswered s t
  | .raised k _ t => Unanswered s t ∧ k.InUse
  | .stalled t => ∃ u e, Unanswered s u ∧ IssuedOnce e u t ∧ e.outcome = some .stalled

section
variable {α β : Type} {s t u : State}

/-- Registers alone have been written. -/
theorem Unanswered.of_io (h : t.io = s.io) : Unanswered s t := ⟨by rw [h], .none (by rw [h])⟩

theorem IssuedOnce.unanswered {e : BusEvent} (h : IssuedOnce e s t) (he : e.outcome ≠ some .stalled) : Unanswered s t :=
  ⟨h.responses, .one h.trace he⟩

theorem IssuedOnce.unanswered_advance {e : BusEvent} (h : IssuedOnce e s t) (he : e.outcome ≠ some .stalled) :
    Unanswered s t.advance :=
  ⟨h.responses, .one h.trace he⟩

theorem Unanswered.trans (h : Unanswered s t) (h' : Unanswered t u) : Unanswered s u :=
  ⟨h'.responses.trans h.responses, h.completes.trans h'.completes⟩

theorem Flow.Ends.of_unanswered {f : Flow α} (h : Unanswered s t) (hf : f.Ends t) : f.Ends s := by
  cases f with
  | done a u => exact h.trans hf
  | raised k info u => exact ⟨h.trans hf.1, hf.2⟩
  | stalled u =>
    obtain ⟨w, e, hw, hlast, he⟩ := hf
    exact ⟨w, e, h.trans hw, hlast, he⟩

theorem Flow.Ends.bind {f : Flow α} {g : α → State → Flow β} (hf : f.Ends s) (hg : ∀ a t, (g a t).Ends t) :
    (f.bind g).Ends s := by
  cases f with
  | done a t => exact (hg a t).of_unanswered hf
  | raised k info t => exact hf
  | stalled t => exact hf

/-- A sequence returns, perhaps after registers are written. -/
theorem Flow.Ends.done (a : α) (h : t.io = s.io) : (Flow.done a t).Ends s := Unanswered.of_io h

/-- A check fails. -/
theorem Flow.Ends.raised {k : ErrorKind} (info : List Byte) (hk : k.InUse) (s : State) :
    (Flow.raised k info s : Flow α).Ends s :=
  ⟨.of_io rfl, hk⟩

section
variable {r : BusOutcome} {k : ErrorKind} {info : List Byte} {a : α} {e : BusEvent}

theorem settle_ends (h : IssuedOnce e s t) (he : e.outcome = some r) (hk : k.InUse) : (settle r k info a t).Ends s := by
  cases r with
  | ok => exact h.unanswered_advance (by simp [he])
  | error => exact ⟨h.unanswered (by simp [he]), hk⟩
  | stalled => exact ⟨s, e, .of_io rfl, h, he⟩

theorem settle_stuck (h : IssuedOnce e s t) (hr : r = .stalled) : (settle r k info a t).Stuck s :=
  ⟨t, by rw [hr]; rfl, by rw [h.blk], h.responses⟩

end

theorem expLevel_ends (v : Variant) (i : Fin 16) (l : Level) (s : State) : (expLevel v i l s).Ends s :=
  settle_ends (issuedOnce_record ..) rfl (by decide)

theorem expDir_ends (v : Variant) (i : Fin 16) (x : Dir) (s : State) : (expDir v i x s).Ends s :=
  settle_ends (issuedOnce_record ..) rfl (by decide)

theorem spiXfer_ends (w : Quad) (s : State) : (spiXfer w s).Ends s :=
  settle_ends (issuedOnce_record ..) rfl (by decide)

theorem qspiWrite_ends (a : Byte) (payload : List Byte) (s : State) : (qspiWrite a payload s).Ends s :=
  settle_ends (issuedOnce_record ..) rfl (by decide)

theorem qspiRead_ends (a : Byte) (n : Nat) (s : State) : (qspiRead a n s).Ends s :=
  settle_ends (issuedOnce_record ..) rfl (by decide)

/-- A probe raises nothing: an error of it tells the variant (R114). -/
theorem expProbe_ends (v : Variant) (s : State) : (expProbe v s).Ends s := by
  unfold expProbe
  cases hr : chipAnswer s.board v (s.upcoming 0).outcome with simp only [hr]
  | ok => exact (issuedOnce_record s (.expProbe v .ok) _).unanswered_advance nofun
  | error => exact (issuedOnce_record s (.expProbe v .error) _).unanswered_advance nofun
  | stalled => exact ⟨s, _, .of_io rfl, issuedOnce_record .., rfl⟩

/-- The sample of the busy line and the override are no transactions that could fail or stall (R14). -/
theorem qspiBusy_ends (s : State) : (qspiBusy s).Ends s :=
  (issuedOnce_record s (.qspiBusy _) _).unanswered_advance nofun

theorem qspiStreamOverride_ends (s : State) : (qspiStreamOverride s).Ends s :=
  (issuedOnce_record s .qspiStreamOverride _).unanswered_advance nofun

theorem expProbe_stuck (v : Variant) (h : (s.upcoming 0).outcome = .stalled) : (expProbe v s).Stuck s := by
  simp only [expProbe, chipAnswer_stalled.2 h]
  exact ⟨_, rfl, rfl, rfl⟩

end

/-! ## A command's sequence -/

theorem pinPulse_ends (v : Variant) (p : GpioPin) (l : Level) (s : State) : (pinPulse v p l s).Ends s :=
  .bind (expLevel_ends ..) fun _ _ => expLevel_ends ..

theorem pinPhase_ends (v : Variant) (pins : List GpioPin) (s : State) : (pinPhase v pins s).Ends s := by
  induction pins generalizing s with
  | nil => exact .done _ rfl
  | cons p pins ih => exact .bind (.bind (expLevel_ends ..) fun _ _ => expDir_ends ..) fun _ t => ih t

theorem initSteps_ends (s : State) : (initSteps s).Ends s :=
  .bind (.bind (expProbe_ends ..) fun _ _ => .done _ rfl) fun _ _ =>
    .bind (pinPhase_ends ..) fun _ _ => .bind (pinPulse_ends ..) fun _ _ =>
      .bind (pinPulse_ends ..) fun _ _ => .done _ rfl

theorem Flow.Ends.failInit {s : State} {f : Flow (List Byte)} (h : f.Ends s) : (failInit f).Ends s := by
  cases f with
  | done r t => exact h
  | raised k info t => exact ⟨h.1.trans (.of_io rfl), h.2⟩
  | stalled t => exact h

theorem ddsTransmit_ends (addr : Byte) (payload : List Byte) (s : State) : (ddsTransmit addr payload s).Ends s := by
  unfold ddsTransmit
  split
  · obtain ⟨first, rest, -, e⟩ := narrowWrite_eq addr payload s
    rw [e]
    exact .bind (qspiWrite_ends ..) fun _ _ => .done _ rfl
  · exact qspiWrite_ends ..

/-- The two transfers and the latch pulse of an ATT_SET, `BUF` written between the transfers (R150). -/
theorem attSetSteps_ends (v : Variant) (c : Channel) (code : Nat) (s : State) : (attSetSteps v c code s).Ends s :=
  .bind (spiXfer_ends ..) fun rx t =>
    .of_unanswered (t := t.setBuf (rx.set (chanIndex c) (byteOf code))) (.of_io rfl) <|
      .bind (spiXfer_ends ..) fun _ _ => .bind (pinPulse_ends ..) fun _ _ => .done _ rfl

/-- The two transfers of an ATT_GET, `BUF` and `CAP` written between them (R155). -/
theorem attGetSteps_ends (c : Channel) (s : State) : (attGetSteps c s).Ends s :=
  .bind (spiXfer_ends ..) fun rx t =>
    .of_unanswered (t := (t.setBuf rx).setCap rx) (.of_io rfl) <|
      .bind (spiXfer_ends ..) fun _ _ => .done _ rfl

theorem commandFlow_ends (i : Instr) (s : State) : (commandFlow i s).Ends s := by
  cases i with
  | init => exact (initSteps_ends s).failInit
  | gpioSetDirection p x => exact .bind (expDir_ends ..) fun _ _ => .done _ rfl
  | gpioSetLevel p l => exact .bind (expLevel_ends ..) fun _ _ => .done _ rfl
  | ddsConfigureMode m => exact .done _ rfl
  | ddsWrite addr payload =>
    simp only [commandFlow]
    split_ifs
    · exact .raised _ (by decide) s
    · exact .raised _ (by decide) s
    · exact .raised _ (by decide) s
    · exact .bind (ddsTransmit_ends ..) fun _ _ => .done _ rfl
  | ddsRead addr n =>
    simp only [commandFlow]
    split_ifs
    · exact .raised _ (by decide) s
    · exact .raised _ (by decide) s
    · exact qspiRead_ends ..
  | ddsStartStream =>
    simp only [commandFlow]
    refine .bind (qspiBusy_ends s) fun busy t => ?_
    split
    · exact .raised _ (by decide) t
    · exact .bind (qspiStreamOverride_ends t) fun _ _ => .done _ rfl
  | attSet c x =>
    simp only [commandFlow]
    split_ifs
    · exact attSetSteps_ends ..
    · exact .raised _ (by decide) s
  | attGet c => exact attGetSteps_ends ..

/-- A command answers, its status one in use and all its transactions completed, or the last of them alone never completes and it
does not answer (R183, R190). -/
theorem exec_next_ends {i : Instr} {s t : State} (h : exec i s = .next t) :
    (∃ status result, t.io.responses = s.io.responses ++ [status :: result] ∧ status ≠ 0x06 ∧ status ≠ 0x07 ∧
      Issues (fun e => e.outcome ≠ some .stalled) s t) ∨
    ∃ u e, Unanswered s u ∧ IssuedOnce e u t ∧ e.outcome = some .stalled := by
  have hf := commandFlow_ends i s.accept
  rw [exec_next_flow h]
  cases hflow : commandFlow i s.accept with
  | done result u =>
    rw [hflow] at hf
    exact .inl ⟨0x00, result, congrArg (· ++ _) hf.responses, by decide, by decide, hf.completes⟩
  | raised k info u =>
    rw [hflow] at hf
    obtain ⟨hu, hk⟩ := hf
    obtain ⟨hchannel, hadc⟩ := errorCode_of_inUse hk
    exact .inl ⟨errorCode k, info, congrArg (· ++ _) hu.responses, hchannel, hadc, hu.completes⟩
  | stalled u =>
    rw [hflow] at hf
    obtain ⟨w, e, hw, hlast, he⟩ := hf
    exact .inr ⟨w, e, ⟨hw.responses, hw.completes⟩, hlast, he⟩

/-- Settles O57: a step waits, or it is a command, which answers nothing or a status in use. -/
theorem invalidChannelAndAdcAreNeverRaised : Obligations.InvalidChannelAndAdcAreNeverRaised := by
  intro s t h
  obtain ⟨rfl, -⟩ | ⟨_, rest, i, -, -, -, hexec⟩ := step_next_cases h
  · exact .inl rfl
  · obtain ⟨status, result, hresponses, hchannel, hadc, -⟩ | ⟨u, e, hu, hlast, -⟩ := exec_next_ends hexec
    · exact .inr ⟨status, result, hresponses, hchannel, hadc⟩
    · exact .inl (hlast.responses.trans hu.responses)

/-! ## A block that is stuck (R190) -/

/-- A transaction has never completed exactly when the command has answered nothing, and then it is the last one made. -/
theorem exec_next_stalls {i : Instr} {s t : State} (h : exec i s = .next t) :
    ∃ added : List BusEvent, t.io.trace = s.io.trace ++ added ∧
      ((∃ e ∈ added, e.outcome = some .stalled) ↔ t.io.responses = s.io.responses) ∧
      ∀ e ∈ added.dropLast, e.outcome ≠ some .stalled := by
  obtain ⟨status, result, hresponses, -, -, added, htrace, hadded⟩ | ⟨u, e, hu, hlast, he⟩ := exec_next_ends h
  · refine ⟨added, htrace, iff_of_false ?_ ?_, fun e he => hadded e (List.dropLast_subset _ he)⟩
    · rintro ⟨e, he, hstalled⟩
      exact hadded e he hstalled
    · simp [hresponses]
  · obtain ⟨made, htrace, hmade⟩ := hu.completes
    refine ⟨made ++ [e], by rw [hlast.trace, htrace, List.append_assoc], iff_of_true ⟨e, by simp, he⟩ ?_, ?_⟩
    · exact hlast.responses.trans hu.responses
    · rwa [List.dropLast_concat]

/-- A command without a response has left `STEP` at a micro-step: idle it would have answered. -/
theorem stepIx_ne_zero_of_unanswered {i : Instr} {s t : State} (h : exec i s = .next t)
    (hno : t.io.responses = s.io.responses) : t.blk.stepIx ≠ 0 := by
  obtain ⟨⟨-, r, hr⟩ | ⟨hne, -⟩, -⟩ := oneResponsePerCommand i s t h
  · simp [hno] at hr
  · exact hne

theorem step_of_stuck {s : State} (h : s.blk.stepIx ≠ 0) : step s = .next s := if_pos h

/-- Settles O8: each transaction stops where its answer stalls, a command makes none after it, and a block at a
micro-step waits. -/
theorem stalledBlockNeverEnds : Obligations.StalledBlockNeverEnds := by
  refine ⟨fun s hs => ⟨fun w => ?_, fun a p => ?_, fun a n => ?_, fun v => expProbe_stuck v hs, fun v i l => ?_,
    fun v i x => ?_⟩, fun i s t h => ?_, fun s n h => run_of_step_self core n (step_of_stuck h)⟩
  · exact settle_stuck (issuedOnce_record ..) hs
  · exact settle_stuck (issuedOnce_record ..) hs
  · exact settle_stuck (issuedOnce_record ..) hs
  · exact settle_stuck (issuedOnce_record ..) (chipAnswer_stalled.2 hs)
  · exact settle_stuck (issuedOnce_record ..) (chipAnswer_stalled.2 hs)
  · obtain ⟨added, htrace, hiff, hearlier⟩ := exec_next_stalls h
    exact ⟨added, htrace, hiff, hearlier, stepIx_ne_zero_of_unanswered h⟩

end Sys2Proof.Machine

/-! # Waiting, overlapping commands, and the chain synchronised again (spec/70_reset_and_hazards.md) -/

namespace Sys2Proof.Machine

/-! ## An idle block and a busy one (R205, R223) -/

/-- Without a command presented an idle block waits (R205). -/
theorem step_of_idle {s : State} (h0 : s.blk.stepIx = 0) (hhost : s.io.host = []) : step s = .next s := by
  rw [step, if_neg (not_not.2 h0), hhost]

/-- Settles O9: reset leaves the block idle and presents no command, so the waiting step is every step of the run. -/
theorem idleBlockWaitsForTheHost : Obligations.IdleBlockWaitsForTheHost :=
  ⟨fun _ h0 hhost => step_of_idle h0 hhost, fun n => run_of_step_self core n (step_of_idle (s := State.reset) rfl rfl)⟩

/-- Settles O13: the gate that every command passes through looks at `STEP` first. -/
theorem overlappingCommandIsRefused : Obligations.OverlappingCommandIsRefused := by
  intro i s h
  obtain ⟨run, hgate⟩ := exec_gate i s
  rw [hgate, inPhase_busy h]

/-! ## The channels, each once -/

theorem mem_allChannels (c : Channel) : c ∈ allChannels := by cases c <;> decide

theorem chanIndex_surjective : Function.Surjective chanIndex := fun i =>
  ⟨allChannels[i], (by decide : ∀ i : Fin 4, chanIndex allChannels[i] = i) i⟩

/-- Four channels without a repetition are all of them. -/
theorem mem_of_nodup_of_length_four {cs : List Channel} (hnodup : cs.Nodup) (hlength : cs.length = 4) (c : Channel) :
    c ∈ cs := by
  have hsub : cs.Subperm allChannels := hnodup.subperm fun c _ => mem_allChannels c
  exact (hsub.perm_of_length_le hlength.ge).mem_iff.2 (mem_allChannels c)

/-! ## Synchronised channel by channel (R41, R217) -/

/-- `S[k] = O[k]` for the channels of a list (R41). -/
def State.SynchronisedOn (s : State) (cs : List Channel) : Prop :=
  ∀ c ∈ cs, s.dev.staging[chanIndex c] = s.dev.output[chanIndex c]

theorem State.SynchronisedOn.synchronised {s : State} {cs : List Channel} (h : s.SynchronisedOn cs)
    (hall : ∀ c, c ∈ cs) : s.Synchronised := by
  refine Vector.ext fun k hk => ?_
  obtain ⟨c, hc⟩ := chanIndex_surjective ⟨k, hk⟩
  simpa [hc] using h c (hall c)

/-- A byte put into channel `c`'s place in both `S` and `O` synchronises `c`, and leaves every other channel as it was. -/
theorem State.SynchronisedOn.cons {s t : State} {cs : List Channel} {c : Channel} {byte : Byte} (h : s.SynchronisedOn cs)
    (hstaging : t.dev.staging = s.dev.staging.set (chanIndex c) byte)
    (houtput : t.dev.output = s.dev.output.set (chanIndex c) byte) : t.SynchronisedOn (c :: cs) := by
  intro c' hc'
  rw [hstaging, houtput]
  by_cases heq : c' = c
  · subst heq
    simp
  · have hne : (chanIndex c).val ≠ (chanIndex c').val := fun e => heq (chanIndex_injective (Fin.ext e)).symm
    simpa [Vector.getElem_set_ne, hne] using h c' (List.mem_of_ne_of_mem heq hc')

/-- The premises of R217 while `n` ATT_SETs are still to come: each is accepted, makes four transactions that complete, and
latches, the attenuators running and every latch pin an output. `witness_FourAttSetsResynchronise` has a state that meets
them. -/
structure LatchesNext (v : Variant) (n : Nat) (s : State) : Prop where
  accepting : s.Accepting
  selected : s.Selected v
  admissible : s.board.admissible
  nextOk : s.NextOk (4 * n)
  running : s.AttRunning
  outputs : ∀ c, s.PinOutput v (latchPin c)

section
variable {s t : State} {v : Variant} {n : Nat} {c : Channel} {x : BitVec 32}

/-- An ATT_SET uses four answers, and leaves the block's phase, the board, the directions and the reset line. -/
theorem LatchesNext.after_attSet (h : LatchesNext v (n + 1) s) (hx : attValid x = true)
    (hexec : exec (.attSet c x) s = .next t) : LatchesNext v n t := by
  obtain ⟨-, -, -, t', w, rx, rx', hexec', hblk, -, hboard, hxdir, hxlat, -, -, -, hio⟩ :=
    attSetAnswersTheAppliedValue s v c x h.accepting h.selected h.admissible hx fun j hj => h.nextOk j (by omega)
  obtain rfl := Host.Outcome.next.inj (hexec.symm.trans hexec')
  have hupcoming (j : Nat) : t.upcoming j = s.upcoming (4 + j) := by simp [State.upcoming, hio, Nat.add_assoc]
  exact
    { accepting := ⟨hblk ▸ h.accepting.1, hblk ▸ h.accepting.2⟩
      selected := ⟨hblk ▸ h.selected.1, hboard ▸ h.selected.2⟩
      admissible := hboard ▸ h.admissible
      nextOk := fun j hj => hupcoming j ▸ h.nextOk (4 + j) (by omega)
      running := running_of_latchPin_written h.admissible h.selected.2 hboard hxdir hxlat h.running
      outputs := fun c => by simpa only [State.PinOutput, hboard, hxdir] using h.outputs c }

/-- An ATT_SET stages and latches its byte, so its channel joins the synchronised ones (R150, R153). -/
theorem LatchesNext.synchronisedOn_cons {cs : List Channel} (h : LatchesNext v (n + 1) s) (hx : attValid x = true)
    (hexec : exec (.attSet c x) s = .next t) (hsync : s.SynchronisedOn cs) : t.SynchronisedOn (c :: cs) := by
  obtain ⟨hstaging, -, houtput⟩ := attSetChangesOneChannel s t v c x h.accepting h.selected h.admissible hx
    (fun j hj => h.nextOk j (by omega)) h.running hexec
  exact hsync.cons hstaging (houtput.trans (if_pos (h.outputs c)))

end

/-- Settles O46: each ATT_SET adds its channel to the synchronised ones, and four different channels are all. -/
theorem fourAttSetsResynchronise : Obligations.FourAttSetsResynchronise := by
  intro v s0 s1 s2 s3 s4 c1 c2 c3 c4 x1 x2 x3 x4 hnodup hx1 hx2 hx3 hx4 ha hv hb hok hr hout h1 h2 h3 h4
  have l0 : LatchesNext v 4 s0 := ⟨ha, hv, hb, hok, hr, hout⟩
  have l1 : LatchesNext v 3 s1 := l0.after_attSet hx1 h1
  have l2 : LatchesNext v 2 s2 := l1.after_attSet hx2 h2
  have l3 : LatchesNext v 1 s3 := l2.after_attSet hx3 h3
  have hsync0 : s0.SynchronisedOn [] := by simp [State.SynchronisedOn]
  have hsync1 : s1.SynchronisedOn [c1] := l0.synchronisedOn_cons hx1 h1 hsync0
  have hsync2 : s2.SynchronisedOn [c2, c1] := l1.synchronisedOn_cons hx2 h2 hsync1
  have hsync3 : s3.SynchronisedOn [c3, c2, c1] := l2.synchronisedOn_cons hx3 h3 hsync2
  have hsync4 : s4.SynchronisedOn [c4, c3, c2, c1] := l3.synchronisedOn_cons hx4 h4 hsync3
  exact hsync4.synchronised (mem_of_nodup_of_length_four (List.nodup_reverse.2 hnodup) rfl)

end Sys2Proof.Machine
